-- ==== Sys2Proof/Word.lean ====
section
/-! DEFINITION. The value types of the engine: the 32-bit datum, the three-valued input bit (R14), the direction of a
transaction (R19) and the phases of the framing cursor (R22). -/

namespace Sys2Proof

/-- A 32-bit datum (DATA, RXACC, RDATA; R8, R13). All values are unsigned. -/
abbrev Word := BitVec 32

/-- A bit of the input port: 0, 1, or X, "non-binary (undriven or conflicting)" (R14). -/
inductive Tri where
  | zero
  | one
  | x
deriving DecidableEq, Repr, Inhabited

/-- The direction of a transaction, `DIR` (R19). -/
inductive Dir where
  | write
  | read
deriving DecidableEq, Repr, Inhabited

/-- `PHASE`: the nine states the source names and the terminal `Fault` (R22, R98). -/
inductive Phase where
  | idle
  | preamble
  | width
  | padding
  | address
  | data
  | awaitReady
  | response
  | teardown
  | fault
deriving DecidableEq, Repr, Inhabited

end Sys2Proof
end

