-- ==== Sys2Proof/Config.lean ====
section
/-! DEFINITION. The implementation parameters (R7, R9, R27), the reference configuration REF (R10), the constraints on the
parameters, and the free values of the model. -/

namespace Sys2Proof

/-- `RX_SAMPLE` (R9, R87): where in a response bit period data-in is sampled. -/
inductive RxSample where
  | afterPair
  | betweenEdges
deriving DecidableEq, Repr, Inhabited

/-- `XMODE` (R9, R83): what happens to a non-binary sample. -/
inductive XMode where
  | normalize
  | strict
deriving DecidableEq, Repr, Inhabited

/-- The parameters of R7 and R9: "static configuration: fixed before the first request and constant for the life of the
engine" (R27). DESIGN CHOICE, log entry 1, safe: they are an argument of the model, held in `State.cfg`. -/
structure Config where
  /-- `T_HALF`, ticks. -/
  tHalf : Nat
  /-- `POLL_MAX`, polls. -/
  pollMax : Nat
  /-- `T_READY_SETTLE`, ticks. -/
  tReadySettle : Nat
  /-- `T_CS_SETTLE`, ticks. -/
  tCsSettle : Nat
  /-- `EXTRA_EDGES`, clock inversions of the extra toggle. -/
  extraEdges : Nat
  /-- `W_OUT`, `W_IN`: widths of the two port vectors. -/
  wOut : Nat
  wIn : Nat
  /-- Positions of the five wire bits within the two port vectors. -/
  csBit : Nat
  sckBit : Nat
  mosiBit : Nat
  misoBit : Nat
  readyBit : Nat
  /-- `CS_IDLE`; `CS_ACTIVE = 1 - CS_IDLE`. -/
  csIdle : Bool
  /-- `SCK_IDLE`: the level of the clock bit after reset. -/
  sckIdle : Bool
  rxSample : RxSample
  xmode : XMode
  /-- `CMD_WRITE`, `CMD_READ`: the values of the CMD bit (R53). -/
  cmdWrite : Bool
  cmdRead : Bool
  /-- `W_32`: the WIDTH code of a full 32-bit word transaction (R54); read by no rule of the engine. -/
  w32 : BitVec 2
deriving DecidableEq, Repr

/-- The reference configuration REF (R10, the column "reference" of R9).
PRESUMED by the spec itself (general knowledge, D1 and D2), log entries 11 and 12, unsafe: the values of CMD and W_32. -/
def Config.ref : Config where
  tHalf := 2
  pollMax := 100
  tReadySettle := 5
  tCsSettle := 4
  extraEdges := 1
  wOut := 8
  wIn := 8
  csBit := 0
  sckBit := 1
  mosiBit := 2
  misoBit := 0
  readyBit := 1
  csIdle := true
  sckIdle := false
  rxSample := .afterPair
  xmode := .normalize
  cmdWrite := true
  cmdRead := false
  w32 := 2

/-- `CS_ACTIVE = 1 - CS_IDLE` (R9, R77). -/
def Config.csActive (c : Config) : Bool := !c.csIdle

/-- The domains of R9 and the constraints of R10. (`T_CS_SETTLE`, `T_READY_SETTLE` and `POLL_MAX` are at least 0 as
natural numbers.) -/
abbrev Config.Admissible (c : Config) : Prop :=
  1 ≤ c.tHalf ∧ (c.extraEdges = 1 ∨ c.extraEdges = 2) ∧
  3 ≤ c.wOut ∧ 2 ≤ c.wIn ∧
  c.csBit < c.wOut ∧ c.sckBit < c.wOut ∧ c.mosiBit < c.wOut ∧
  c.csBit ≠ c.sckBit ∧ c.csBit ≠ c.mosiBit ∧ c.sckBit ≠ c.mosiBit ∧
  c.misoBit < c.wIn ∧ c.readyBit < c.wIn ∧ c.misoBit ≠ c.readyBit ∧
  c.cmdWrite ≠ c.cmdRead

/-- FREE VALUE, log entry 5, safe: bit `i` of the input port at tick `t`, where the environment of the state lists none
("a free input of every tick, under no law that the engine can rely on", R26, D31). -/
opaque Config.freeIn (t i : Nat) : Tri

/-- FREE VALUE, log entry 6, safe: bit `i` of the output port at tick `t`, for a position that is not the engine's
("whatever else drives them ... is outside the engine", R17, U2), where the environment of the state lists none. -/
opaque Config.freeOut (t i : Nat) : Bool

/-- The registers R31 leaves unspecified at reset, beside the bits of the ports. -/
structure Unspecified where
  dir : Dir
  width : BitVec 2
  addr : BitVec 6
  wdata : Word
  rxacc : Word
  rdata : Word
  pos : Nat
  faultPhase : Phase
  rxbit : Bool
deriving DecidableEq, Repr, Inhabited

/-- FREE VALUE, log entry 8, safe: what a reset event at tick `t` leaves in the registers R31 calls unspecified
("`any value` until first written", U19). -/
opaque Config.freeAtReset (t : Nat) : Unspecified

/-- The registers that accept re-initialises (R28) in the cases for which R94 gives no value: `WDATA` at the accept of a READ, which then
"holds no value" (R19), `RXACC` and `POLLCNT` at that of a WRITE. -/
structure Reinitialised where
  wdata : Word
  rxacc : Word
  pollcnt : Nat
deriving DecidableEq, Repr, Inhabited

/-- FREE VALUE, log entry 18, safe: what an accept at tick `t` leaves in those registers. -/
opaque Config.freeAtAccept (t : Nat) : Reinitialised

end Sys2Proof
end

