-- ==== Sys2Proof/Syntax.lean ====
section
/-! DEFINITION. The syntax: the two operations of the engine (R3, R59, R62), one constructor per row of
spec/opcode_table.json, and the host's calls on integers, from which their operands are taken (R58). -/

namespace Sys2Proof

/-- The operations of the engine, with operands of exactly the widths of the request ports (R58, R93), in the order of the
syntax of R62. This is also the transaction descriptor of R19. -/
inductive Instr where
  /-- WRITE, `write(address, data, width)` (R95). -/
  | write (address : BitVec 6) (data : Word) (width : BitVec 2)
  /-- READ, `read(address, width) -> data` (R96). -/
  | read (address : BitVec 6) (width : BitVec 2)
deriving DecidableEq, Repr

/-- The direction of an operation. -/
def Instr.dir : Instr → Dir
  | .write _ _ _ => .write
  | .read _ _ => .read

/-- The ADDR operand. -/
def Instr.address : Instr → BitVec 6
  | .write a _ _ => a
  | .read a _ => a

/-- The WIDTH operand. -/
def Instr.width : Instr → BitVec 2
  | .write _ _ w => w
  | .read _ w => w

/-- A call of the host language (R62), whose integers may be wider than the fields. -/
inductive Call where
  | write (address data width : Nat)
  | read (address width : Nat)
deriving DecidableEq, Repr

/-- The call that names an operation with its operands as integers. -/
def Instr.toCall : Instr → Call
  | .write a d w => .write a.toNat d.toNat w.toNat
  | .read a w => .read a.toNat w.toNat

end Sys2Proof
end

