-- ==== Sys2Proof/Decode.lean ====
section
/-! DEFINITION. The Frame Encoder/Decoder (R48 to R71): bit sequences in order of transmission, `DecodeFrame` and the decoder of
opcode-table words, then the encoder. The codec is pure and validates nothing (R71). -/

namespace Sys2Proof

/-- The bits of `v` in order of transmission, "most-significant-bit first": `F[i] = v[n-1-i]` (R13). -/
def bitsMsb {n : Nat} (v : BitVec n) : List Bool := (List.range n).map fun i => v.getMsbD i

/-- "Shifting the running value up as each bit arrives": `((acc << 1) | b) mod 2^n` (R69, R87). -/
def pushBit {n : Nat} (acc : BitVec n) (b : Bool) : BitVec n := (acc <<< 1) ||| (BitVec.ofBool b).setWidth n

/-- The `n`-bit value of a bit sequence in order of transmission (R13, R69). -/
def ofBitsMsb (n : Nat) (bs : List Bool) : BitVec n := bs.foldl pushBit 0#n

/-- `F[p..p+n-1]` of a bit sequence (R13). -/
def field (bs : List Bool) (p n : Nat) : List Bool := (bs.drop p).take n

/-- The results of `DecodeFrame` (R67): "`Incomplete` and `conforming = false` are results, not faults". -/
inductive FrameResult where
  | incomplete
  | frame (descriptor : Instr) (conforming : Bool)
deriving DecidableEq, Repr

/-- `conforming`: the 23 PAD bits are all 0 (R60, R67). -/
def padIsZero (bs : List Bool) : Bool := (field bs 3 23).all (fun b => !b)

/-- `DecodeFrame(B)` (R67). Bits after the frame are ignored; a sequence shorter than its frame is `Incomplete`, one shorter
than the command word too (D29; DEDUCED, log entry 15, safe). -/
def decodeFrame (cfg : Config) (bs : List Bool) : FrameResult :=
  if bs.length < 32 then .incomplete
  else
    let width := ofBitsMsb 2 (field bs 1 2)
    let addr := ofBitsMsb 6 (field bs 26 6)
    if bs.headD false = cfg.cmdWrite then
      if bs.length < 64 then .incomplete
      else .frame (.write addr (ofBitsMsb 32 (field bs 32 32)) width) (padIsZero bs)
    else .frame (.read addr width) (padIsZero bs)

/-- Why a bit sequence is the frame of no operation. -/
inductive DecodeError where
  /-- The sequence ends before its frame does (R67). -/
  | incomplete
  /-- PAD is not zero: a command word "the engine never produced" (R60). -/
  | nonConforming
deriving DecidableEq, Repr

/-- The operation whose frame a bit sequence begins with, and the bits after the frame; every other sequence is rejected by
name. The length is known from CMD (R61). -/
def decode (cfg : Config) (bs : List Bool) : Except DecodeError (Instr × List Bool) :=
  match decodeFrame cfg bs with
  | .incomplete => .error .incomplete
  | .frame _ false => .error .nonConforming
  | .frame (.write a d w) true => .ok (.write a d w, bs.drop 64)
  | .frame (.read a w) true => .ok (.read a w, bs.drop 32)

/-- The bit sequence of an opcode-table word: the command word, then the DATA word, each with its bit 31 transmitted first (R50, R59;
opcode_table.json calls DATA the "second 32-bit word"). Bits above `nbits` are 0.
DESIGN CHOICE, log entry 29: in the one number `w` the command word is bits 31..0 and DATA bits 63..32, the host's numbering of table
words. The spec's own number of a write frame is the other way round, `(CW << 32) | WDATA` (R49, R52).
DESIGN CHOICE, log entry 27: a table word of fewer than 64 bits is read with a DATA word of zeros above it, so 32 bits whose CMD says
WRITE are the WRITE of the datum 0. `DecodeFrame` of those 32 bits alone is `Incomplete` (R67), and `decode` of them says so. -/
def tableBits (nbits w : Nat) : List Bool :=
  let v := w % 2 ^ nbits
  bitsMsb (BitVec.ofNat 32 v) ++ bitsMsb (BitVec.ofNat 32 (v / 2 ^ 32))

/-- The operation the decoder reads from an opcode-table word, under the CMD values of REF, with which the table is written
(R59; PRESUMED by the spec, log entry 11), in the numbering of `tableBits` and with the DATA bits that it supplies
(DESIGN CHOICE, log entries 27 and 29). -/
def decodeTableWord (nbits w : Nat) : Option Instr :=
  match decode Config.ref (tableBits nbits w) with
  | .ok (i, _) => some i
  | .error _ => none

/-- The CMD bit of a direction (R53). -/
def cmdBit (cfg : Config) : Dir → Bool
  | .write => cfg.cmdWrite
  | .read => cfg.cmdRead

/-- `EncodeCmd(dir, width, addr)`, the 32 bits of the command word (R64). -/
def encodeCmd (cfg : Config) (dir : Dir) (width : BitVec 2) (addr : BitVec 6) : List Bool :=
  [cmdBit cfg dir] ++ bitsMsb width ++ bitsMsb (0#23) ++ bitsMsb addr

/-- `EncodeWrite(width, addr, data)`, the 64 bits of the write frame (R65). -/
def encodeWrite (cfg : Config) (width : BitVec 2) (addr : BitVec 6) (data : Word) : List Bool :=
  encodeCmd cfg .write width addr ++ bitsMsb data

/-- `EncodeRead(width, addr)`, the 32 bits of the read frame (R66). -/
def encodeRead (cfg : Config) (width : BitVec 2) (addr : BitVec 6) : List Bool :=
  encodeCmd cfg .read width addr

/-- The frame of an operation (R48). -/
def encode (cfg : Config) : Instr → List Bool
  | .write a d w => encodeWrite cfg w a d
  | .read a w => encodeRead cfg w a

/-- The command word as a number, `CW = (CMD << 31) | (WIDTH << 29) | ADDR` (R52). -/
def commandWord (cfg : Config) (dir : Dir) (width : BitVec 2) (addr : BitVec 6) : Word :=
  ((BitVec.ofBool (cmdBit cfg dir)).setWidth 32 <<< 31) ||| (width.setWidth 32 <<< 29) ||| addr.setWidth 32

/-- The 32-bit words of an operation: the command word, then DATA for a WRITE (R52, R57). -/
def encodeWords (cfg : Config) : Instr → List Word
  | .write a d w => [commandWord cfg .write w a, d]
  | .read a w => [commandWord cfg .read w a]

/-- `DecodeResponse(Q)` of 32 binary values (R69, R51). -/
def decodeResponse (q : List Bool) : Word := ofBitsMsb 32 q

/-- `EncodeResponse(v)`: `Q[j] = v[31-j]`, what a conforming peripheral presents on data-in (R69). -/
def encodeResponse (v : Word) : List Bool := bitsMsb v

end Sys2Proof
end

