-- ==== Sys2Proof/Machine/State.lean ====
section
/-! DEFINITION. The state of the engine as plain data (R16 to R31), the environment's inputs of a tick, the reasons a step can
stop, and the state after reset (R31). -/

namespace Sys2Proof.Machine

/-- The output port `OUT` (R16): the three bits that belong to the engine, and the vector of the `W_OUT` positions in which
other drivers put their bits (the three positions of the engine in it are not used). `OutPort.vec` is the port vector. -/
structure OutPort where
  cs : Bool
  sck : Bool
  mosi : Bool
  other : List Bool
deriving DecidableEq, Repr

/-- What the host presents on the request signals (R93); `wdata` is meaningful only when `dir = Write`. -/
structure Request where
  dir : Dir
  addr : BitVec 6
  width : BitVec 2
  wdata : Word
deriving DecidableEq, Repr

/-- The environment at one tick (R122, R123). -/
structure TickInput where
  /-- `In(t)`, from bit 0 on; a bit not listed is a free value (log entry 5). -/
  inPort : List Tri
  /-- The request presented at this tick, if any (R93). -/
  req : Option Request
  /-- The reset event occurs at this tick (R127). -/
  reset : Bool
  /-- What other drivers put on the output port, from bit 0 on; a bit not listed is a free value (log entry 6). -/
  drive : List Bool
deriving DecidableEq, Repr

/-- A tick of which nothing is said: no request, no reset event, every input bit and every foreign output bit free. -/
def TickInput.silent : TickInput where
  inPort := []
  req := none
  reset := false
  drive := []

/-- The state. Everything R16 to R25 names, the parameters of R27, the event `done` of R93, and three fields of the model's
own: `rxbit` (implied by R87), `env` and `now` (log entries 4, 17, 20). -/
structure State where
  /-- The parameters (R27). -/
  cfg : Config
  /-- `OUT` (R16). -/
  port : OutPort
  /-- The descriptor latch `DIR`, `WIDTH`, `ADDR`, `WDATA` (R19). -/
  dir : Dir
  width : BitVec 2
  addr : BitVec 6
  wdata : Word
  /-- `RXACC` (R20). -/
  rxacc : Word
  /-- `RDATA` (R21). -/
  rdata : Word
  /-- The framing cursor (`PHASE`, `POS`) (R22). -/
  phase : Phase
  pos : Nat
  /-- `WAITCNT` (R23). -/
  waitcnt : Nat
  /-- `POLLCNT` (R24). -/
  pollcnt : Nat
  /-- `FAULT`, `FAULT_CODE`, `FAULT_PHASE`, `XNORM_COUNT` (R25). -/
  fault : Bool
  faultCode : BitVec 2
  faultPhase : Phase
  xnormCount : Nat
  /-- The event `done` was given at the tick that has just run (R93, R97; log entry 19). -/
  done : Bool
  /-- The bit `b` of `RecvBit` between its sample and its accumulate (R87; log entry 17). -/
  rxbit : Bool
  /-- The inputs of the coming ticks, the tick about to run first (log entry 4). -/
  env : List TickInput
  /-- The number of the tick about to run (R11, R12; log entry 20). -/
  now : Nat
deriving DecidableEq, Repr

/-- The reasons a step stops with a fault. The engine's own failures (R107) are NOT among them: they are next states. -/
inductive Fault where
  /-- Raised by the tick (`engineTick`) when the engine is busy with no micro-operation left at its cursor, a state that R22
  and R100 exclude and no run reaches. Safe: the model stops where it has no meaning to give. Log entry 21. -/
  | cursorLost
deriving DecidableEq, Repr

/-- The reasons a step is refused. -/
inductive Refusal where
  /-- Raised by the dispatcher for an operation without a meaning; none is left. Safe. -/
  | notModelled (mnemonic : String)
  /-- Raised by the tick (`engineTick`) when the parameters are outside the domains of R9 and R10 ("`T_HALF = 0` ...
  `refuse`", U23). Safe. Log entry 3. -/
  | inadmissibleConfig
deriving DecidableEq, Repr

/-- The state after reset with the parameters `cfg` (R31). DESIGN CHOICE, log entry 7, unsafe: the fields R31 calls
unspecified are zero, `Write` or `Idle`; log entries 4 and 20: nothing is listed of the environment. -/
def State.resetWith (cfg : Config) : State where
  cfg := cfg
  port := ⟨cfg.csIdle, cfg.sckIdle, false, List.replicate cfg.wOut false⟩
  dir := .write
  width := 0
  addr := 0
  wdata := 0
  rxacc := 0
  rdata := 0
  phase := .idle
  pos := 0
  waitcnt := 0
  pollcnt := 0
  fault := false
  faultCode := 0
  faultPhase := .idle
  xnormCount := 0
  done := false
  rxbit := false
  env := []
  now := 0

/-- The machine right after reset, with the reference configuration (R10, R31; DESIGN CHOICE, log entry 1). -/
def State.reset : State := State.resetWith Config.ref

end Sys2Proof.Machine
end

