-- ==== Sys2Proof/Machine/Flags.lean ====
section
/-! DEFINITION. The status values: `BUSY` (R25), `ready` (R93), the condition of the run loop (R100) and the fault codes (R109).
The engine has no condition codes (R25). -/

namespace Sys2Proof.Machine

/-- `BUSY`: "`1` iff `PHASE` is neither `Idle` nor `Fault`" (R25). -/
def State.busy (s : State) : Bool := s.phase ≠ .idle && s.phase ≠ .fault

/-- `ready`: "`1` iff `PHASE = Idle` and `FAULT = 0`" (R93); also the condition of acceptance (R94). -/
def State.ready (s : State) : Bool := s.phase = .idle && !s.fault

/-- The condition of the run loop: `PHASE` not in {Idle, Fault} and `WAITCNT = 0` (R100 (a)). -/
def State.running (s : State) : Bool := s.busy && s.waitcnt = 0

/-- The two failure kinds (R107). -/
inductive FaultKind where
  | protocolTimeout
  | undefinedSample
deriving DecidableEq, Repr

/-- `FAULT_CODE` of a failure kind (R109). -/
def faultCodeOf : FaultKind → BitVec 2
  | .protocolTimeout => 1
  | .undefinedSample => 2

end Sys2Proof.Machine
end

