-- ==== Sys2Proof/Machine/Operands.lean ====
section
/-! DEFINITION. Operand forms: from a host call to the operation (R58), from the request signals to the operation (R93), and the
operation held in the descriptor latch (R19). -/

namespace Sys2Proof.Machine

/-- "The field takes its low bits (`address mod 64`, `width mod 4`, `data mod 2^32`) and nothing is reported" (R58). -/
def instrOfCall : Call → Instr
  | .write a d w => .write (BitVec.ofNat 6 a) (BitVec.ofNat 32 d) (BitVec.ofNat 2 w)
  | .read a w => .read (BitVec.ofNat 6 a) (BitVec.ofNat 2 w)

/-- The operation that the request signals present (R58, R93): `req_wdata` matters only for a WRITE. -/
def instrOfRequest (r : Request) : Instr :=
  match r.dir with
  | .write => .write r.addr r.wdata r.width
  | .read => .read r.addr r.width

/-- The request signals that present an operation; `req_wdata`, which a READ does not use, is 0. -/
def requestOfInstr : Instr → Request
  | .write a d w => ⟨.write, a, w, d⟩
  | .read a w => ⟨.read, a, w, 0⟩

/-- The operation in the descriptor latch (R19). -/
def latchedInstr (s : State) : Instr :=
  match s.dir with
  | .write => .write s.addr s.wdata s.width
  | .read => .read s.addr s.width

end Sys2Proof.Machine
end

