-- ==== Sys2Proof/Machine/Ops.lean ====
section
/-! DEFINITION. The named operations over the ports and registers: writing one output bit (R72), inverting the clock (R73), the
inputs of the present tick, sampling (R83), fault entry (R113) and the reset event that alone leaves it (R114, R127). -/

namespace Sys2Proof.Machine

/-- The three engine-owned output bits (R16). -/
inductive OutLine where
  | cs
  | sck
  | mosi
deriving DecidableEq, Repr

/-- The two input bits the engine reads (R18). -/
inductive InLine where
  | miso
  | ready
deriving DecidableEq, Repr

/-- The position of an engine-owned bit in the output vector (R9). -/
def outIndex (cfg : Config) : OutLine → Nat
  | .cs => cfg.csBit
  | .sck => cfg.sckBit
  | .mosi => cfg.mosiBit

/-- The position of an input line in the input vector (R9). -/
def inIndex (cfg : Config) : InLine → Nat
  | .miso => cfg.misoBit
  | .ready => cfg.readyBit

/-- Bit `i` of the output vector (R16). -/
def OutPort.bit (cfg : Config) (p : OutPort) (i : Nat) : Bool :=
  if i = cfg.csBit then p.cs
  else if i = cfg.sckBit then p.sck
  else if i = cfg.mosiBit then p.mosi
  else p.other.getD i false

/-- The output vector of `W_OUT` bits (R16, R32 (a)), bit 0 first. -/
def OutPort.vec (cfg : Config) (p : OutPort) : List Bool := (List.range cfg.wOut).map (p.bit cfg)

/-- The port triple (CS, SCK, MOSI). -/
def OutPort.triple (p : OutPort) : Bool × Bool × Bool := (p.cs, p.sck, p.mosi)

/-- The engine's own last written value of an output bit, `Out[b]` (R15). -/
def OutPort.get (p : OutPort) : OutLine → Bool
  | .cs => p.cs
  | .sck => p.sck
  | .mosi => p.mosi

/-- `Out[b] <- v`: "every other bit of the port, engine-owned or not, keeps the value it had" (R72). -/
def OutPort.set (p : OutPort) (l : OutLine) (v : Bool) : OutPort :=
  match l with
  | .cs => { p with cs := v }
  | .sck => { p with sck := v }
  | .mosi => { p with mosi := v }

/-- `Out[b] <- v` on the state (R72). -/
def State.setOut (s : State) (l : OutLine) (v : Bool) : State := { s with port := s.port.set l v }

/-- `SckInvert`: `Out[SCK] <- ~Out[SCK]`, "the engine never writes the clock bit with an absolute level" (R73). -/
def State.sckInvert (s : State) : State := s.setOut .sck (!s.port.sck)

/-- The environment's inputs of the tick about to run. -/
def State.tickInput (s : State) : TickInput := s.env.headD TickInput.silent

/-- Bit `l` of the input port that a tick's inputs give at tick `t`; a bit not listed is a free value (R26, D31). -/
def TickInput.line (i : TickInput) (cfg : Config) (t : Nat) (l : InLine) : Tri :=
  (i.inPort[inIndex cfg l]?).getD (Config.freeIn t (inIndex cfg l))

/-- `In[b]` at the present tick (R12, R15). -/
def State.input (s : State) (l : InLine) : Tri := s.tickInput.line s.cfg s.now l

/-- The operation presented on the request signals at the present tick, if any (R93). -/
def State.presented (s : State) : Option Instr := s.tickInput.req.map instrOfRequest

/-- `Norm(v)` (R83). -/
def norm : Tri → Bool
  | .zero => false
  | .one => true
  | .x => false

/-- How many a sample of `v` adds to `XNORM_COUNT` under Normalize (R83). -/
def xCount (v : Tri) : Nat := if v = .x then 1 else 0

/-- What a sample yields (R83). -/
inductive Sampled where
  /-- A binary value, and the state with `XNORM_COUNT` as the sample leaves it. -/
  | value (b : Bool) (s : State)
  /-- The sample raises `UndefinedSample` (R111). -/
  | undefined

/-- `Sample(b)` (R83): under Normalize an X counts as 0 and is counted, under Strict it raises. -/
def State.sample (s : State) (l : InLine) : Sampled :=
  match s.input l with
  | .zero => .value false s
  | .one => .value true s
  | .x =>
    match s.cfg.xmode with
    | .strict => .undefined
    | .normalize => .value false { s with xnormCount := s.xnormCount + 1 }

/-- Fault entry, `raise <Fault>(info)` (R113): "Nothing else changes"; the outputs stay as they are (D14). -/
def State.raise (s : State) (k : FaultKind) : State :=
  { s with
    fault := true
    faultCode := faultCodeOf k
    faultPhase := s.phase
    phase := .fault
    waitcnt := 0 }

/-- The reset event (R127): every piece of engine state takes the value of R31; it is "the only way out of `Fault`". What
R31 leaves unspecified is a free value (log entry 8); the parameters, the environment and the tick number are not engine
state and stay, and so do the output bits that are not the engine's. -/
def State.resetEvent (s : State) : State :=
  let u := Config.freeAtReset s.now
  { s with
    port := { s.port with cs := s.cfg.csIdle, sck := s.cfg.sckIdle, mosi := false }
    dir := u.dir
    width := u.width
    addr := u.addr
    wdata := u.wdata
    rxacc := u.rxacc
    rdata := u.rdata
    phase := .idle
    pos := u.pos
    waitcnt := 0
    pollcnt := 0
    fault := false
    faultCode := 0
    faultPhase := u.faultPhase
    xnormCount := 0
    done := false
    rxbit := u.rxbit }

/-- The bits that other drivers put on the output vector at the present tick (R17, R123); the engine's three positions in
this list are not used. -/
def State.driven (s : State) : List Bool :=
  (List.range s.cfg.wOut).map fun i => (s.tickInput.drive[i]?).getD (Config.freeOut s.now i)

/-- What the environment does at the present tick before the engine's step: other drivers set the bits of the output port
that are not the engine's (R17), and a reset event, if one occurs, resets the engine (R127; log entry 8). -/
def State.environment (s : State) : State :=
  let s' := { s with port := { s.port with other := s.driven } }
  if s.tickInput.reset then s'.resetEvent else s'

/-- The tick is over: the next tick's inputs are at the head of the environment. -/
def State.nextTick (s : State) : State := { s with env := s.env.tail, now := s.now + 1 }

/-- Apply a function to the next state of an outcome; a fault or a refusal stays. -/
def mapNext (f : State → State) : Host.Outcome State Fault Refusal → Host.Outcome State Fault Refusal
  | .next s => .next (f s)
  | .fault r => .fault r
  | .refused r => .refused r

end Sys2Proof.Machine
end

