-- ==== Sys2Proof/Machine/MicroOps.lean ====
section
/-! DEFINITION. The micro-operations of the sequences (R12, R15) and the effect of each on the state. A micro-operation that does
not raise also moves the cursor `POS` (R22). -/

namespace Sys2Proof.Machine

/-- The micro-operations. Every one but the waits takes zero ticks (R12). -/
inductive MicroOp where
  /-- `Out[b] <- v` (R72). -/
  | setOut (l : OutLine) (v : Bool)
  /-- `SckInvert` (R73). -/
  | sckInvert
  /-- `Wait(n)` (R12, R23). -/
  | wait (n : Nat)
  /-- `POLLCNT <- 0`, the start of `PollReady` (R84). -/
  | pollInit
  /-- One round of `PollReady`: the bound test, then the sample, then the count (R84, R115). -/
  | poll
  /-- The `Wait(1)` that ends a round whose poll did not read 1, and the return to the poll (R84). -/
  | pollWait
  /-- `b = Sample(MISO)` (R87). -/
  | sampleMiso
  /-- `RXACC <- ((RXACC << 1) | b) mod 2^32` (R87). -/
  | accumulate
  /-- `Complete` (R97). -/
  | complete
deriving DecidableEq, Repr

/-- `Wait(n)`: `WAITCNT <- n` (R23, R100). -/
def State.wait (s : State) (n : Nat) : State := { s with waitcnt := n }

/-- The cursor moves forward by `n` micro-operations (R22). -/
def State.advance (s : State) (n : Nat) : State := { s with pos := s.pos + n }

/-- One round of `PollReady` up to its wait (R84): "if POLLCNT = POLL_MAX: raise ProtocolTimeout" comes before the sample
(R115); a poll that reads 1 leaves the loop, past its wait. -/
def State.pollRound (s : State) : State :=
  if s.pollcnt = s.cfg.pollMax then s.raise .protocolTimeout
  else
    match s.sample .ready with
    | .undefined => s.raise .undefinedSample
    | .value r s' =>
      let counted := { s' with pollcnt := s'.pollcnt + 1 }
      if r then counted.advance 2 else counted.advance 1

/-- `Wait(1)` and back to the poll (R84). -/
def State.pollAgain (s : State) : State := { s.wait 1 with pos := s.pos - 1 }

/-- `b = Sample(MISO)` (R87). -/
def State.sampleData (s : State) : State :=
  match s.sample .miso with
  | .undefined => s.raise .undefinedSample
  | .value b s' => { s' with rxbit := b }.advance 1

/-- `RXACC <- ((RXACC << 1) | b) mod 2^32`: "the bit shifted out of position 31 is discarded, the new bit enters position 0"
(R87). -/
def State.accumulateBit (s : State) : State :=
  { s with rxacc := pushBit s.rxacc s.rxbit }

/-- `Complete` (R97): for a READ `RDATA <- RXACC`; `PHASE <- Idle`; the event `done`. -/
def State.completeTransaction (s : State) : State :=
  { s with
    rdata := if s.dir = .read then s.rxacc else s.rdata
    phase := .idle
    done := true }

/-- The effect of a micro-operation (R100 (a)). -/
def MicroOp.exec (op : MicroOp) (s : State) : State :=
  match op with
  | .setOut l v => (s.setOut l v).advance 1
  | .sckInvert => s.sckInvert.advance 1
  | .wait n => (s.wait n).advance 1
  | .pollInit => { s with pollcnt := 0 }.advance 1
  | .poll => s.pollRound
  | .pollWait => s.pollAgain
  | .sampleMiso => s.sampleData
  | .accumulate => s.accumulateBit.advance 1
  | .complete => s.completeTransaction.advance 1

/-- A micro-operation sequence; each micro-operation is tagged with the phase that holds it (R98). -/
abbrev MicroSeq := List (Phase × MicroOp)

/-- The micro-operations `ops`, held by the phase `p` (R98). -/
def tagged (p : Phase) (ops : List MicroOp) : MicroSeq := ops.map fun op => (p, op)

end Sys2Proof.Machine
end

