-- ==== Sys2Proof/Machine/Transmitter.lean ====
section
/-! DEFINITION. The Clocked Bit Transmitter (R74 to R80): the micro-operation sequences that drive chip-select, clock and data-out. -/

namespace Sys2Proof.Machine

/-- `SendBit(v)` (R74): data, first edge, half-cycle, second edge, half-cycle. -/
def sendBit (cfg : Config) (v : Bool) : List MicroOp :=
  [.setOut .mosi v, .sckInvert, .wait cfg.tHalf, .sckInvert, .wait cfg.tHalf]

/-- `SendBits(F)` (R75). -/
def sendBits (cfg : Config) (bs : List Bool) : List MicroOp := bs.flatMap (sendBit cfg)

/-- `SendField(v, N)`, most significant bit first (R75). -/
def sendField (cfg : Config) {n : Nat} (v : BitVec n) : List MicroOp := sendBits cfg (bitsMsb v)

/-- `Open` (R76). -/
def openFrame (cfg : Config) : List MicroOp := [.setOut .cs cfg.csIdle, .wait cfg.tCsSettle]

/-- `CsAssert` (R77). -/
def csAssert (cfg : Config) : List MicroOp := [.setOut .cs cfg.csActive]

/-- `ExtraToggle` (R78): `EXTRA_EDGES` inversions, each held one half-cycle. -/
def extraToggle (cfg : Config) : List MicroOp :=
  (List.replicate cfg.extraEdges [MicroOp.sckInvert, MicroOp.wait cfg.tHalf]).flatten

/-- `Close` (R79). -/
def closeFrame (cfg : Config) : List MicroOp := [.setOut .cs cfg.csIdle, .wait cfg.tCsSettle]

/-- `TxCmd(dir, width, addr)` (R80) with the phases of R98: `Open`, `CsAssert` and the CMD bit in `Preamble`, then the WIDTH,
PAD and ADDR fields. -/
def txCmd (cfg : Config) (dir : Dir) (width : BitVec 2) (addr : BitVec 6) : MicroSeq :=
  tagged .preamble (openFrame cfg ++ csAssert cfg ++ sendBit cfg (cmdBit cfg dir)) ++
  tagged .width (sendField cfg width) ++
  tagged .padding (sendField cfg (0#23)) ++
  tagged .address (sendField cfg addr)

/-- The DATA field of a write frame (R80, R98). -/
def txData (cfg : Config) (data : Word) : MicroSeq := tagged .data (sendField cfg data)

/-- `ExtraToggle`, `Close` and `Complete`, which end both operations (R80, R89, R97, R98). -/
def teardown (cfg : Config) : MicroSeq :=
  tagged .teardown (extraToggle cfg ++ closeFrame cfg ++ [.complete])

end Sys2Proof.Machine
end

