-- ==== Sys2Proof/Machine/Receiver.lean ====
section
/-! DEFINITION. The Ready-Poll Receiver (R84 to R89): the micro-operation sequences that poll the ready flag and clock in the
response. -/

namespace Sys2Proof.Machine

/-- `PollReady` (R84): the loop is two micro-operations, repeated (R22). -/
def pollReady : List MicroOp := [.pollInit, .poll, .pollWait]

/-- `ReadySettle` (R86). -/
def readySettle (cfg : Config) : List MicroOp := [.wait cfg.tReadySettle]

/-- `RecvBit` (R87), under either value of `RX_SAMPLE`. -/
def recvBit (cfg : Config) : List MicroOp :=
  match cfg.rxSample with
  | .afterPair =>
    [.sckInvert, .wait cfg.tHalf, .sckInvert, .wait cfg.tHalf, .sampleMiso, .accumulate]
  | .betweenEdges =>
    [.sckInvert, .wait cfg.tHalf, .sampleMiso, .sckInvert, .wait cfg.tHalf, .accumulate]

/-- `RecvWord`: `RecvBit` 32 times (R88); `RXACC <- 0` was done at accept (R94). -/
def recvWord (cfg : Config) : List MicroOp := (List.replicate 32 (recvBit cfg)).flatten

/-- `PollReady`, `ReadySettle` and `RecvWord` of `RxRead` (R89) with the phases of R98. -/
def rxResponse (cfg : Config) : MicroSeq :=
  tagged .awaitReady (pollReady ++ readySettle cfg) ++ tagged .response (recvWord cfg)

end Sys2Proof.Machine
end

