-- ==== Sys2Proof/Machine/Transaction.lean ====
section
/-! DEFINITION. The Register Transaction API (R93 to R101): the sequences of WRITE and READ, acceptance, the run loop, the engine's
tick (R100), and the meanings of the two operations. -/

namespace Sys2Proof.Machine

/-- The micro-operation sequence of WRITE (R95): `TxWrite`, `Complete`. -/
def writeSeq (cfg : Config) (addr : BitVec 6) (data : Word) (width : BitVec 2) : MicroSeq :=
  txCmd cfg .write width addr ++ txData cfg data ++ teardown cfg

/-- The micro-operation sequence of READ (R96): `TxCmd`, `PollReady`, `ReadySettle`, `RecvWord`, `ExtraToggle`, `Close`,
`Complete`. -/
def readSeq (cfg : Config) (addr : BitVec 6) (width : BitVec 2) : MicroSeq :=
  txCmd cfg .read width addr ++ rxResponse cfg ++ teardown cfg

/-- The sequence of an operation, in which `POS` is a position (R22). -/
def microSeq (cfg : Config) : Instr → MicroSeq
  | .write a d w => writeSeq cfg a d w
  | .read a w => readSeq cfg a w

/-- The sequence of the transaction in flight: it is a function of the descriptor as latched (R46, R94). -/
def State.seq (s : State) : MicroSeq := microSeq s.cfg (latchedInstr s)

/-- "Execute the micro-operation at POS and advance POS" (R100 (a)); "`PHASE` takes a value when the first micro-operation of
that phase executes" (R98). With none at `POS` nothing happens. -/
def State.microStep (s : State) : State :=
  match s.seq[s.pos]? with
  | some (p, op) => op.exec { s with phase := p }
  | none => s

/-- The run loop of R100 (a), for at most `fuel` micro-operations. -/
def State.runFor : Nat → State → State
  | 0, s => s
  | fuel + 1, s => if s.running then s.microStep.runFor fuel else s

/-- The run loop of R100 (a). Within one tick the cursor only moves forward until a wait (R22, R100), so the length of the
sequence bounds the number of rounds. -/
def State.run (s : State) : State := s.runFor (s.seq.length + 1)

/-- The part of accept that is common to both operations (R94). -/
def State.beginTransaction (s : State) : State :=
  { s with waitcnt := 0, pos := 0, phase := .preamble }

/-- Accept of a WRITE (R94): the descriptor is latched. `RXACC` and `POLLCNT` are re-initialised too (R28), to values that no rule gives:
free values, that of `POLLCNT` within its bound (R24; log entry 18). -/
def acceptWrite (address : BitVec 6) (data : Word) (width : BitVec 2) (s : State) : State :=
  { s with
    dir := .write, width := width, addr := address, wdata := data
    rxacc := (Config.freeAtAccept s.now).rxacc
    pollcnt := min (Config.freeAtAccept s.now).pollcnt s.cfg.pollMax }.beginTransaction

/-- Accept of a READ (R94): the descriptor is latched, and `RXACC` and `POLLCNT` are 0. `WDATA` is re-initialised too (R28) and then "holds
no value" (R19): a free value (log entry 18). -/
def acceptRead (address : BitVec 6) (width : BitVec 2) (s : State) : State :=
  { s with
    dir := .read, width := width, addr := address, wdata := (Config.freeAtAccept s.now).wdata
    rxacc := 0, pollcnt := 0 }.beginTransaction

/-- R100 (d): "if WAITCNT > 0: WAITCNT <- WAITCNT - 1". -/
def State.countdown (s : State) : State := { s with waitcnt := s.waitcnt - 1 }

/-- The state at the start of a tick: the event `done` of the tick before is over (log entry 19). -/
def State.startTick (s : State) : State := { s with done := false }

/-- `Run`, then acceptance where it is tested, then `Run` (R100 (a), (b)): a request is accepted "if and only if
`PHASE = Idle` and `FAULT = 0`" at that point (R94), and one that is not "changes nothing" (R94, R101). -/
def State.runAccept (accept : State → State) (s : State) : State :=
  let s1 := s.startTick.run
  if s1.ready then (accept s1).run else s1

/-- The engine's step, one tick (R100), with `accept` what acceptance does if the engine is ready for it. Refused outside the
domains of the parameters (R10, U23; log entry 3). -/
def engineTick (accept : State → State) (s : State) : Host.Outcome State Fault Refusal :=
  if s.cfg.Admissible then
    let s2 := s.runAccept accept
    if s2.running then .fault .cursorLost else .next s2.countdown
  else .refused .inadmissibleConfig

/-- The engine's step at a tick at which no request is presented (R100). -/
def idleTick (s : State) : Host.Outcome State Fault Refusal := engineTick id s

/-- WRITE (R95): the tick at which `write(address, data, width)` is presented. If the engine is ready the WRITE is accepted and
its first micro-operations execute at this tick; the rest of its sequence executes at the ticks that follow. DESIGN CHOICE,
log entry 13, safe: one step is one tick, as R100 has it. -/
def execWrite (address : BitVec 6) (data : Word) (width : BitVec 2) (s : State) :
    Host.Outcome State Fault Refusal :=
  engineTick (acceptWrite address data width) s

/-- READ (R96): the tick at which `read(address, width)` is presented, as for WRITE (log entry 13). -/
def execRead (address : BitVec 6) (width : BitVec 2) (s : State) : Host.Outcome State Fault Refusal :=
  engineTick (acceptRead address width) s

end Sys2Proof.Machine
end

