-- ==== Sys2Proof/Machine/Dispatch.lean ====
section
/-! DEFINITION. The dispatcher: one arm per operation of spec/opcode_table.json. -/

namespace Sys2Proof.Machine
open Sys2Proof

/-- The meaning of an operation presented at the present tick. -/
def exec (i : Instr) (s : State) : Host.Outcome State Fault Refusal :=
  match i with
  | .write address data width => Sys2Proof.Machine.execWrite address data width s
  | .read address width => Sys2Proof.Machine.execRead address width s

end Sys2Proof.Machine
end

