-- ==== Sys2Proof/Machine/Placement.lean ====
section
/-! DEFINITION. Placing an operation on the request interface: there is no instruction memory and no fetch (R46); the host presents
each operation at a tick (R93, R94; log entry 14). -/

namespace Sys2Proof.Machine

/-- The inputs of the tick about to run with a request for `i` in place of what the host presents, and no reset event. -/
def TickInput.withRequest (t : TickInput) (i : Instr) : TickInput :=
  { t with req := some (requestOfInstr i), reset := false }

/-- `s` with `i` presented at the tick about to run and the engine ready to accept it (`PHASE = Idle`, `FAULT = 0`: R94). -/
def State.present (s : State) (i : Instr) : State :=
  { s with
    env := s.tickInput.withRequest i :: s.env.tail
    phase := .idle
    fault := false }

end Sys2Proof.Machine
end

