-- ==== Sys2Proof/Machine/Step.lean ====
section
/-! DEFINITION. One step of the machine, which is one tick (R100, R12), and the placing of an operation where the step takes its
next one from (log entry 14). -/

namespace Sys2Proof.Machine
open Sys2Proof

/-- One tick: the environment's part, then the engine's step with the operation presented at this tick, if any (R100). -/
def step (s : State) : Host.Outcome State Fault Refusal :=
  let s' := s.environment
  mapNext State.nextTick
    (match s'.presented with
     | some i => exec i s'
     | none => idleTick s')

/-- `s` with the operation of an opcode-table word presented on the request signals at the tick about to run, and the engine
ready for it; a word that decodes to no operation leaves `s` as it is. -/
def State.withFetchWord (s : State) (nbits w : Nat) : State :=
  match decodeTableWord nbits w with
  | some i => s.present i
  | none => s

end Sys2Proof.Machine
end

