-- ==== Sys2Proof/Machine/Observe.lean ====
section
/-! DEFINITION. Runs of ticks and what is seen of them: the state after `n` ticks, the output port at every tick, and `WireObserve`,
the frame recovered from the output port alone (R70). -/

namespace Sys2Proof.Machine
open Sys2Proof

/-- The state after `n` ticks, stopping at the first fault or refusal. -/
def ticks : Nat → State → Host.Outcome State Fault Refusal
  | 0, s => .next s
  | n + 1, s =>
    match step s with
    | .next t => ticks n t
    | .fault r => .fault r
    | .refused r => .refused r

/-- The inputs of the tick `k` ticks ahead. -/
def State.inputsAhead (s : State) (k : Nat) : TickInput := (s.env[k]?).getD TickInput.silent

/-- `In(t)[b]` for the tick `t` that lies `k` ticks ahead (R12). -/
def State.inputAhead (s : State) (k : Nat) (l : InLine) : Tri := (s.inputsAhead k).line s.cfg (s.now + k) l

/-- No reset event occurs at the next `n` ticks. -/
def State.NoReset (s : State) (n : Nat) : Prop := ∀ k, k < n → (s.inputsAhead k).reset = false

/-- The states after each of the next `n` ticks, in order, as far as the run goes. -/
def visited : Nat → State → List State
  | 0, _ => []
  | n + 1, s =>
    match step s with
    | .next t => t :: visited n t
    | _ => []

/-- `Out(t)` at the next `n` ticks, in order (R12). -/
def trace (n : Nat) (s : State) : List OutPort := (visited n s).map State.port

/-- The data-out values at the clock inversions seen while chip-select is active, `Out(e_1)[MOSI]`, `Out(e_2)[MOSI]`, ..; `prev`
is the clock level at the tick before (R70). -/
def edgeBits (cfg : Config) (prev : Bool) : List OutPort → List Bool
  | [] => []
  | p :: ps =>
    if p.cs = cfg.csActive ∧ p.sck ≠ prev then p.mosi :: edgeBits cfg p.sck ps
    else edgeBits cfg p.sck ps

/-- The first, third, fifth .. element. -/
def everyOther : List Bool → List Bool
  | [] => []
  | [b] => [b]
  | b :: _ :: bs => b :: everyOther bs

/-- `WireObserve` (R70): `F[k] = Out(e_(2k+1))[MOSI]`; what follows the frame is left to `DecodeFrame`, which ignores it. -/
def wireObserve (cfg : Config) (prev : Bool) (ports : List OutPort) : List Bool :=
  everyOther (edgeBits cfg prev ports)

end Sys2Proof.Machine
end

