-- ==== Sys2Proof/Machine/HostProgram.lean ====
section
/-! DEFINITION. What the host owes the engine, tick by tick, and the treatment `refuse` of a host program that does not keep to it
(R101, R112, R122, R128; 93_implementation_defined.md part 2). The engine itself goes on (`step`): a request presented while
`ready = 0` has no effect, and a reset event resets. -/

namespace Sys2Proof.Machine
open Sys2Proof

/-- What the host must not do at a tick. -/
inductive HostBreach where
  /-- A request is presented while `ready = 0` (R101, R112, R122; U8; after a failure, R114). -/
  | requestWhileNotReady
  /-- Reset is applied while `BUSY = 1`, which a model treats "as the end of the run, not as a way to cancel" (R128). -/
  | resetWhileBusy
deriving DecidableEq, Repr

/-- The engine inside the tick about to run, at the point where acceptance is tested: after the environment's part of the tick and the
micro-operations that are due (R100 (a), (b)). -/
def State.atAccept (s : State) : State := s.environment.startTick.run

/-- The breach of the host's duty at the tick about to run, if there is one. `ready` is that of the point where acceptance is tested:
a request presented at the tick of `done` finds `ready = 1` (R97, R100 (b), C7) and is none. -/
def State.hostBreach (s : State) : Option HostBreach :=
  if s.tickInput.reset = true ∧ s.busy = true then some .resetWhileBusy
  else if s.presented.isSome = true ∧ s.atAccept.ready = false then some .requestWhileNotReady
  else none

/-- The host keeps to its duty at the tick about to run. -/
abbrev State.HostDisciplined (s : State) : Prop := s.hostBreach = none

/-- What becomes of a host program over a number of ticks. -/
inductive ProgramRun where
  /-- The program kept to its duty at every tick; the state after them. -/
  | ran (s : State)
  /-- The program is refused: "the spec gives such a program no meaning" (R101); the state before the tick of the breach. -/
  | refused (b : HostBreach) (s : State)
  /-- A tick had no next state (parameters outside their domains, U23). -/
  | stopped
deriving DecidableEq, Repr

/-- The host program that the environment's script holds, run for `n` ticks: refused at the first tick at which the host breaks its
duty (R101: "A model treats a host program that presents a request while `ready = 0` as `refuse`"). -/
def programRun : Nat → State → ProgramRun
  | 0, s => .ran s
  | n + 1, s =>
    match s.hostBreach with
    | some b => .refused b s
    | none =>
      match step s with
      | .next t => programRun n t
      | _ => .stopped

/-- The same tick with nothing presented at it. -/
def State.withoutRequest (s : State) : State :=
  { s with env := { s.tickInput with req := none } :: s.env.tail }

end Sys2Proof.Machine
end

