-- ==== Sys2Proof/Machine/Peripheral.lean ====
section
/-! DEFINITION. The other side of the wire, for the properties of R105: the abstract register space (R37), a peripheral as a
tick-synchronous machine, the engine coupled with one, the host's blocking calls (R93), conformance (R37), and the fixture `M` of 95_test_vectors.md section 4.
None of this is part of the engine or a claim about the real peripheral (R5, D27). -/

namespace Sys2Proof.Machine
open Sys2Proof

/-- The remote register space `M : {0..63} -> 32-bit` (R33, R37). -/
abbrev RegSpace := Vector Word 64

/-- `MemRead(a, 4)` (R15, R37). -/
def memRead (m : RegSpace) (a : BitVec 6) : Word := m[a.toNat]'a.isLt

/-- `MemWrite(a, 4, v)` (R15, R37). -/
def memWrite (m : RegSpace) (a : BitVec 6) (v : Word) : RegSpace := m.set a.toNat v a.isLt

/-- A peripheral: what it drives on the two input lines, and what it does at tick `t` on seeing `Out(t)`; what it computes there
is seen at tick `t + 1`, so `In(t)` does not depend on `Out(t)` (R12). -/
structure Peripheral (σ : Type) where
  drives : σ → InLine → Tri
  tick : σ → Nat → OutPort → σ

/-- The inputs of a tick at which a peripheral in state `m` owns the input port and the host presents `r`; the other input bits
are free (R18), and so are the other bits of the output port (R17). -/
def coupledInput {σ : Type} (P : Peripheral σ) (m : σ) (cfg : Config) (now : Nat) (r : Option Request) : TickInput where
  inPort := (List.range cfg.wIn).map fun i =>
    if i = cfg.misoBit then P.drives m .miso
    else if i = cfg.readyBit then P.drives m .ready
    else Config.freeIn now i
  req := r
  reset := false
  drive := []

/-- The engine about to run a tick against a peripheral. -/
def coupledState {σ : Type} (P : Peripheral σ) (c : State × σ) (r : Option Request) : State :=
  { c.1 with env := [coupledInput P c.2 c.1.cfg c.1.now r] }

/-- One tick of the engine together with a peripheral. -/
def coupledTick {σ : Type} (P : Peripheral σ) (c : State × σ) (r : Option Request) : Option (State × σ) :=
  match step (coupledState P c r) with
  | .next t => some (t, P.tick c.2 c.1.now t.port)
  | _ => none

/-- Where a blocking call of the host stands (R93; log entry 28). In every case the engine and the peripheral are as after the last
tick that was run. -/
inductive CallResult (σ : Type) where
  /-- `done` was given: the call returns, a READ with the `rdata` it takes, a WRITE with no value. -/
  | returned (value : Option Word) (c : State × σ)
  /-- The call of a READ observes `fault`: it "fatally fails", and `fault_code` says how (R109). -/
  | failed (code : BitVec 2) (c : State × σ)
  /-- Neither has happened within the ticks allowed. -/
  | waiting (c : State × σ)
  /-- A tick had no next state (parameters outside their domains, U23). -/
  | stopped
deriving DecidableEq, Repr

/-- What a call returns from the state after the tick of its `done`: "take `rdata`" (R93). -/
def returnValue (i : Instr) (s : State) : Option Word :=
  match i with
  | .write _ _ _ => none
  | .read _ _ => some s.rdata

/-- What the host sees at the end of one tick of its call, if the call ends there: `done`, or, in the call of a READ alone, `fault`
(R93; a WRITE waits for `done`, R95). -/
def callEnds {σ : Type} (i : Instr) (c : State × σ) : Option (CallResult σ) :=
  if c.1.done then some (.returned (returnValue i c.1) c)
  else if i.dir = .read ∧ c.1.fault = true then some (.failed c.1.faultCode c)
  else none

/-- The ticks after the call of `i` was presented, at most `n` of them: "wait for `done` and take `rdata`, or observe `fault`"
(R93). -/
def awaitEnd {σ : Type} (P : Peripheral σ) (i : Instr) : Nat → State × σ → CallResult σ
  | 0, c => .waiting c
  | n + 1, c =>
    match coupledTick P c none with
    | some c' => (callEnds i c').getD (awaitEnd P i n c')
    | none => .stopped

/-- A blocking call of the host (R93): present the request at one tick, then wait at most `n` ticks for the end of the call. A
`done` given at the tick of the request is that of an earlier transaction (R97) and is not looked at. DESIGN CHOICE, log entry 28. -/
def hostCall {σ : Type} (P : Peripheral σ) (n : Nat) (i : Instr) (c : State × σ) : CallResult σ :=
  match coupledTick P c (some (requestOfInstr i)) with
  | some c' => awaitEnd P i n c'
  | none => .stopped

/-- The echo property, by which R37 DEFINES a conforming peripheral: `write(A, V, W)` and then `read(A, W)` returns `V`, here for one
width code `w`, from the resting states `rest`, each call within `n` ticks (log entry 26). -/
def Echoes {σ : Type} (P : Peripheral σ) (rest : State × σ → Prop) (n : Nat) (w : BitVec 2) : Prop :=
  ∀ c, rest c → ∀ a v, ∃ c1 c2, hostCall P n (.write a v w) c = .returned none c1 ∧
    hostCall P n (.read a w) c1 = .returned (some v) c2

/-- A peripheral conforming for the width code `w`, in the form of the EFFECTS R37 gives: a WRITE has the effect `M[a] <- v`, a READ
returns `M[a]` and leaves `M` unchanged.
DESIGN CHOICE, log entry 26: R37 defines a conforming peripheral by the echo property (`Echoes`) and then says that it has these
effects; echo alone does not give them, because a WRITE to one register could disturb another. This model takes the effects as the
definition, seen through `view` when the tick of `done` is over, each call within `n` ticks, at the resting states `rest` that a
statement chooses. It implies `Echoes` (`Conforming.echoes`). -/
structure Conforming {σ : Type} (P : Peripheral σ) (rest : State × σ → Prop) (view : σ → RegSpace) (n : Nat)
    (w : BitVec 2) : Prop where
  write : ∀ c, rest c → ∀ a v, ∃ c', hostCall P n (.write a v w) c = .returned none c' ∧ rest c' ∧
    view c'.2 = memWrite (view c.2) a v
  read : ∀ c, rest c → ∀ a, ∃ c', hostCall P n (.read a w) c = .returned (some (memRead (view c.2) a)) c' ∧ rest c' ∧
    view c'.2 = view c.2

/-- The state of the fixture `M` with its parameters: ready latency `RL` (none for "never"), the response positions `XB` at which
it presents X, and the engine's `CS_IDLE` and `CMD_READ`. -/
structure Mock where
  latency : Option Nat
  xPositions : List Nat
  csIdle : Bool
  cmdRead : Bool
  regs : RegSpace
  edges : Nat
  frame : List Bool
  reading : Bool
  addr : BitVec 6
  resp : Word
  flagAt : Option Nat
  miso : Tri
  ready : Tri
  prevSck : Bool
deriving DecidableEq, Repr

/-- `M` before the first tick. 95_test_vectors.md section 4 gives initial values for the registers and the two outputs: 0.
DESIGN CHOICE, log entry 30: the rest, which it does not give, is taken as after a tick at which chip-select was idle (no edge counted, no
bit collected, no READ, no flag time), with address and response word 0, and `Out(-1)[SCK]` at the level at which the engine's clock rests
after reset. -/
def Mock.init (cfg : Config) (latency : Option Nat) (xPositions : List Nat) : Mock where
  latency := latency
  xPositions := xPositions
  csIdle := cfg.csIdle
  cmdRead := cfg.cmdRead
  regs := Vector.replicate 64 0
  edges := 0
  frame := []
  reading := false
  addr := 0
  resp := 0
  flagAt := none
  miso := .zero
  ready := .zero
  prevSck := cfg.sckIdle

/-- A binary value as an input bit. -/
def triOf (b : Bool) : Tri := if b then .one else .zero

/-- One more clock inversion of the frame. -/
def Mock.count (m : Mock) : Mock := { m with edges := m.edges + 1 }

/-- At an odd inversion of the request `M` takes the bit at data-out. -/
def Mock.takeBit (m : Mock) (mosi : Bool) : Mock :=
  if m.edges % 2 = 1 ∧ (m.edges ≤ 63 ∨ (m.reading = false ∧ m.edges ≤ 127)) then { m with frame := m.frame ++ [mosi] } else m

/-- At inversion 63 the command word is complete. -/
def Mock.readHeader (m : Mock) : Mock :=
  if m.edges = 63 then
    { m with reading := m.frame.headD false = m.cmdRead, addr := ofBitsMsb 6 (field m.frame 26 6) }
  else m

/-- At inversion 64 of a READ `M` takes the response and sets the time of the flag. -/
def Mock.answer (m : Mock) (t : Nat) : Mock :=
  if m.edges = 64 ∧ m.reading = true then
    { m with resp := memRead m.regs m.addr, flagAt := m.latency.map (t + ·) }
  else m

/-- At inversion 127 of a WRITE `M` stores the datum. -/
def Mock.store (m : Mock) : Mock :=
  if m.edges = 127 ∧ m.reading = false then
    { m with regs := memWrite m.regs m.addr (ofBitsMsb 32 (field m.frame 32 32)) }
  else m

/-- At the odd inversions 65 to 127 of a READ `M` presents the next response bit. -/
def Mock.presentBit (m : Mock) : Mock :=
  if m.reading = true ∧ m.edges % 2 = 1 ∧ 65 ≤ m.edges ∧ m.edges ≤ 127 then
    let j := (m.edges - 65) / 2
    { m with miso := if j ∈ m.xPositions then .x else triOf (m.resp.getMsbD j) }
  else m

/-- `M` at one clock inversion of tick `t`, with data-out at `mosi`. -/
def Mock.edge (m : Mock) (t : Nat) (mosi : Bool) : Mock :=
  ((m.count.takeBit mosi).readHeader.answer t).store.presentBit

/-- One tick of `M` (95_test_vectors.md section 4). -/
def Mock.tick (m : Mock) (t : Nat) (out : OutPort) : Mock :=
  let m1 :=
    if out.cs = m.csIdle then
      { m with edges := 0, frame := [], flagAt := none, reading := false, miso := .zero }
    else if out.sck ≠ m.prevSck then m.edge t out.mosi
    else m
  { m1 with
    ready := match m1.flagAt with
      | some tr => if tr ≤ t + 1 then .one else .zero
      | none => .zero
    prevSck := out.sck }

/-- The fixture `M` as a peripheral. -/
def mock : Peripheral Mock where
  drives m l := match l with
    | .miso => m.miso
    | .ready => m.ready
  tick := Mock.tick

end Sys2Proof.Machine
end

