-- ==== Sys2Proof/WellFormed.lean ====
section
/-! DEFINITION. Well-formedness: "all fields fit their declared bit widths; no other validation is performed" (R19). Of a host
call it is a check on its integers; of an `Instr` it holds by construction, because its operands have the widths of the
request ports (R58). -/

namespace Sys2Proof

/-- An address operand is an integer 0 to 63 (R62). -/
def addressFits (address : Nat) : Bool := address < 64

/-- A data operand is a 32-bit unsigned integer (R62). -/
def dataFits (data : Nat) : Bool := data < 2 ^ 32

/-- A width operand is a 2-bit code (R62). -/
def widthFits (width : Nat) : Bool := width < 4

/-- Every integer of the call fits its field (R19, R58). -/
def Call.wellFormed : Call → Bool
  | .write a d w => addressFits a && dataFits d && widthFits w
  | .read a w => addressFits a && widthFits w

/-- Every field of the operation fits its declared width (R19). -/
def Instr.wellFormed (i : Instr) : Bool := i.toCall.wellFormed

end Sys2Proof
end

