-- ==== Sys2Proof/Safety.lean ====
section
/-! DEFINITION. The terms claims use: the invariant of the engine, the transitions of its phases (R99), the durations (R143) and the
waveforms (R81, R91). Nothing of the machine depends on this file. -/

namespace Sys2Proof

/-- WRITE, accept to `done`: `2S + (128 + E)H` (R81, R143). -/
def Config.writeTicks (c : Config) : Nat := 2 * c.tCsSettle + (128 + c.extraEdges) * c.tHalf

/-- `T0 = S + 64H`, the offset of the first poll (R84). -/
def Config.firstPoll (c : Config) : Nat := c.tCsSettle + 64 * c.tHalf

/-- READ whose poll `k` succeeds, accept to `done`: `2S + (128 + E)H + (k - 1) + R` (R91, R143). -/
def Config.readTicks (c : Config) (k : Nat) : Nat := c.writeTicks + (k - 1) + c.tReadySettle

/-- `T1`, the offset of the first response edge when poll `k` succeeds (R86). -/
def Config.firstEdge (c : Config) (k : Nat) : Nat := c.firstPoll + (k - 1) + c.tReadySettle

/-- The offset of response sample `j` when poll `k` succeeds: `T1 + 2H(j+1)` under AfterPair, `T1 + 2Hj + H` under
BetweenEdges (R88). -/
def Config.sampleOffset (c : Config) (k j : Nat) : Nat :=
  match c.rxSample with
  | .afterPair => c.firstEdge k + 2 * c.tHalf * (j + 1)
  | .betweenEdges => c.firstEdge k + 2 * c.tHalf * j + c.tHalf

/-- The longest a transaction can take from its acceptance to its end: that of a READ whose last poll succeeds, or, if no poll is
allowed, that of a WRITE (R131). -/
def Config.longest (c : Config) : Nat := c.writeTicks + (c.pollMax - 1) + c.tReadySettle

end Sys2Proof

namespace Sys2Proof.Machine
open Sys2Proof

/-- The level last written to chip-select, once a micro-operation has executed. -/
def csAfter (level : Option Bool) : MicroOp → Option Bool
  | .setOut .cs v => some v
  | _ => level

/-- The last level a micro-operation sequence writes to chip-select, if it writes one. -/
def csLevel (ops : MicroSeq) : Option Bool := ops.foldl (fun level o => csAfter level o.2) none

/-- What holds of the engine between ticks. -/
structure State.Inv (s : State) : Prop where
  /-- The parameters are in their domains (R9, R10). -/
  admissible : s.cfg.Admissible
  /-- The output port is a vector of `W_OUT` bits (R16). -/
  otherLength : s.port.other.length = s.cfg.wOut
  /-- `POLLCNT` is "never above `POLL_MAX`" (R24). -/
  pollBound : s.pollcnt ≤ s.cfg.pollMax
  /-- `FAULT` is set exactly in the phase `Fault` (R113, R114). -/
  faultPhaseIff : s.fault = true ↔ s.phase = .fault
  /-- `FAULT_CODE` (R25, R109). -/
  faultCodes : if s.fault then s.faultCode = 1 ∨ s.faultCode = 2 else s.faultCode = 0
  /-- A failure can occur only in `AwaitReady` or `Response` (R107, R109). -/
  faultedIn : s.fault = true → s.faultPhase = .awaitReady ∨ s.faultPhase = .response
  /-- No wait is pending outside a transaction (R23, R113). -/
  restWait : s.busy = false → s.waitcnt = 0
  /-- The cursor is inside the sequence of the latched descriptor, behind a micro-operation of the present phase (R22, R98). -/
  cursor : s.busy = true → 0 < s.pos ∧ s.pos < s.seq.length ∧ (s.seq[s.pos - 1]?).map Prod.fst = some s.phase
  /-- Chip-select has the level the sequence last wrote; it is idle in `Idle` (R76, R79) and active in `Fault` (R113). -/
  chipSelect : match s.phase with
    | .idle => s.port.cs = s.cfg.csIdle
    | .fault => s.port.cs = s.cfg.csActive
    | _ => csLevel (s.seq.take s.pos) = some s.port.cs

/-- The micro-operations of the transaction in flight that the cursor has left behind (R22; the numbering of `POS` is log entry 16). -/
def State.executed (s : State) : MicroSeq := s.seq.take s.pos

/-- The row of R99's table by which one micro-operation takes the engine from `s` to `t` with a change of phase, with the row's
condition: what has been executed, every wait of it over (`s` executes only with `WAITCNT = 0`), and what the input port shows. `Idle`
to `Preamble` is no micro-operation but the acceptance of a request, and nothing executes in `Fault`. -/
def State.Transition (s t : State) : Prop :=
  let c := s.cfg
  let cmdSent := tagged .preamble (openFrame c ++ csAssert c ++ sendBit c (cmdBit c s.dir))
  let widthSent := cmdSent ++ tagged .width (sendField c s.width)
  match s.phase, t.phase with
  | .preamble, .width => s.executed = cmdSent
  | .width, .padding => s.executed = widthSent
  | .padding, .address => s.executed = widthSent ++ tagged .padding (sendField c (0#23))
  | .address, .data => s.dir = .write ∧ s.executed = txCmd c .write s.width s.addr
  | .address, .awaitReady => s.dir = .read ∧ s.executed = txCmd c .read s.width s.addr
  | .data, .teardown => s.executed = txCmd c .write s.width s.addr ++ txData c s.wdata
  | .awaitReady, .response =>
    s.executed = txCmd c .read s.width s.addr ++ tagged .awaitReady (pollReady ++ readySettle c)
  | .awaitReady, .fault => s.seq[s.pos]? = some (.awaitReady, .poll) ∧
    (s.pollcnt = c.pollMax ∧ t.faultCode = 1 ∨
      s.pollcnt < c.pollMax ∧ s.input .ready = .x ∧ c.xmode = .strict ∧ t.faultCode = 2)
  | .response, .teardown => s.executed = txCmd c .read s.width s.addr ++ rxResponse c
  | .response, .fault => s.seq[s.pos]? = some (.response, .sampleMiso) ∧ s.input .miso = .x ∧ c.xmode = .strict ∧ t.faultCode = 2
  | .teardown, .idle => s.seq[s.pos]? = some (.teardown, .complete) ∧ t.done = true
  | _, _ => False

/-- A transaction for `i` begins at the tick about to run: the engine is ready, the host presents `i`, and no reset event occurs
at the next `n` ticks. -/
def State.Begins (s : State) (i : Instr) (n : Nat) : Prop :=
  s.Inv ∧ s.ready = true ∧ s.presented = some i ∧ s.NoReset n

/-- The `i`-th sample of the ready flag, from 0 on, of a READ accepted at the tick about to run (R84). -/
def State.pollAhead (s : State) (i : Nat) : Tri := s.inputAhead (s.cfg.firstPoll + i) .ready

/-- The `j`-th sample of data-in of that READ when its poll `k` succeeds (R88). -/
def State.dataAhead (s : State) (k j : Nat) : Tri := s.inputAhead (s.cfg.sampleOffset k j) .miso

/-- Poll `k`, counted from 1, is the first that reads 1, and it is within the bound (R84). -/
def State.PollSucceedsAt (s : State) (k : Nat) : Prop :=
  1 ≤ k ∧ k ≤ s.cfg.pollMax ∧ s.pollAhead (k - 1) = .one ∧ ∀ i, i < k - 1 → s.pollAhead i ≠ .one

/-- Under Strict none of the first `k` polls and of the 32 data samples reads X (R111). -/
def State.SamplesClean (s : State) (k : Nat) : Prop :=
  s.cfg.xmode = .strict → (∀ i, i < k → s.pollAhead i ≠ .x) ∧ ∀ j, j < 32 → s.dataAhead k j ≠ .x

/-- The 32 data samples, made binary (R88). -/
def State.dataBits (s : State) (k : Nat) : List Bool := (List.range 32).map fun j => norm (s.dataAhead k j)

/-- How many samples of that READ read X (R83). -/
def State.xSamples (s : State) (k : Nat) : Nat :=
  ((List.range k).map fun i => xCount (s.pollAhead i)).sum + ((List.range 32).map fun j => xCount (s.dataAhead k j)).sum

/-- A port triple (CS, SCK, MOSI). -/
abbrev Triple := Bool × Bool × Bool

/-- One bit period on the wire: `H` ticks with the clock at `~L0`, then `H` ticks at `L0` (R74). -/
def bitWave (c : Config) (l0 b : Bool) : List Triple :=
  List.replicate c.tHalf (c.csActive, !l0, b) ++ List.replicate c.tHalf (c.csActive, l0, b)

/-- The extra toggle on the wire (R78). -/
def extraWave (c : Config) (l0 b : Bool) : List Triple :=
  (List.range c.extraEdges).flatMap fun i => List.replicate c.tHalf (c.csActive, if i % 2 = 0 then !l0 else l0, b)

/-- The clock level a transaction that started at `l0` leaves: `~L0` when `EXTRA_EDGES` is odd (R78). -/
def restLevel (c : Config) (l0 : Bool) : Bool := if c.extraEdges % 2 = 1 then !l0 else l0

/-- The end of a transaction on the wire: extra toggle, then chip-select idle for the settle delay (R78, R79). -/
def closeWave (c : Config) (l0 b : Bool) : List Triple :=
  extraWave c l0 b ++ List.replicate c.tCsSettle (c.csIdle, restLevel c l0, b)

/-- The port at the ticks of a WRITE from accept to the tick before `done` (R81): `l0` and `m0` are the clock and data-out
before it, `f` the frame and `b` its last bit. -/
def writeWave (c : Config) (l0 m0 : Bool) (f : List Bool) (b : Bool) : List Triple :=
  List.replicate c.tCsSettle (c.csIdle, l0, m0) ++ f.flatMap (bitWave c l0) ++ closeWave c l0 b

/-- The port at the ticks of a READ whose poll `k` succeeds, from accept to the tick before `done` (R91): the read frame, the
clock at rest during polls and settle, 32 response pairs, and the end. -/
def readWave (c : Config) (k : Nat) (l0 m0 : Bool) (f : List Bool) (b : Bool) : List Triple :=
  List.replicate c.tCsSettle (c.csIdle, l0, m0) ++ f.flatMap (bitWave c l0) ++
  List.replicate (k - 1 + c.tReadySettle) (c.csActive, l0, b) ++
  (List.replicate 32 b).flatMap (bitWave c l0) ++ closeWave c l0 b

/-- The engine and the fixture `M` at rest: the engine is ready, and `M`, with a ready latency within the bound and no X, has the
engine's parameters and has seen the clock as it is; at least one poll is allowed, and one within the bound sees the flag. -/
def AtRest (c : State × Mock) : Prop :=
  c.1.Inv ∧ c.1.ready = true ∧ 1 ≤ c.1.cfg.tCsSettle ∧ 1 ≤ c.1.cfg.pollMax ∧ c.2.csIdle = c.1.cfg.csIdle ∧
  c.2.cmdRead = c.1.cfg.cmdRead ∧ c.2.prevSck = c.1.port.sck ∧ c.2.xPositions = [] ∧
  ∃ rl, c.2.latency = some rl ∧ 1 ≤ rl ∧ rl + 1 ≤ c.1.cfg.pollMax + c.1.cfg.tHalf

end Sys2Proof.Machine
end

