-- ==== Sys2Proof/Certificates/Slice0/Obligations.lean ====
section
/-! DEFINITION. The statements about the engine. Each docstring names the rule of spec/ it formalises; where a clause rests on one of the
spec's own decisions (D1 to D33 of 92_eei_decisions.md) or derivations, or on a choice of this model (notes/assumptions), it says so. -/

open Sys2Proof Sys2Proof.Machine

/-! ### The codec -/

/-- R64, whole: the 32 bits of the command word one by one, for every operand, and the rule's example. -/
def Obligations.EncodeCmdBitByBit : Prop :=
  (∀ (cfg : Config) (dir : Dir) (width : BitVec 2) (addr : BitVec 6),
    (encodeCmd cfg dir width addr).length = 32 ∧
    (encodeCmd cfg dir width addr)[0]? = some (if dir = .write then cfg.cmdWrite else cfg.cmdRead) ∧
    (encodeCmd cfg dir width addr)[1]? = some (width.getLsbD 1) ∧
    (encodeCmd cfg dir width addr)[2]? = some (width.getLsbD 0) ∧
    (∀ k, 3 ≤ k → k ≤ 25 → (encodeCmd cfg dir width addr)[k]? = some false) ∧
    (∀ i, i ≤ 5 → (encodeCmd cfg dir width addr)[26 + i]? = some (addr.getLsbD (5 - i)))) ∧
  ∀ cfg : Config, cfg.cmdRead = false →
    encodeCmd cfg .read 2 0 = [false, true, false] ++ List.replicate 29 false ∧
    encodeCmd cfg .read 2 0 = bitsMsb 0x40000000#32

/-- R65, whole: the 64 bits of the write frame, and the rule's example. -/
def Obligations.EncodeWriteBitByBit : Prop :=
  (∀ (cfg : Config) (width : BitVec 2) (addr : BitVec 6) (data : Word),
    (encodeWrite cfg width addr data).length = 64 ∧
    (encodeWrite cfg width addr data).take 32 = encodeCmd cfg .write width addr ∧
    ∀ i, i ≤ 31 → (encodeWrite cfg width addr data)[32 + i]? = some (data.getLsbD (31 - i))) ∧
  ∀ cfg : Config, cfg.cmdWrite = true → encodeWrite cfg 2 0 0x12345678 = bitsMsb 0xC000000012345678#64

/-- R66, whole: the read frame is the command word with the CMD bit of a READ and no DATA, and the rule's example. -/
def Obligations.EncodeReadOmitsData : Prop :=
  (∀ (cfg : Config) (width : BitVec 2) (addr : BitVec 6) (data : Word),
    encodeRead cfg width addr = encodeCmd cfg .read width addr ∧
    (encodeRead cfg width addr).tail = ((encodeWrite cfg width addr data).take 32).tail ∧
    (encodeRead cfg width addr).length = 32) ∧
  ∀ cfg : Config, cfg.cmdRead = false → encodeRead cfg 2 63 = bitsMsb 0x4000003F#32

/-- The round trip of the codec for every operation, every operand and every assignment of the CMD values, whatever bits follow
the frame. -/
def Obligations.DecodeOfEncode : Prop :=
  ∀ (cfg : Config), cfg.cmdWrite ≠ cfg.cmdRead → ∀ (i : Instr) (rest : List Bool), i.wellFormed = true →
    decode cfg (encode cfg i ++ rest) = .ok (i, rest) ∧
    decodeFrame cfg (encode cfg i ++ rest) = .frame i true

/-- The converse: a bit sequence that decodes begins with the frame of what it decodes to, so no two frames of one operation
and no two operations of one frame exist. -/
def Obligations.EncodeOfDecode : Prop :=
  ∀ (cfg : Config), cfg.cmdWrite ≠ cfg.cmdRead → ∀ (bits rest : List Bool) (i : Instr),
    decode cfg bits = .ok (i, rest) → bits = encode cfg i ++ rest

/-- `DecodeFrame` of any sequence of at least 64 bits: every field is read from its place, and `conforming` says that all 23 PAD
bits are 0. (`conforming` is the spec's decision D29.) -/
def Obligations.DecodeFrameReadsFields : Prop :=
  ∀ (cfg : Config) (bits : List Bool), 64 ≤ bits.length →
    ∃ i c, decodeFrame cfg bits = .frame i c ∧
      (i.dir = .write ↔ bits[0]? = some cfg.cmdWrite) ∧
      (∀ k, k < 2 → bits[1 + k]? = some (i.width.getMsbD k)) ∧
      (∀ k, k < 6 → bits[26 + k]? = some (i.address.getMsbD k)) ∧
      (∀ a d w, i = .write a d w → ∀ k, k < 32 → bits[32 + k]? = some (d.getMsbD k)) ∧
      (c = true ↔ ∀ k, 3 ≤ k → k ≤ 25 → bits[k]? = some false)

/-- A frame cut short is `Incomplete`, and only that: fewer than 32 bits, or fewer than 64 after the CMD bit of a WRITE. (The
spec's decision D29; below 32 bits log entry 15.) -/
def Obligations.DecodeFrameIncompleteIff : Prop :=
  ∀ (cfg : Config) (bits : List Bool),
    decodeFrame cfg bits = .incomplete ↔
      bits.length < 32 ∨ (bits[0]? = some cfg.cmdWrite ∧ bits.length < 64)

/-- The command word as a number, `CW = (CMD << 31) | (WIDTH << 29) | ADDR`, has the bits of the frame, and its value is the sum of
its shifted fields; the words of an operation in transmission order are its frame. -/
def Obligations.CommandWordIsTheFrame : Prop :=
  (∀ (cfg : Config) (dir : Dir) (width : BitVec 2) (addr : BitVec 6),
    bitsMsb (commandWord cfg dir width addr) = encodeCmd cfg dir width addr ∧
    (commandWord cfg dir width addr).toNat =
      (cmdBit cfg dir).toNat * 2 ^ 31 + width.toNat * 2 ^ 29 + addr.toNat) ∧
  ∀ (cfg : Config) (i : Instr), (encodeWords cfg i).flatMap bitsMsb = encode cfg i

/-- The response codec: the 32-bit result is the sum of the bits at their places, first bit most significant, and decoding an
encoded datum gives it back. -/
def Obligations.ResponseIsMsbFirst : Prop :=
  (∀ q : List Bool, q.length = 32 →
    (decodeResponse q).toNat = ((List.range 32).map fun j => (q.getD j false).toNat * 2 ^ (31 - j)).sum) ∧
  ∀ v : Word, decodeResponse (encodeResponse v) = v

/-- Frame words of 95_test_vectors.md section 2.1 decode to the calls they stand for. Two that are no conforming frames of their own
length get `DecodeFrame`'s results (the fields with `conforming = false`, and `Incomplete`), and the model's `decode` rejects them by
name: that rejection is the model's choice, log entry 15, not the spec's. (CMD values: the spec's D1, general knowledge; log
entry 11. Which half of a 64-bit table word is the command word is the model's choice, log entry 29; the spec's frames are the two words
in order of transmission.) -/
def Obligations.TableWordsDecode : Prop :=
  decodeTableWord 64 (0xC0000000 + 0x12345678 * 2 ^ 32) = some (.write 0 0x12345678 2) ∧
  decodeTableWord 64 (0xA000002A + 0xDEADBEEF * 2 ^ 32) = some (.write 0x2A 0xDEADBEEF 1) ∧
  decodeTableWord 32 0x4000003F = some (.read 63 2) ∧
  decodeTableWord 32 0x20000020 = some (.read 0x20 1) ∧
  decodeFrame Config.ref (bitsMsb 0x40000040#32) = .frame (.read 0 2) false ∧
  decodeFrame Config.ref (bitsMsb 0xC0000000#32) = .incomplete ∧
  decode Config.ref (bitsMsb 0x40000040#32) = .error .nonConforming ∧
  decode Config.ref (bitsMsb 0xC0000000#32) = .error .incomplete

/-- A host call takes the low bits of its integers, and a call whose integers fit is the call of the operation it becomes. (The
reduction is the spec's decision D23.) -/
def Obligations.CallTakesLowBits : Prop :=
  (∀ a d w, (instrOfCall (.write a d w)).toCall = .write (a % 64) (d % 2 ^ 32) (w % 4)) ∧
  (∀ a w, (instrOfCall (.read a w)).toCall = .read (a % 64) (w % 4)) ∧
  (∀ c : Call, c.wellFormed = true → (instrOfCall c).toCall = c) ∧
  ∀ i : Instr, i.wellFormed = true ∧ instrOfCall i.toCall = i ∧ instrOfRequest (requestOfInstr i) = i

/-! ### Ports, samples, cursor -/

/-- `Out[b] <- v` on the output vector: position `b` takes `v` and every other position keeps its value. (One-bit writes: the
spec's decision D13.) -/
def Obligations.SetOutChangesOneBit : Prop :=
  ∀ (cfg : Config) (p : OutPort) (l : OutLine) (v : Bool), cfg.Admissible →
    (p.set l v).vec cfg = (p.vec cfg).set (outIndex cfg l) v ∧
    (p.vec cfg).length = cfg.wOut ∧ (p.vec cfg)[outIndex cfg l]? = some (p.get l)

/-- The waits of R23. `Wait(n)` sets `WAITCNT` to `n`; the tick at which `Wait(n + 1)` executes ends with `WAITCNT = n`; a tick with
`WAITCNT = n + 1` only decrements it, whatever is presented; with `WAITCNT = 0` the micro-operation at the cursor executes at that
tick, and the tick goes on as one from where it leads (for `Complete`, with the event `done`). That a tick ends the event `done` of
the tick before is the model's choice, log entry 19; the position of the cursor is counted as in log entry 16. -/
def Obligations.WaitCountsTicks : Prop :=
  (∀ (n : Nat) (s : State), (MicroOp.exec (.wait n) s).waitcnt = n) ∧
  (∀ (s : State) (n : Nat) (p : Phase) (i : Instr), s.cfg.Admissible → s.busy = true → s.waitcnt = 0 →
    s.seq[s.pos]? = some (p, .wait (n + 1)) →
    exec i s = .next { s with phase := p, pos := s.pos + 1, waitcnt := n, done := false } ∧
    idleTick s = .next { s with phase := p, pos := s.pos + 1, waitcnt := n, done := false }) ∧
  (∀ (s : State) (n : Nat) (i : Instr), s.cfg.Admissible → s.busy = true → s.waitcnt = n + 1 →
    exec i s = .next { s with waitcnt := n, done := false } ∧
    idleTick s = .next { s with waitcnt := n, done := false }) ∧
  (∀ (s : State) (p : Phase) (op : MicroOp), s.busy = true → s.waitcnt = 0 → s.seq[s.pos]? = some (p, op) →
    s.run = (op.exec { s with phase := p }).run) ∧
  ∀ (s : State) (p : Phase) (op : MicroOp) (i : Instr), s.cfg.Admissible → s.busy = true → s.waitcnt = 0 →
    s.seq[s.pos]? = some (p, op) →
    let m := op.exec { s with phase := p }
    (op ≠ .complete → exec i s = exec i m ∧ idleTick s = idleTick m) ∧
    (op = .complete → exec i s = mapNext (fun t => { t with done := true }) (exec i m) ∧
      idleTick s = mapNext (fun t => { t with done := true }) (idleTick m))

/-- `POLLCNT` is 0 when a READ is accepted, goes up by one at each sample of the ready flag that does not raise, is left alone by every
other micro-operation but the one that starts the polling, is never above `POLL_MAX`, and a poll at the bound samples nothing and
raises. (R24; order of bound test, sample and count: R84, and the spec's decisions D10, D16.) -/
def Obligations.PollCountCountsPolls : Prop :=
  (∀ a w s, (acceptRead a w s).pollcnt = 0) ∧
  (∀ s, s.pollcnt < s.cfg.pollMax → ¬(s.input .ready = .x ∧ s.cfg.xmode = .strict) →
    (MicroOp.poll.exec s).pollcnt = s.pollcnt + 1 ∧ (MicroOp.poll.exec s).pollcnt ≤ s.cfg.pollMax) ∧
  (∀ s, s.pollcnt = s.cfg.pollMax → MicroOp.poll.exec s = s.raise .protocolTimeout) ∧
  (∀ (op : MicroOp) (s : State), op ≠ .poll → op ≠ .pollInit → (op.exec s).pollcnt = s.pollcnt) ∧
  ∀ s : State, s.Inv → ∀ t, step s = .next t → t.pollcnt ≤ t.cfg.pollMax

/-- The accumulator takes the sampled bit at position 0, and the bit shifted out of position 31 is discarded. (The sampled bit is kept
in a field of the model's own, log entry 17; the cursor moves by one, log entry 16.) -/
def Obligations.AccumulateShiftsUp : Prop :=
  ∀ s : State, (MicroOp.accumulate.exec s).rxacc.toNat = (2 * s.rxacc.toNat + s.rxbit.toNat) % 2 ^ 32 ∧
    MicroOp.accumulate.exec s = { s with rxacc := (MicroOp.accumulate.exec s).rxacc, pos := s.pos + 1 }

/-- The transitions of the phases, one micro-operation at a time: from a state of the invariant the micro-operation at the cursor stays
in its phase or makes a transition of the table of 43_transaction_api.md section 3 under that row's condition (`State.Transition`).
Of the two rows whose condition is a poll: the loop is left for `ReadySettle`, and so for `Response`, only by a poll below the bound
that reads 1; and a poll below the bound that reads other than 1, and does not raise, is followed by a wait of one tick and the same
poll again. (The contents of the phases are the spec's decision D20; what has executed is read off the cursor, log entry 16. The row
from `Idle` is in WriteAccepted and ReadAccepted, that of `Fault` in FaultIsTerminal.) -/
def Obligations.PhaseTransitions : Prop :=
  ∀ s : State, s.Inv → s.running = true →
    let t := s.microStep
    (t.phase = s.phase ∨ s.Transition t) ∧
    (t.executed = txCmd s.cfg .read s.width s.addr ++ tagged .awaitReady pollReady →
      s.seq[s.pos]? = some (.awaitReady, .poll) ∧ s.pollcnt < s.cfg.pollMax ∧ s.input .ready = .one) ∧
    (s.seq[s.pos]? = some (.awaitReady, .poll) → s.pollcnt < s.cfg.pollMax → s.input .ready ≠ .one →
      ¬(s.input .ready = .x ∧ s.cfg.xmode = .strict) →
      t.phase = .awaitReady ∧ t.running = true ∧ t.microStep.phase = .awaitReady ∧ t.microStep.waitcnt = 1 ∧
      t.microStep.pos = s.pos)

/-! ### Acceptance, completion and the frame of each operation -/

/-- WRITE at the tick of its acceptance, from every state in which the engine is ready: the whole next state. The descriptor is
latched, chip-select is idle for the settle delay; with no settle delay the first bit is already on the wire. `RXACC` and `POLLCNT`
are re-initialised (R28), to free values, that of `POLLCNT` within its bound. Nothing else changes. (Request interface and same-tick
order: the spec's decisions D7, D13, D18. The model's own: one step is one tick, log entry 13; the numbers 2 and 6 of `POS`, which R22
does not fix, log entry 16; the free values, which R94 does not give, log entry 18; that the event `done` is over, log entry 19.) -/
def Obligations.WriteAccepted : Prop :=
  ∀ (s : State) (a : BitVec 6) (d : Word) (w : BitVec 2), s.Inv → s.ready = true →
    exec (.write a d w) s = .next
      (if 0 < s.cfg.tCsSettle then
        { s with
          dir := .write, addr := a, wdata := d, width := w, phase := .preamble, pos := 2
          rxacc := (Config.freeAtAccept s.now).rxacc, pollcnt := min (Config.freeAtAccept s.now).pollcnt s.cfg.pollMax
          waitcnt := s.cfg.tCsSettle - 1, done := false, port := { s.port with cs := s.cfg.csIdle } }
      else
        { s with
          dir := .write, addr := a, wdata := d, width := w, phase := .preamble, pos := 6
          rxacc := (Config.freeAtAccept s.now).rxacc, pollcnt := min (Config.freeAtAccept s.now).pollcnt s.cfg.pollMax
          waitcnt := s.cfg.tHalf - 1, done := false
          port := { s.port with cs := s.cfg.csActive, sck := !s.port.sck, mosi := s.cfg.cmdWrite } })

/-- READ at the tick of its acceptance, as for WRITE: `RXACC` and `POLLCNT` are 0, and `WDATA` is re-initialised (R28) to a free value
(for a READ it "holds no value", R19). (The spec's decisions D7, D13, D18. The model's own: one step is one tick, log entry 13; the
numbers 2 and 6 of `POS`, which R22 does not fix, log entry 16; the free value, log entry 18; that the event `done` is over, log entry
19.) -/
def Obligations.ReadAccepted : Prop :=
  ∀ (s : State) (a : BitVec 6) (w : BitVec 2), s.Inv → s.ready = true →
    exec (.read a w) s = .next
      (if 0 < s.cfg.tCsSettle then
        { s with
          dir := .read, addr := a, width := w, wdata := (Config.freeAtAccept s.now).wdata, rxacc := 0, pollcnt := 0
          phase := .preamble, pos := 2
          waitcnt := s.cfg.tCsSettle - 1, done := false, port := { s.port with cs := s.cfg.csIdle } }
      else
        { s with
          dir := .read, addr := a, width := w, wdata := (Config.freeAtAccept s.now).wdata, rxacc := 0, pollcnt := 0
          phase := .preamble, pos := 6
          waitcnt := s.cfg.tHalf - 1, done := false
          port := { s.port with cs := s.cfg.csActive, sck := !s.port.sck, mosi := s.cfg.cmdRead } })

/-- A request presented when the engine is not ready at the point of acceptance changes nothing: the tick is the tick without it. -/
def Obligations.RequestIgnoredUnlessReady : Prop :=
  ∀ (s : State) (i : Instr), s.Inv → s.startTick.run.ready = false →
    exec i s = idleTick s ∧ ∃ t, idleTick s = .next t

/-- A request presented at the tick of `done` is accepted at that tick: the tick completes the transaction in flight and then is
the tick of acceptance. (Order within the tick: the spec's C7; `done` as a field: log entry 19.) -/
def Obligations.BackToBackAccepted : Prop :=
  ∀ (s : State) (i : Instr), s.Inv → s.busy = true → s.startTick.run.ready = true →
    ∃ t, exec i s.startTick.run = .next t ∧ exec i s = .next { t with done := true } ∧
      s.startTick.run.done = true

/-- What no operation changes: the parameters, the output bits that are not the engine's, and the inputs still to come; the
descriptor latch changes only at an acceptance, and `RDATA` only at the `done` of a READ. (The script and the tick number are the
model's own, log entries 4 and 20.) -/
def Obligations.ExecFrame : Prop :=
  ∀ (i : Instr) (s t : State), s.Inv → exec i s = .next t →
    t.cfg = s.cfg ∧ t.port.other = s.port.other ∧ t.env = s.env ∧ t.now = s.now ∧
    (s.busy = true → t.done = false → latchedInstr t = latchedInstr s) ∧
    (t.rdata ≠ s.rdata → s.dir = .read ∧ t.done = true)

/-- A tick of a WRITE in flight, or of one that is accepted, changes nothing but the wire, the cursor, the wait and the latch, and at an
acceptance `RXACC` and `POLLCNT` (R28), the latter within its bound: not `RDATA`, the sampled bit, nor any fault or normalisation record.
The form left out here is the WRITE accepted at the tick of `done` of a READ: there `RDATA` takes `RXACC` as the READ completes, and
BackToBackAccepted with WriteAccepted says what happens. (`RXACC` and `POLLCNT` at an acceptance: log entry 18; the sampled bit: log entry
17.) -/
def Obligations.WriteFrame : Prop :=
  ∀ (s t : State) (a : BitVec 6) (d : Word) (w : BitVec 2), s.Inv → s.phase ≠ .fault → (s.busy = true → s.dir = .write) →
    exec (.write a d w) s = .next t →
    (s.startTick.run.ready = false → t.rxacc = s.rxacc ∧ t.pollcnt = s.pollcnt) ∧ t.pollcnt ≤ t.cfg.pollMax ∧
    t.rdata = s.rdata ∧ t.rxbit = s.rxbit ∧
    t.fault = s.fault ∧ t.faultCode = s.faultCode ∧ t.faultPhase = s.faultPhase ∧ t.xnormCount = s.xnormCount

/-- A tick of a READ in flight, or of one that is accepted, changes `WDATA` at an acceptance only (R28), never lowers `XNORM_COUNT`, and
changes the fault record only where it raises a fault. (`WDATA` at an acceptance: log entry 18.) -/
def Obligations.ReadFrame : Prop :=
  ∀ (s t : State) (a : BitVec 6) (w : BitVec 2), s.Inv → exec (.read a w) s = .next t →
    (s.startTick.run.ready = false → t.wdata = s.wdata) ∧ s.xnormCount ≤ t.xnormCount ∧
    (t.fault = s.fault → t.faultCode = s.faultCode ∧ t.faultPhase = s.faultPhase) ∧
    (t.fault ≠ s.fault → t.phase = .fault ∧ t.fault = true)

/-- A WRITE never reads the input port: with other inputs its tick is the same. (A READ accepted at its last tick does not read
it at that tick either.) At another tick number it is the same too, but for the free values that an acceptance leaves in `WDATA`,
`RXACC` and `POLLCNT` (log entry 18). -/
def Obligations.WriteNeverReadsInput : Prop :=
  ∀ (i : Instr) (s : State) (env : List TickInput) (now : Nat), s.Inv → (s.busy = true → s.dir = .write) →
    exec i { s with env := env } = mapNext (fun t => { t with env := env }) (exec i s) ∧
    (s.startTick.run.ready = false →
      exec i { s with env := env, now := now } = mapNext (fun t => { t with env := env, now := now }) (exec i s)) ∧
    ∃ t u, exec i s = .next t ∧ exec i { s with env := env, now := now } = .next u ∧
      u = { t with env := env, now := now, wdata := u.wdata, rxacc := u.rxacc, pollcnt := u.pollcnt }

/-- In `Idle` without a request the engine holds its outputs and nothing changes but the end of the event `done` (log entry 19). -/
def Obligations.IdleHolds : Prop :=
  ∀ s : State, s.Inv → s.ready = true → idleTick s = .next { s with done := false }

/-- From every state of the invariant every operation has a next state, in which the invariant holds; so has a tick without one.
(That the loop of a tick ends is the spec's decision D13.) -/
def Obligations.ExecHasNextState : Prop :=
  ∀ s : State, s.Inv → (∀ i, ∃ t, exec i s = .next t ∧ t.Inv) ∧ ∃ t, idleTick s = .next t ∧ t.Inv

/-! ### The step and the invariant -/

/-- One step is the environment's part of the tick, then the presented operation's meaning (or a tick without one), then the
advance of time; an operation placed with `withFetchWord` is presented to an engine that is ready for it. (Log entries 4, 8,
13, 14.) -/
def Obligations.StepRunsPresented : Prop :=
  (∀ (s : State) (i : Instr), s.presented = some i → step s = mapNext State.nextTick (exec i s.environment)) ∧
  (∀ s : State, s.presented = none → step s = mapNext State.nextTick (idleTick s.environment)) ∧
  (∀ s : State, s.tickInput.reset = false → s.environment = { s with port := { s.port with other := s.driven } }) ∧
  ∀ (s : State) (nbits w : Nat) (i : Instr), decodeTableWord nbits w = some i →
    (s.withFetchWord nbits w).environment.ready = true ∧
    step (s.withFetchWord nbits w) = mapNext State.nextTick (exec i (s.withFetchWord nbits w).environment)

/-- Every step from a state of the invariant, with any request, any inputs and any reset event, has a next state, and the
invariant holds in it. -/
def Obligations.StepKeepsInvariant : Prop :=
  ∀ s : State, s.Inv → ∃ t, step s = .next t ∧ t.Inv

/-- The invariant holds after reset with any admissible parameters, in particular in the model's reset state. (Reset values: the
spec's decision D17; those it does not give, log entry 7.) -/
def Obligations.ResetMeetsInvariant : Prop :=
  (∀ cfg : Config, cfg.Admissible → (State.resetWith cfg).Inv) ∧ State.reset.Inv

/-- Chip-select is idle whenever no transaction is in flight, and active in every phase from `Width` to `Response`, in `Data`, and
in `Fault`; `Data` belongs to a WRITE, `AwaitReady` and `Response` to a READ. (Contents of the phases and fault entry: the
spec's decisions D14, D20.) -/
def Obligations.ChipSelectFramesTransaction : Prop :=
  ∀ s : State, s.Inv →
    (s.phase = .idle → s.port.cs = s.cfg.csIdle) ∧
    (s.phase ∈ [Phase.width, .padding, .address, .data, .awaitReady, .response, .fault] → s.port.cs = s.cfg.csActive) ∧
    (s.phase = .data → s.dir = .write) ∧
    (s.phase = .awaitReady ∨ s.phase = .response → s.dir = .read)

/-! ### Failures and reset -/

/-- Fault entry at the bound: a poll that is due with `POLLCNT = POLL_MAX` raises `ProtocolTimeout` without a sample, whatever the
input port shows; the whole next state. With `POLL_MAX = 0` so does the tick at which `PollReady` begins. (Frozen outputs and codes:
the spec's decisions D14, D15, D16; that the cursor and the sampled bit stay and `done` is over: log entries 16, 17, 19, 22.) -/
def Obligations.TimeoutEntry : Prop :=
  (∀ (s : State) (i : Instr), s.cfg.Admissible → s.running = true → s.seq[s.pos]? = some (.awaitReady, .poll) →
    s.pollcnt = s.cfg.pollMax →
    exec i s = .next { s with
      fault := true, faultCode := 1, faultPhase := .awaitReady, phase := .fault, waitcnt := 0, done := false }) ∧
  ∀ (s : State) (i : Instr), s.cfg.Admissible → s.running = true → s.seq[s.pos]? = some (.awaitReady, .pollInit) →
    s.cfg.pollMax = 0 →
    exec i s = .next { s with
      pollcnt := 0, pos := s.pos + 1
      fault := true, faultCode := 1, faultPhase := .awaitReady, phase := .fault, waitcnt := 0, done := false }

/-- Fault entry on an undefined sample: under Strict an X at a poll or at a data sample that is due raises `UndefinedSample` at that
tick; the whole next state. The first poll of a READ is due at the tick at which `PollReady` begins: the cursor is then on its start
(`POLLCNT <- 0`), and the poll follows at the same tick. Under Normalize the same samples raise nothing and count one each. (The
spec's decisions D14, D15, D19; that the cursor, the accumulator and the sampled bit stay and `done` is over: log entries 16, 17, 19,
22.) -/
def Obligations.UndefinedSampleEntry : Prop :=
  (∀ (s : State) (i : Instr) (p : Phase) (op : MicroOp) (l : InLine), s.Inv → s.running = true →
    s.seq[s.pos]? = some (p, op) → (op = .poll ∧ l = .ready ∧ s.pollcnt < s.cfg.pollMax ∨ op = .sampleMiso ∧ l = .miso) →
    s.input l = .x →
    (s.cfg.xmode = .strict → exec i s = .next { s with
      fault := true, faultCode := 2, faultPhase := p, phase := .fault, waitcnt := 0, done := false }) ∧
    (s.cfg.xmode = .normalize → s.microStep.fault = false ∧ s.microStep.xnormCount = s.xnormCount + 1)) ∧
  ∀ (s : State) (i : Instr), s.Inv → s.running = true → s.seq[s.pos]? = some (.awaitReady, .pollInit) →
    0 < s.cfg.pollMax → s.input .ready = .x →
    (s.cfg.xmode = .strict → exec i s = .next { s with
      pollcnt := 0, pos := s.pos + 1
      fault := true, faultCode := 2, faultPhase := .awaitReady, phase := .fault, waitcnt := 0, done := false }) ∧
    (s.cfg.xmode = .normalize → s.microStep.microStep.fault = false ∧ s.microStep.microStep.pollcnt = 1 ∧
      s.microStep.microStep.xnormCount = s.xnormCount + 1)

/-- R114, whole: in `Fault` no request is accepted, no micro-operation executes, no second fault occurs and `FAULT` stays, for any
number of ticks with any requests and inputs; a reset event leaves it. -/
def Obligations.FaultIsTerminal : Prop :=
  (∀ (s : State) (n : Nat), s.Inv → s.phase = .fault → s.NoReset n →
    ∃ t, ticks n s = .next t ∧ t.ready = false ∧
      { t with done := s.done, env := s.env, now := s.now, port := s.port } = s ∧ t.port.triple = s.port.triple) ∧
  ∀ s : State, s.Inv → s.phase = .fault → s.tickInput.reset = true → s.presented = none →
    ∃ t, step s = .next t ∧ t.ready = true ∧ t.fault = false

/-- A reset event gives every piece of state the value of the reset table, from any state with admissible parameters; the
parameters stay. What the table leaves unspecified is not stated. (Reset values: the spec's decision D17; when in the tick the
event takes effect: log entry 8.) -/
def Obligations.ResetEventResets : Prop :=
  ∀ s : State, s.cfg.Admissible → s.tickInput.reset = true → s.presented = none →
    ∃ t, step s = .next t ∧ t.cfg = s.cfg ∧
      t.port.triple = (s.cfg.csIdle, s.cfg.sckIdle, false) ∧ t.phase = .idle ∧ t.waitcnt = 0 ∧ t.pollcnt = 0 ∧
      t.fault = false ∧ t.faultCode = 0 ∧ t.xnormCount = 0 ∧ t.ready = true ∧ t.done = false

/-! ### Whole transactions -/

/-- A WRITE runs to its `done`, exactly `2S + (128 + E)H` ticks after its acceptance, whatever the input port shows and whatever is
presented meanwhile: until then the engine is busy, gives no `done` and has no fault; then data-out holds the last bit sent, the
clock has been inverted an odd number of times exactly when `EXTRA_EDGES` is 1, and no result, count or fault record has
changed; `RXACC` and `POLLCNT` are as the acceptance left them. (Timing: the spec's decisions D6 to D9, D13. What the acceptance leaves
in `RXACC` and `POLLCNT` is a free value, R28, log entry 18.) -/
def Obligations.WriteRunsToDone : Prop :=
  ∀ (s : State) (a : BitVec 6) (d : Word) (w : BitVec 2),
    s.Begins (.write a d w) (s.cfg.writeTicks + 1) → (s.inputsAhead s.cfg.writeTicks).req = none →
    (∀ n, 0 < n → n ≤ s.cfg.writeTicks → ∃ u, ticks n s = .next u ∧ u.busy = true ∧ u.done = false ∧ u.fault = false ∧
      latchedInstr u = .write a d w) ∧
    ∃ t, ticks (s.cfg.writeTicks + 1) s = .next t ∧ t.done = true ∧ t.ready = true ∧
      t.port.triple = (s.cfg.csIdle, restLevel s.cfg s.port.sck, d.getLsbD 0) ∧
      t.rxacc = (Config.freeAtAccept s.now).rxacc ∧ t.pollcnt = min (Config.freeAtAccept s.now).pollcnt s.cfg.pollMax ∧
      t.rdata = s.rdata ∧ t.xnormCount = s.xnormCount ∧ t.faultCode = s.faultCode

/-- The waveform of a WRITE: the port at every tick from acceptance to the tick before `done`. (The spec's table is derived; its
decisions D6, D7, D8, D13.) -/
def Obligations.WriteWaveform : Prop :=
  ∀ (s : State) (a : BitVec 6) (d : Word) (w : BitVec 2), s.Begins (.write a d w) s.cfg.writeTicks →
    (trace s.cfg.writeTicks s).map OutPort.triple =
      writeWave s.cfg s.port.sck s.port.mosi (encodeWrite s.cfg w a d) (d.getLsbD 0)

/-- The frame of a WRITE can be recovered from the output port alone: decoding the data-out values at the clock inversions seen
while chip-select is active gives back the descriptor that was accepted. -/
def Obligations.WriteFrameObservable : Prop :=
  ∀ (s : State) (a : BitVec 6) (d : Word) (w : BitVec 2), s.Begins (.write a d w) s.cfg.writeTicks →
    decodeFrame s.cfg (wireObserve s.cfg s.port.sck (trace s.cfg.writeTicks s)) = .frame (.write a d w) true

/-- A READ whose poll `k` is the first to read 1 runs to its `done`, exactly `2S + (128 + E)H + (k - 1) + R` ticks after its
acceptance, for either sampling point; then `RDATA` is the 32 data samples, first bit most significant and X taken as 0, `POLLCNT`
is `k`, and `XNORM_COUNT` has gone up by the number of X among the samples. Until then the engine is busy, gives no `done` and has
no fault. (Timing, polls, sampling: the spec's decisions D6 to D13, D19. `WDATA` is as the acceptance left it, a
free value, log entry 18: by R19 it holds no value for a READ.) -/
def Obligations.ReadReturnsResponse : Prop :=
  ∀ (s : State) (a : BitVec 6) (w : BitVec 2) (k : Nat),
    s.Begins (.read a w) (s.cfg.readTicks k + 1) → s.PollSucceedsAt k → s.SamplesClean k →
    (s.inputsAhead (s.cfg.readTicks k)).req = none →
    (∀ n, 0 < n → n ≤ s.cfg.readTicks k → ∃ u, ticks n s = .next u ∧ u.busy = true ∧ u.done = false ∧ u.fault = false ∧
      latchedInstr u = .read a w ∧ u.rdata = s.rdata) ∧
    ∃ t, ticks (s.cfg.readTicks k + 1) s = .next t ∧ t.done = true ∧ t.ready = true ∧
      t.rdata = decodeResponse (s.dataBits k) ∧ t.pollcnt = k ∧ t.xnormCount = s.xnormCount + s.xSamples k ∧
      t.port.triple = (s.cfg.csIdle, restLevel s.cfg s.port.sck, a.getLsbD 0) ∧
      t.wdata = (Config.freeAtAccept s.now).wdata ∧ t.faultCode = s.faultCode

/-- The waveform of a READ whose poll `k` succeeds: the port at every tick from acceptance to the tick before `done`. (The spec's
table is derived; its decisions D6 to D10, D13.) -/
def Obligations.ReadWaveform : Prop :=
  ∀ (s : State) (a : BitVec 6) (w : BitVec 2) (k : Nat),
    s.Begins (.read a w) (s.cfg.readTicks k) → s.PollSucceedsAt k → s.SamplesClean k →
    (trace (s.cfg.readTicks k) s).map OutPort.triple =
      readWave s.cfg k s.port.sck s.port.mosi (encodeRead s.cfg w a) (a.getLsbD 0)

/-- The frame of a READ can be recovered from the output port alone, as for a WRITE. -/
def Obligations.ReadFrameObservable : Prop :=
  ∀ (s : State) (a : BitVec 6) (w : BitVec 2) (k : Nat),
    s.Begins (.read a w) (s.cfg.readTicks k) → s.PollSucceedsAt k → s.SamplesClean k →
    decodeFrame s.cfg (wireObserve s.cfg s.port.sck (trace (s.cfg.readTicks k) s)) = .frame (.read a w) true

/-- A READ all of whose `POLL_MAX` polls read other than 1 (and, under Strict, none X) raises `ProtocolTimeout` at offset
`S + 64H + POLL_MAX` exactly, neither earlier nor later; the transaction is aborted without `done`, `RDATA` keeps its value and the
wire stays as the last bit left it. (Timing and fault entry: the spec's decisions D6, D7, D10, D13 to D15.) -/
def Obligations.TimeoutExactlyAtBound : Prop :=
  ∀ (s : State) (a : BitVec 6) (w : BitVec 2),
    s.Begins (.read a w) (s.cfg.firstPoll + s.cfg.pollMax + 1) →
    (∀ i, i < s.cfg.pollMax → s.pollAhead i ≠ .one) →
    (s.cfg.xmode = .strict → ∀ i, i < s.cfg.pollMax → s.pollAhead i ≠ .x) →
    (∀ n, 0 < n → n ≤ s.cfg.firstPoll + s.cfg.pollMax → ∃ u, ticks n s = .next u ∧ u.busy = true ∧ u.fault = false ∧
      u.done = false) ∧
    ∃ t, ticks (s.cfg.firstPoll + s.cfg.pollMax + 1) s = .next t ∧ t.fault = true ∧ t.faultCode = 1 ∧
      t.faultPhase = .awaitReady ∧ t.phase = .fault ∧ t.pollcnt = s.cfg.pollMax ∧ t.done = false ∧ t.rdata = s.rdata ∧
      latchedInstr t = .read a w ∧ t.port.triple = (s.cfg.csActive, s.port.sck, a.getLsbD 0)

/-- A READ under Strict whose first X is poll `q` (counted from 0), none before having read 1, raises `UndefinedSample` at the tick of
that poll, offset `S + 64H + q`, exactly: at the first poll with `POLLCNT = 0`, at the last one tick before the timeout would have been
raised. Until then the engine is busy without fault or `done`; `RDATA`, `XNORM_COUNT` and the descriptor stay, and the wire stays as
the last bit left it. (The spec's decisions D6, D7, D10, D13 to D16.) -/
def Obligations.UndefinedPollFaultsAtItsTick : Prop :=
  ∀ (s : State) (a : BitVec 6) (w : BitVec 2) (q : Nat),
    s.Begins (.read a w) (s.cfg.firstPoll + q + 1) → s.cfg.xmode = .strict → q < s.cfg.pollMax →
    (∀ i, i < q → s.pollAhead i = .zero) → s.pollAhead q = .x →
    (∀ n, 0 < n → n ≤ s.cfg.firstPoll + q → ∃ u, ticks n s = .next u ∧ u.busy = true ∧ u.fault = false ∧ u.done = false) ∧
    ∃ t, ticks (s.cfg.firstPoll + q + 1) s = .next t ∧ t.fault = true ∧ t.faultCode = 2 ∧ t.faultPhase = .awaitReady ∧
      t.phase = .fault ∧ t.waitcnt = 0 ∧ t.pollcnt = q ∧ t.rxacc = 0 ∧ t.done = false ∧ t.rdata = s.rdata ∧
      t.xnormCount = s.xnormCount ∧ latchedInstr t = .read a w ∧
      t.port.triple = (s.cfg.csActive, s.port.sck, a.getLsbD 0)

/-- A READ under Strict whose poll `k` succeeds, with no X before, and whose first X is data sample `j` raises `UndefinedSample` at the
tick of that sample, exactly, for either sampling point: `RXACC` then holds the `j` bits received so far, `RDATA` keeps its value, no
`done` is given, and the clock is at its level at that tick, at rest under AfterPair and between the edges of the pair under
BetweenEdges. (The spec's decisions D6, D7, D9 to D15.) -/
def Obligations.UndefinedDataFaultsAtItsTick : Prop :=
  ∀ (s : State) (a : BitVec 6) (w : BitVec 2) (k j : Nat),
    s.Begins (.read a w) (s.cfg.sampleOffset k j + 1) → s.cfg.xmode = .strict → s.PollSucceedsAt k →
    (∀ i, i < k → s.pollAhead i ≠ .x) → j < 32 → (∀ m, m < j → s.dataAhead k m ≠ .x) → s.dataAhead k j = .x →
    (∀ n, 0 < n → n ≤ s.cfg.sampleOffset k j → ∃ u, ticks n s = .next u ∧ u.busy = true ∧ u.fault = false ∧
      u.done = false) ∧
    ∃ t, ticks (s.cfg.sampleOffset k j + 1) s = .next t ∧ t.fault = true ∧ t.faultCode = 2 ∧ t.faultPhase = .response ∧
      t.phase = .fault ∧ t.waitcnt = 0 ∧ t.pollcnt = k ∧ t.rxacc = ofBitsMsb 32 ((s.dataBits k).take j) ∧ t.done = false ∧
      t.rdata = s.rdata ∧ t.xnormCount = s.xnormCount ∧ latchedInstr t = .read a w ∧
      t.port.triple = (s.cfg.csActive, (match s.cfg.rxSample with
        | .afterPair => s.port.sck
        | .betweenEdges => !s.port.sck), a.getLsbD 0)

/-! ### The host's duty -/

/-- A request is accepted if and only if it finds the engine ready at the point of the tick where acceptance is tested: then the
transaction has begun when the tick is over; otherwise the tick is the tick without the request. At the tick of `done` that point
finds `ready = 1`, so a request there is no breach of the host's duty. (Request interface: the spec's decision D18; a reset event at
the start of its tick: log entry 8.) -/
def Obligations.RequestTakenIffReady : Prop :=
  (∀ (s : State) (i : Instr), s.Inv → s.presented = some i →
    (s.atAccept.ready = true → ∃ t, step s = .next t ∧ t.busy = true ∧ t.phase = .preamble ∧ latchedInstr t = i ∧
      t.done = s.atAccept.done) ∧
    (s.atAccept.ready = false → step s = step s.withoutRequest)) ∧
  ∀ s : State, s.Inv → s.busy = true → s.tickInput.reset = false → s.startTick.run.done = true → s.HostDisciplined

/-- A host program is refused exactly at the first tick at which a request is presented while `ready = 0` (a request that repeats the
operation in flight among them) or a reset event occurs while `BUSY = 1`; it runs exactly if there is no such tick, and is then the run of
the machine. In a program that runs every request presented finds the engine ready and begins its transaction. `ready` is that of the point
of acceptance (R100 (b)). (The spec's decisions D17, D18; log entries 8, 9, 10.) -/
def Obligations.DisciplinedProgramRuns : Prop :=
  ∀ (n : Nat) (s : State), s.Inv →
    let kept (u : State) : Prop :=
      (u.presented.isSome = true → u.atAccept.ready = true) ∧ (u.tickInput.reset = true → u.busy = false)
    (∀ t, programRun n s = .ran t ↔ ticks n s = .next t ∧ ∀ k u, k < n → ticks k s = .next u → kept u) ∧
    (∀ b t, programRun n s = .refused b t ↔
      ∃ k, k < n ∧ ticks k s = .next t ∧ (∀ j u, j < k → ticks j s = .next u → kept u) ∧
        (b = .resetWhileBusy ∧ t.tickInput.reset = true ∧ t.busy = true ∨
          b = .requestWhileNotReady ∧ t.presented.isSome = true ∧ t.atAccept.ready = false)) ∧
    programRun n s ≠ .stopped ∧
    ∀ t, programRun n s = .ran t → ∀ k, k < n → ∃ u v, ticks k s = .next u ∧ step u = .next v ∧
      ∀ i, u.presented = some i →
        u.atAccept.ready = true ∧ v.busy = true ∧ v.phase = .preamble ∧ latchedInstr v = i

/-- In a host program that is not refused a WRITE that is accepted is done exactly `2S + (128 + E)H` ticks later: the program cannot cut
it short, and presents nothing in between, only, if it likes, at the tick of `done`. (The spec's decisions D6 to D9, D13, D17, D18;
log entries 8, 9, 10.) -/
def Obligations.DisciplinedWriteIsDone : Prop :=
  ∀ (s t : State) (a : BitVec 6) (d : Word) (w : BitVec 2), s.Inv → s.ready = true → s.presented = some (.write a d w) →
    programRun (s.cfg.writeTicks + 1) s = .ran t →
    t.done = true ∧ t.fault = false ∧
    ∀ k, 0 < k → k ≤ s.cfg.writeTicks →
      (s.inputsAhead k).reset = false ∧ (k < s.cfg.writeTicks → (s.inputsAhead k).req = none)

/-! ### The engine with a peripheral -/

/-- The echo property of the source, for the fixture `M` of 95_test_vectors.md section 4 with a ready latency within the bound and no X,
for all addresses, data and width codes and all admissible parameters with a settle delay and at least one poll: `M` conforms, in the
form of the effects (log entry 26), so a WRITE and then a READ of the same address returns the datum bit-identical, and two READs in a
row return the same value. (`M` is the spec's fixture, D27, D32, and no part of the engine, log entry 24; the host's call: log
entry 28.) -/
def Obligations.MockPeripheralEchoes : Prop :=
  ∀ (cfg : Config) (w : BitVec 2) (n : Nat), cfg.longest ≤ n →
    Conforming mock (fun c => AtRest c ∧ c.1.cfg = cfg) Mock.regs n w ∧
    Echoes mock (fun c => AtRest c ∧ c.1.cfg = cfg) n w ∧
    ∀ c, AtRest c → c.1.cfg = cfg → ∀ (a : BitVec 6) (v : Word),
      (∃ c1 c2, hostCall mock n (.write a v w) c = .returned none c1 ∧
        hostCall mock n (.read a w) c1 = .returned (some v) c2 ∧ c2.1.rdata = v ∧ c2.2.regs = memWrite c.2.regs a v) ∧
      ∃ c1 c2, hostCall mock n (.read a w) c = .returned (some (memRead c.2.regs a)) c1 ∧
        hostCall mock n (.read a w) c1 = .returned (some (memRead c.2.regs a)) c2 ∧ c2.2.regs = c.2.regs

/-- The call of a READ against any peripheral that never raises the ready flag (nor, under Strict, leaves it undefined) fails: the host
observes `fault` with the code of the timeout, after exactly `POLL_MAX` polls, at offset `S + 64H + POLL_MAX`; with fewer ticks allowed
it is still waiting. `RDATA` keeps its value. (The spec's decisions D6, D7, D10, D13 to D15; the host's call: log entry 28.) -/
def Obligations.ReadCallObservesTimeout : Prop :=
  ∀ (σ : Type) (P : Peripheral σ) (c : State × σ) (a : BitVec 6) (w : BitVec 2) (n : Nat), c.1.Inv → c.1.ready = true →
    (∀ m, P.drives m .ready ≠ .one) → (c.1.cfg.xmode = .strict → ∀ m, P.drives m .ready ≠ .x) →
    (c.1.cfg.firstPoll + c.1.cfg.pollMax ≤ n → ∃ c', hostCall P n (.read a w) c = .failed 1 c' ∧
      c'.1.now = c.1.now + c.1.cfg.firstPoll + c.1.cfg.pollMax + 1 ∧ c'.1.pollcnt = c.1.cfg.pollMax ∧
      c'.1.rdata = c.1.rdata ∧ c'.1.ready = false) ∧
    (n < c.1.cfg.firstPoll + c.1.cfg.pollMax → ∃ c', hostCall P n (.read a w) c = .waiting c' ∧ c'.1.busy = true)

/-- Every call ends, whatever the peripheral does, within the ticks of the longest transaction: a WRITE returns after exactly
`2S + (128 + E)H` ticks; a READ returns `RDATA`, with the engine ready again, or fails with one of the two failures, the undefined
sample under Strict only. (The spec's decisions D6 to D16; the host's call: log entry 28.) -/
def Obligations.EveryCallEnds : Prop :=
  ∀ (σ : Type) (P : Peripheral σ) (c : State × σ) (n : Nat), c.1.Inv → c.1.ready = true → c.1.cfg.longest ≤ n →
    (∀ a d w, ∃ c', hostCall P n (.write a d w) c = .returned none c' ∧ c'.1.ready = true ∧
      c'.1.now = c.1.now + c.1.cfg.writeTicks + 1) ∧
    ∀ a w, ∃ c', c'.1.now ≤ c.1.now + c.1.cfg.longest + 1 ∧
      (hostCall P n (.read a w) c = .returned (some c'.1.rdata) c' ∧ c'.1.ready = true ∨
        hostCall P n (.read a w) c = .failed 1 c' ∧ c'.1.phase = .fault ∨
        hostCall P n (.read a w) c = .failed 2 c' ∧ c'.1.phase = .fault ∧ c.1.cfg.xmode = .strict)
end

