-- ==== Sys2Proof/Laws/Codec.lean ====
section
/-! SUPPORT. The small lemmas of the codec: bit sequences and values (R13, R69), and the places of a frame. -/

namespace Sys2Proof

@[simp] theorem bitsMsb_length {n : Nat} (v : BitVec n) : (bitsMsb v).length = n := by simp [bitsMsb]

theorem bitsMsb_getElem? {n : Nat} (v : BitVec n) (k : Nat) :
    (bitsMsb v)[k]? = if k < n then some (v.getMsbD k) else none := by
  unfold bitsMsb
  rw [List.getElem?_map]
  split
  · rename_i h; rw [List.getElem?_range h]; rfl
  · rename_i h; rw [List.getElem?_eq_none (by simpa using h)]; rfl

@[simp] theorem bitsMsb_getElem {n : Nat} (v : BitVec n) (k : Nat) (h : k < (bitsMsb v).length) :
    (bitsMsb v)[k] = v.getMsbD k := by simp [bitsMsb]

/-- The fold of R69 puts the bits of the sequence below the bits it started with. -/
theorem foldBits_getLsbD {n : Nat} (bs : List Bool) (acc : BitVec n) (i : Nat) (hi : i < n) :
    (bs.foldl pushBit acc).getLsbD i =
      if i < bs.length then bs.getD (bs.length - 1 - i) false else acc.getLsbD (i - bs.length) := by
  induction bs generalizing acc with
  | nil => simp
  | cons b bs ih =>
    rw [List.foldl_cons, ih]
    by_cases h : i < bs.length
    · have h1 : (b :: bs).length - 1 - i = (bs.length - 1 - i) + 1 := by simp only [List.length_cons]; omega
      have h2 : i < (b :: bs).length := by simp only [List.length_cons]; omega
      rw [if_pos h, if_pos h2, h1, List.getD_cons_succ]
    · rw [if_neg h]
      by_cases h0 : i = bs.length
      · subst h0; simp [pushBit]; omega
      · have h2 : ¬ i < bs.length + 1 := by omega
        have h3 : i - bs.length = i - (bs.length + 1) + 1 := by omega
        have h4 : ¬ (i - bs.length < 1) := by omega
        have h5 : i - bs.length < n := by omega
        simp only [List.length_cons, h2, if_false, pushBit, BitVec.getLsbD_or, BitVec.getLsbD_shiftLeft, h4, h5,
          BitVec.getLsbD_setWidth, decide_true, decide_false, Bool.true_and, Bool.not_false]
        have h6 : (BitVec.ofBool b).getLsbD (i - bs.length) = false := by
          apply BitVec.getLsbD_of_ge; omega
        rw [h6]
        simp [Nat.sub_sub]

/-- The value of a sequence of its own width has the bits of the sequence, first bit most significant. -/
theorem ofBitsMsb_getMsbD {n : Nat} {bs : List Bool} (h : bs.length = n) {k : Nat} (hk : k < n) :
    (ofBitsMsb n bs).getMsbD k = bs.getD k false := by
  rw [BitVec.getMsbD, ofBitsMsb, foldBits_getLsbD _ _ _ (by omega), h]
  have h1 : n - 1 - k < n := by omega
  have h2 : n - 1 - (n - 1 - k) = k := by omega
  simp [hk, h1, h2]

@[simp] theorem ofBitsMsb_bitsMsb {n : Nat} (v : BitVec n) : ofBitsMsb n (bitsMsb v) = v := by
  apply BitVec.eq_of_getMsbD_eq
  intro k hk
  rw [ofBitsMsb_getMsbD (bitsMsb_length v) hk]
  simp [List.getD_eq_getElem?_getD, hk]

theorem bitsMsb_ofBitsMsb {n : Nat} {bs : List Bool} (h : bs.length = n) : bitsMsb (ofBitsMsb n bs) = bs := by
  apply List.ext_getElem?
  intro k
  rw [bitsMsb_getElem?]
  split
  · rename_i hk
    rw [ofBitsMsb_getMsbD h hk, List.getD_eq_getElem?_getD, List.getElem?_eq_getElem (by omega)]; rfl
  · rw [List.getElem?_eq_none (by omega)]

@[simp] theorem encodeCmd_length (cfg : Config) (dir : Dir) (w : BitVec 2) (a : BitVec 6) :
    (encodeCmd cfg dir w a).length = 32 := by simp [encodeCmd]

@[simp] theorem encodeWrite_length (cfg : Config) (w : BitVec 2) (a : BitVec 6) (d : Word) :
    (encodeWrite cfg w a d).length = 64 := by simp [encodeWrite]

@[simp] theorem encodeRead_length (cfg : Config) (w : BitVec 2) (a : BitVec 6) : (encodeRead cfg w a).length = 32 := by
  simp [encodeRead]

end Sys2Proof
end

