-- ==== Sys2Proof/Laws/State.lean ====
section
/-! SUPPORT. One lemma per field per update of the state, each true by rfl: what every named update of the state does to every
field, so that no later proof unfolds a record update. -/

namespace Sys2Proof.Machine
open Sys2Proof

@[simp] theorem State.setOut_cfg (s : State) (l : OutLine) (v : Bool) : (s.setOut l v).cfg = s.cfg := rfl
@[simp] theorem State.setOut_port (s : State) (l : OutLine) (v : Bool) : (s.setOut l v).port = s.port.set l v := rfl
@[simp] theorem State.setOut_dir (s : State) (l : OutLine) (v : Bool) : (s.setOut l v).dir = s.dir := rfl
@[simp] theorem State.setOut_width (s : State) (l : OutLine) (v : Bool) : (s.setOut l v).width = s.width := rfl
@[simp] theorem State.setOut_addr (s : State) (l : OutLine) (v : Bool) : (s.setOut l v).addr = s.addr := rfl
@[simp] theorem State.setOut_wdata (s : State) (l : OutLine) (v : Bool) : (s.setOut l v).wdata = s.wdata := rfl
@[simp] theorem State.setOut_rxacc (s : State) (l : OutLine) (v : Bool) : (s.setOut l v).rxacc = s.rxacc := rfl
@[simp] theorem State.setOut_rdata (s : State) (l : OutLine) (v : Bool) : (s.setOut l v).rdata = s.rdata := rfl
@[simp] theorem State.setOut_phase (s : State) (l : OutLine) (v : Bool) : (s.setOut l v).phase = s.phase := rfl
@[simp] theorem State.setOut_pos (s : State) (l : OutLine) (v : Bool) : (s.setOut l v).pos = s.pos := rfl
@[simp] theorem State.setOut_waitcnt (s : State) (l : OutLine) (v : Bool) : (s.setOut l v).waitcnt = s.waitcnt := rfl
@[simp] theorem State.setOut_pollcnt (s : State) (l : OutLine) (v : Bool) : (s.setOut l v).pollcnt = s.pollcnt := rfl
@[simp] theorem State.setOut_fault (s : State) (l : OutLine) (v : Bool) : (s.setOut l v).fault = s.fault := rfl
@[simp] theorem State.setOut_faultCode (s : State) (l : OutLine) (v : Bool) : (s.setOut l v).faultCode = s.faultCode := rfl
@[simp] theorem State.setOut_faultPhase (s : State) (l : OutLine) (v : Bool) : (s.setOut l v).faultPhase = s.faultPhase := rfl
@[simp] theorem State.setOut_xnormCount (s : State) (l : OutLine) (v : Bool) : (s.setOut l v).xnormCount = s.xnormCount := rfl
@[simp] theorem State.setOut_done (s : State) (l : OutLine) (v : Bool) : (s.setOut l v).done = s.done := rfl
@[simp] theorem State.setOut_rxbit (s : State) (l : OutLine) (v : Bool) : (s.setOut l v).rxbit = s.rxbit := rfl
@[simp] theorem State.setOut_env (s : State) (l : OutLine) (v : Bool) : (s.setOut l v).env = s.env := rfl
@[simp] theorem State.setOut_now (s : State) (l : OutLine) (v : Bool) : (s.setOut l v).now = s.now := rfl
@[simp] theorem State.setOut_seq (s : State) (l : OutLine) (v : Bool) : (s.setOut l v).seq = s.seq := rfl

@[simp] theorem State.sckInvert_cfg (s : State) : s.sckInvert.cfg = s.cfg := rfl
@[simp] theorem State.sckInvert_port (s : State) : s.sckInvert.port = s.port.set .sck (!s.port.sck) := rfl
@[simp] theorem State.sckInvert_dir (s : State) : s.sckInvert.dir = s.dir := rfl
@[simp] theorem State.sckInvert_width (s : State) : s.sckInvert.width = s.width := rfl
@[simp] theorem State.sckInvert_addr (s : State) : s.sckInvert.addr = s.addr := rfl
@[simp] theorem State.sckInvert_wdata (s : State) : s.sckInvert.wdata = s.wdata := rfl
@[simp] theorem State.sckInvert_rxacc (s : State) : s.sckInvert.rxacc = s.rxacc := rfl
@[simp] theorem State.sckInvert_rdata (s : State) : s.sckInvert.rdata = s.rdata := rfl
@[simp] theorem State.sckInvert_phase (s : State) : s.sckInvert.phase = s.phase := rfl
@[simp] theorem State.sckInvert_pos (s : State) : s.sckInvert.pos = s.pos := rfl
@[simp] theorem State.sckInvert_waitcnt (s : State) : s.sckInvert.waitcnt = s.waitcnt := rfl
@[simp] theorem State.sckInvert_pollcnt (s : State) : s.sckInvert.pollcnt = s.pollcnt := rfl
@[simp] theorem State.sckInvert_fault (s : State) : s.sckInvert.fault = s.fault := rfl
@[simp] theorem State.sckInvert_faultCode (s : State) : s.sckInvert.faultCode = s.faultCode := rfl
@[simp] theorem State.sckInvert_faultPhase (s : State) : s.sckInvert.faultPhase = s.faultPhase := rfl
@[simp] theorem State.sckInvert_xnormCount (s : State) : s.sckInvert.xnormCount = s.xnormCount := rfl
@[simp] theorem State.sckInvert_done (s : State) : s.sckInvert.done = s.done := rfl
@[simp] theorem State.sckInvert_rxbit (s : State) : s.sckInvert.rxbit = s.rxbit := rfl
@[simp] theorem State.sckInvert_env (s : State) : s.sckInvert.env = s.env := rfl
@[simp] theorem State.sckInvert_now (s : State) : s.sckInvert.now = s.now := rfl
@[simp] theorem State.sckInvert_seq (s : State) : s.sckInvert.seq = s.seq := rfl

@[simp] theorem State.wait_cfg (s : State) (n : Nat) : (s.wait n).cfg = s.cfg := rfl
@[simp] theorem State.wait_port (s : State) (n : Nat) : (s.wait n).port = s.port := rfl
@[simp] theorem State.wait_dir (s : State) (n : Nat) : (s.wait n).dir = s.dir := rfl
@[simp] theorem State.wait_width (s : State) (n : Nat) : (s.wait n).width = s.width := rfl
@[simp] theorem State.wait_addr (s : State) (n : Nat) : (s.wait n).addr = s.addr := rfl
@[simp] theorem State.wait_wdata (s : State) (n : Nat) : (s.wait n).wdata = s.wdata := rfl
@[simp] theorem State.wait_rxacc (s : State) (n : Nat) : (s.wait n).rxacc = s.rxacc := rfl
@[simp] theorem State.wait_rdata (s : State) (n : Nat) : (s.wait n).rdata = s.rdata := rfl
@[simp] theorem State.wait_phase (s : State) (n : Nat) : (s.wait n).phase = s.phase := rfl
@[simp] theorem State.wait_pos (s : State) (n : Nat) : (s.wait n).pos = s.pos := rfl
@[simp] theorem State.wait_waitcnt (s : State) (n : Nat) : (s.wait n).waitcnt = n := rfl
@[simp] theorem State.wait_pollcnt (s : State) (n : Nat) : (s.wait n).pollcnt = s.pollcnt := rfl
@[simp] theorem State.wait_fault (s : State) (n : Nat) : (s.wait n).fault = s.fault := rfl
@[simp] theorem State.wait_faultCode (s : State) (n : Nat) : (s.wait n).faultCode = s.faultCode := rfl
@[simp] theorem State.wait_faultPhase (s : State) (n : Nat) : (s.wait n).faultPhase = s.faultPhase := rfl
@[simp] theorem State.wait_xnormCount (s : State) (n : Nat) : (s.wait n).xnormCount = s.xnormCount := rfl
@[simp] theorem State.wait_done (s : State) (n : Nat) : (s.wait n).done = s.done := rfl
@[simp] theorem State.wait_rxbit (s : State) (n : Nat) : (s.wait n).rxbit = s.rxbit := rfl
@[simp] theorem State.wait_env (s : State) (n : Nat) : (s.wait n).env = s.env := rfl
@[simp] theorem State.wait_now (s : State) (n : Nat) : (s.wait n).now = s.now := rfl
@[simp] theorem State.wait_seq (s : State) (n : Nat) : (s.wait n).seq = s.seq := rfl

@[simp] theorem State.advance_cfg (s : State) (n : Nat) : (s.advance n).cfg = s.cfg := rfl
@[simp] theorem State.advance_port (s : State) (n : Nat) : (s.advance n).port = s.port := rfl
@[simp] theorem State.advance_dir (s : State) (n : Nat) : (s.advance n).dir = s.dir := rfl
@[simp] theorem State.advance_width (s : State) (n : Nat) : (s.advance n).width = s.width := rfl
@[simp] theorem State.advance_addr (s : State) (n : Nat) : (s.advance n).addr = s.addr := rfl
@[simp] theorem State.advance_wdata (s : State) (n : Nat) : (s.advance n).wdata = s.wdata := rfl
@[simp] theorem State.advance_rxacc (s : State) (n : Nat) : (s.advance n).rxacc = s.rxacc := rfl
@[simp] theorem State.advance_rdata (s : State) (n : Nat) : (s.advance n).rdata = s.rdata := rfl
@[simp] theorem State.advance_phase (s : State) (n : Nat) : (s.advance n).phase = s.phase := rfl
@[simp] theorem State.advance_pos (s : State) (n : Nat) : (s.advance n).pos = s.pos + n := rfl
@[simp] theorem State.advance_waitcnt (s : State) (n : Nat) : (s.advance n).waitcnt = s.waitcnt := rfl
@[simp] theorem State.advance_pollcnt (s : State) (n : Nat) : (s.advance n).pollcnt = s.pollcnt := rfl
@[simp] theorem State.advance_fault (s : State) (n : Nat) : (s.advance n).fault = s.fault := rfl
@[simp] theorem State.advance_faultCode (s : State) (n : Nat) : (s.advance n).faultCode = s.faultCode := rfl
@[simp] theorem State.advance_faultPhase (s : State) (n : Nat) : (s.advance n).faultPhase = s.faultPhase := rfl
@[simp] theorem State.advance_xnormCount (s : State) (n : Nat) : (s.advance n).xnormCount = s.xnormCount := rfl
@[simp] theorem State.advance_done (s : State) (n : Nat) : (s.advance n).done = s.done := rfl
@[simp] theorem State.advance_rxbit (s : State) (n : Nat) : (s.advance n).rxbit = s.rxbit := rfl
@[simp] theorem State.advance_env (s : State) (n : Nat) : (s.advance n).env = s.env := rfl
@[simp] theorem State.advance_now (s : State) (n : Nat) : (s.advance n).now = s.now := rfl
@[simp] theorem State.advance_seq (s : State) (n : Nat) : (s.advance n).seq = s.seq := rfl

@[simp] theorem State.pollAgain_cfg (s : State) : s.pollAgain.cfg = s.cfg := rfl
@[simp] theorem State.pollAgain_port (s : State) : s.pollAgain.port = s.port := rfl
@[simp] theorem State.pollAgain_dir (s : State) : s.pollAgain.dir = s.dir := rfl
@[simp] theorem State.pollAgain_width (s : State) : s.pollAgain.width = s.width := rfl
@[simp] theorem State.pollAgain_addr (s : State) : s.pollAgain.addr = s.addr := rfl
@[simp] theorem State.pollAgain_wdata (s : State) : s.pollAgain.wdata = s.wdata := rfl
@[simp] theorem State.pollAgain_rxacc (s : State) : s.pollAgain.rxacc = s.rxacc := rfl
@[simp] theorem State.pollAgain_rdata (s : State) : s.pollAgain.rdata = s.rdata := rfl
@[simp] theorem State.pollAgain_phase (s : State) : s.pollAgain.phase = s.phase := rfl
@[simp] theorem State.pollAgain_pos (s : State) : s.pollAgain.pos = s.pos - 1 := rfl
@[simp] theorem State.pollAgain_waitcnt (s : State) : s.pollAgain.waitcnt = 1 := rfl
@[simp] theorem State.pollAgain_pollcnt (s : State) : s.pollAgain.pollcnt = s.pollcnt := rfl
@[simp] theorem State.pollAgain_fault (s : State) : s.pollAgain.fault = s.fault := rfl
@[simp] theorem State.pollAgain_faultCode (s : State) : s.pollAgain.faultCode = s.faultCode := rfl
@[simp] theorem State.pollAgain_faultPhase (s : State) : s.pollAgain.faultPhase = s.faultPhase := rfl
@[simp] theorem State.pollAgain_xnormCount (s : State) : s.pollAgain.xnormCount = s.xnormCount := rfl
@[simp] theorem State.pollAgain_done (s : State) : s.pollAgain.done = s.done := rfl
@[simp] theorem State.pollAgain_rxbit (s : State) : s.pollAgain.rxbit = s.rxbit := rfl
@[simp] theorem State.pollAgain_env (s : State) : s.pollAgain.env = s.env := rfl
@[simp] theorem State.pollAgain_now (s : State) : s.pollAgain.now = s.now := rfl
@[simp] theorem State.pollAgain_seq (s : State) : s.pollAgain.seq = s.seq := rfl

@[simp] theorem State.raise_cfg (s : State) (k : FaultKind) : (s.raise k).cfg = s.cfg := rfl
@[simp] theorem State.raise_port (s : State) (k : FaultKind) : (s.raise k).port = s.port := rfl
@[simp] theorem State.raise_dir (s : State) (k : FaultKind) : (s.raise k).dir = s.dir := rfl
@[simp] theorem State.raise_width (s : State) (k : FaultKind) : (s.raise k).width = s.width := rfl
@[simp] theorem State.raise_addr (s : State) (k : FaultKind) : (s.raise k).addr = s.addr := rfl
@[simp] theorem State.raise_wdata (s : State) (k : FaultKind) : (s.raise k).wdata = s.wdata := rfl
@[simp] theorem State.raise_rxacc (s : State) (k : FaultKind) : (s.raise k).rxacc = s.rxacc := rfl
@[simp] theorem State.raise_rdata (s : State) (k : FaultKind) : (s.raise k).rdata = s.rdata := rfl
@[simp] theorem State.raise_phase (s : State) (k : FaultKind) : (s.raise k).phase = .fault := rfl
@[simp] theorem State.raise_pos (s : State) (k : FaultKind) : (s.raise k).pos = s.pos := rfl
@[simp] theorem State.raise_waitcnt (s : State) (k : FaultKind) : (s.raise k).waitcnt = 0 := rfl
@[simp] theorem State.raise_pollcnt (s : State) (k : FaultKind) : (s.raise k).pollcnt = s.pollcnt := rfl
@[simp] theorem State.raise_fault (s : State) (k : FaultKind) : (s.raise k).fault = true := rfl
@[simp] theorem State.raise_faultCode (s : State) (k : FaultKind) : (s.raise k).faultCode = faultCodeOf k := rfl
@[simp] theorem State.raise_faultPhase (s : State) (k : FaultKind) : (s.raise k).faultPhase = s.phase := rfl
@[simp] theorem State.raise_xnormCount (s : State) (k : FaultKind) : (s.raise k).xnormCount = s.xnormCount := rfl
@[simp] theorem State.raise_done (s : State) (k : FaultKind) : (s.raise k).done = s.done := rfl
@[simp] theorem State.raise_rxbit (s : State) (k : FaultKind) : (s.raise k).rxbit = s.rxbit := rfl
@[simp] theorem State.raise_env (s : State) (k : FaultKind) : (s.raise k).env = s.env := rfl
@[simp] theorem State.raise_now (s : State) (k : FaultKind) : (s.raise k).now = s.now := rfl
@[simp] theorem State.raise_seq (s : State) (k : FaultKind) : (s.raise k).seq = s.seq := rfl

@[simp] theorem State.accumulateBit_cfg (s : State) : s.accumulateBit.cfg = s.cfg := rfl
@[simp] theorem State.accumulateBit_port (s : State) : s.accumulateBit.port = s.port := rfl
@[simp] theorem State.accumulateBit_dir (s : State) : s.accumulateBit.dir = s.dir := rfl
@[simp] theorem State.accumulateBit_width (s : State) : s.accumulateBit.width = s.width := rfl
@[simp] theorem State.accumulateBit_addr (s : State) : s.accumulateBit.addr = s.addr := rfl
@[simp] theorem State.accumulateBit_wdata (s : State) : s.accumulateBit.wdata = s.wdata := rfl
@[simp] theorem State.accumulateBit_rxacc (s : State) : s.accumulateBit.rxacc = pushBit s.rxacc s.rxbit := rfl
@[simp] theorem State.accumulateBit_rdata (s : State) : s.accumulateBit.rdata = s.rdata := rfl
@[simp] theorem State.accumulateBit_phase (s : State) : s.accumulateBit.phase = s.phase := rfl
@[simp] theorem State.accumulateBit_pos (s : State) : s.accumulateBit.pos = s.pos := rfl
@[simp] theorem State.accumulateBit_waitcnt (s : State) : s.accumulateBit.waitcnt = s.waitcnt := rfl
@[simp] theorem State.accumulateBit_pollcnt (s : State) : s.accumulateBit.pollcnt = s.pollcnt := rfl
@[simp] theorem State.accumulateBit_fault (s : State) : s.accumulateBit.fault = s.fault := rfl
@[simp] theorem State.accumulateBit_faultCode (s : State) : s.accumulateBit.faultCode = s.faultCode := rfl
@[simp] theorem State.accumulateBit_faultPhase (s : State) : s.accumulateBit.faultPhase = s.faultPhase := rfl
@[simp] theorem State.accumulateBit_xnormCount (s : State) : s.accumulateBit.xnormCount = s.xnormCount := rfl
@[simp] theorem State.accumulateBit_done (s : State) : s.accumulateBit.done = s.done := rfl
@[simp] theorem State.accumulateBit_rxbit (s : State) : s.accumulateBit.rxbit = s.rxbit := rfl
@[simp] theorem State.accumulateBit_env (s : State) : s.accumulateBit.env = s.env := rfl
@[simp] theorem State.accumulateBit_now (s : State) : s.accumulateBit.now = s.now := rfl
@[simp] theorem State.accumulateBit_seq (s : State) : s.accumulateBit.seq = s.seq := rfl

@[simp] theorem State.completeTransaction_cfg (s : State) : s.completeTransaction.cfg = s.cfg := rfl
@[simp] theorem State.completeTransaction_port (s : State) : s.completeTransaction.port = s.port := rfl
@[simp] theorem State.completeTransaction_dir (s : State) : s.completeTransaction.dir = s.dir := rfl
@[simp] theorem State.completeTransaction_width (s : State) : s.completeTransaction.width = s.width := rfl
@[simp] theorem State.completeTransaction_addr (s : State) : s.completeTransaction.addr = s.addr := rfl
@[simp] theorem State.completeTransaction_wdata (s : State) : s.completeTransaction.wdata = s.wdata := rfl
@[simp] theorem State.completeTransaction_rxacc (s : State) : s.completeTransaction.rxacc = s.rxacc := rfl
@[simp] theorem State.completeTransaction_rdata (s : State) : s.completeTransaction.rdata = if s.dir = .read then s.rxacc else s.rdata := rfl
@[simp] theorem State.completeTransaction_phase (s : State) : s.completeTransaction.phase = .idle := rfl
@[simp] theorem State.completeTransaction_pos (s : State) : s.completeTransaction.pos = s.pos := rfl
@[simp] theorem State.completeTransaction_waitcnt (s : State) : s.completeTransaction.waitcnt = s.waitcnt := rfl
@[simp] theorem State.completeTransaction_pollcnt (s : State) : s.completeTransaction.pollcnt = s.pollcnt := rfl
@[simp] theorem State.completeTransaction_fault (s : State) : s.completeTransaction.fault = s.fault := rfl
@[simp] theorem State.completeTransaction_faultCode (s : State) : s.completeTransaction.faultCode = s.faultCode := rfl
@[simp] theorem State.completeTransaction_faultPhase (s : State) : s.completeTransaction.faultPhase = s.faultPhase := rfl
@[simp] theorem State.completeTransaction_xnormCount (s : State) : s.completeTransaction.xnormCount = s.xnormCount := rfl
@[simp] theorem State.completeTransaction_done (s : State) : s.completeTransaction.done = true := rfl
@[simp] theorem State.completeTransaction_rxbit (s : State) : s.completeTransaction.rxbit = s.rxbit := rfl
@[simp] theorem State.completeTransaction_env (s : State) : s.completeTransaction.env = s.env := rfl
@[simp] theorem State.completeTransaction_now (s : State) : s.completeTransaction.now = s.now := rfl
@[simp] theorem State.completeTransaction_seq (s : State) : s.completeTransaction.seq = s.seq := rfl

@[simp] theorem State.beginTransaction_cfg (s : State) : s.beginTransaction.cfg = s.cfg := rfl
@[simp] theorem State.beginTransaction_port (s : State) : s.beginTransaction.port = s.port := rfl
@[simp] theorem State.beginTransaction_dir (s : State) : s.beginTransaction.dir = s.dir := rfl
@[simp] theorem State.beginTransaction_width (s : State) : s.beginTransaction.width = s.width := rfl
@[simp] theorem State.beginTransaction_addr (s : State) : s.beginTransaction.addr = s.addr := rfl
@[simp] theorem State.beginTransaction_wdata (s : State) : s.beginTransaction.wdata = s.wdata := rfl
@[simp] theorem State.beginTransaction_rxacc (s : State) : s.beginTransaction.rxacc = s.rxacc := rfl
@[simp] theorem State.beginTransaction_rdata (s : State) : s.beginTransaction.rdata = s.rdata := rfl
@[simp] theorem State.beginTransaction_phase (s : State) : s.beginTransaction.phase = .preamble := rfl
@[simp] theorem State.beginTransaction_pos (s : State) : s.beginTransaction.pos = 0 := rfl
@[simp] theorem State.beginTransaction_waitcnt (s : State) : s.beginTransaction.waitcnt = 0 := rfl
@[simp] theorem State.beginTransaction_pollcnt (s : State) : s.beginTransaction.pollcnt = s.pollcnt := rfl
@[simp] theorem State.beginTransaction_fault (s : State) : s.beginTransaction.fault = s.fault := rfl
@[simp] theorem State.beginTransaction_faultCode (s : State) : s.beginTransaction.faultCode = s.faultCode := rfl
@[simp] theorem State.beginTransaction_faultPhase (s : State) : s.beginTransaction.faultPhase = s.faultPhase := rfl
@[simp] theorem State.beginTransaction_xnormCount (s : State) : s.beginTransaction.xnormCount = s.xnormCount := rfl
@[simp] theorem State.beginTransaction_done (s : State) : s.beginTransaction.done = s.done := rfl
@[simp] theorem State.beginTransaction_rxbit (s : State) : s.beginTransaction.rxbit = s.rxbit := rfl
@[simp] theorem State.beginTransaction_env (s : State) : s.beginTransaction.env = s.env := rfl
@[simp] theorem State.beginTransaction_now (s : State) : s.beginTransaction.now = s.now := rfl
@[simp] theorem State.beginTransaction_seq (s : State) : s.beginTransaction.seq = s.seq := rfl

@[simp] theorem State.countdown_cfg (s : State) : s.countdown.cfg = s.cfg := rfl
@[simp] theorem State.countdown_port (s : State) : s.countdown.port = s.port := rfl
@[simp] theorem State.countdown_dir (s : State) : s.countdown.dir = s.dir := rfl
@[simp] theorem State.countdown_width (s : State) : s.countdown.width = s.width := rfl
@[simp] theorem State.countdown_addr (s : State) : s.countdown.addr = s.addr := rfl
@[simp] theorem State.countdown_wdata (s : State) : s.countdown.wdata = s.wdata := rfl
@[simp] theorem State.countdown_rxacc (s : State) : s.countdown.rxacc = s.rxacc := rfl
@[simp] theorem State.countdown_rdata (s : State) : s.countdown.rdata = s.rdata := rfl
@[simp] theorem State.countdown_phase (s : State) : s.countdown.phase = s.phase := rfl
@[simp] theorem State.countdown_pos (s : State) : s.countdown.pos = s.pos := rfl
@[simp] theorem State.countdown_waitcnt (s : State) : s.countdown.waitcnt = s.waitcnt - 1 := rfl
@[simp] theorem State.countdown_pollcnt (s : State) : s.countdown.pollcnt = s.pollcnt := rfl
@[simp] theorem State.countdown_fault (s : State) : s.countdown.fault = s.fault := rfl
@[simp] theorem State.countdown_faultCode (s : State) : s.countdown.faultCode = s.faultCode := rfl
@[simp] theorem State.countdown_faultPhase (s : State) : s.countdown.faultPhase = s.faultPhase := rfl
@[simp] theorem State.countdown_xnormCount (s : State) : s.countdown.xnormCount = s.xnormCount := rfl
@[simp] theorem State.countdown_done (s : State) : s.countdown.done = s.done := rfl
@[simp] theorem State.countdown_rxbit (s : State) : s.countdown.rxbit = s.rxbit := rfl
@[simp] theorem State.countdown_env (s : State) : s.countdown.env = s.env := rfl
@[simp] theorem State.countdown_now (s : State) : s.countdown.now = s.now := rfl
@[simp] theorem State.countdown_seq (s : State) : s.countdown.seq = s.seq := rfl

@[simp] theorem State.startTick_cfg (s : State) : s.startTick.cfg = s.cfg := rfl
@[simp] theorem State.startTick_port (s : State) : s.startTick.port = s.port := rfl
@[simp] theorem State.startTick_dir (s : State) : s.startTick.dir = s.dir := rfl
@[simp] theorem State.startTick_width (s : State) : s.startTick.width = s.width := rfl
@[simp] theorem State.startTick_addr (s : State) : s.startTick.addr = s.addr := rfl
@[simp] theorem State.startTick_wdata (s : State) : s.startTick.wdata = s.wdata := rfl
@[simp] theorem State.startTick_rxacc (s : State) : s.startTick.rxacc = s.rxacc := rfl
@[simp] theorem State.startTick_rdata (s : State) : s.startTick.rdata = s.rdata := rfl
@[simp] theorem State.startTick_phase (s : State) : s.startTick.phase = s.phase := rfl
@[simp] theorem State.startTick_pos (s : State) : s.startTick.pos = s.pos := rfl
@[simp] theorem State.startTick_waitcnt (s : State) : s.startTick.waitcnt = s.waitcnt := rfl
@[simp] theorem State.startTick_pollcnt (s : State) : s.startTick.pollcnt = s.pollcnt := rfl
@[simp] theorem State.startTick_fault (s : State) : s.startTick.fault = s.fault := rfl
@[simp] theorem State.startTick_faultCode (s : State) : s.startTick.faultCode = s.faultCode := rfl
@[simp] theorem State.startTick_faultPhase (s : State) : s.startTick.faultPhase = s.faultPhase := rfl
@[simp] theorem State.startTick_xnormCount (s : State) : s.startTick.xnormCount = s.xnormCount := rfl
@[simp] theorem State.startTick_done (s : State) : s.startTick.done = false := rfl
@[simp] theorem State.startTick_rxbit (s : State) : s.startTick.rxbit = s.rxbit := rfl
@[simp] theorem State.startTick_env (s : State) : s.startTick.env = s.env := rfl
@[simp] theorem State.startTick_now (s : State) : s.startTick.now = s.now := rfl
@[simp] theorem State.startTick_seq (s : State) : s.startTick.seq = s.seq := rfl

@[simp] theorem State.nextTick_cfg (s : State) : s.nextTick.cfg = s.cfg := rfl
@[simp] theorem State.nextTick_port (s : State) : s.nextTick.port = s.port := rfl
@[simp] theorem State.nextTick_dir (s : State) : s.nextTick.dir = s.dir := rfl
@[simp] theorem State.nextTick_width (s : State) : s.nextTick.width = s.width := rfl
@[simp] theorem State.nextTick_addr (s : State) : s.nextTick.addr = s.addr := rfl
@[simp] theorem State.nextTick_wdata (s : State) : s.nextTick.wdata = s.wdata := rfl
@[simp] theorem State.nextTick_rxacc (s : State) : s.nextTick.rxacc = s.rxacc := rfl
@[simp] theorem State.nextTick_rdata (s : State) : s.nextTick.rdata = s.rdata := rfl
@[simp] theorem State.nextTick_phase (s : State) : s.nextTick.phase = s.phase := rfl
@[simp] theorem State.nextTick_pos (s : State) : s.nextTick.pos = s.pos := rfl
@[simp] theorem State.nextTick_waitcnt (s : State) : s.nextTick.waitcnt = s.waitcnt := rfl
@[simp] theorem State.nextTick_pollcnt (s : State) : s.nextTick.pollcnt = s.pollcnt := rfl
@[simp] theorem State.nextTick_fault (s : State) : s.nextTick.fault = s.fault := rfl
@[simp] theorem State.nextTick_faultCode (s : State) : s.nextTick.faultCode = s.faultCode := rfl
@[simp] theorem State.nextTick_faultPhase (s : State) : s.nextTick.faultPhase = s.faultPhase := rfl
@[simp] theorem State.nextTick_xnormCount (s : State) : s.nextTick.xnormCount = s.xnormCount := rfl
@[simp] theorem State.nextTick_done (s : State) : s.nextTick.done = s.done := rfl
@[simp] theorem State.nextTick_rxbit (s : State) : s.nextTick.rxbit = s.rxbit := rfl
@[simp] theorem State.nextTick_env (s : State) : s.nextTick.env = s.env.tail := rfl
@[simp] theorem State.nextTick_now (s : State) : s.nextTick.now = s.now + 1 := rfl
@[simp] theorem State.nextTick_seq (s : State) : s.nextTick.seq = s.seq := rfl

@[simp] theorem acceptWrite_cfg (a : BitVec 6) (d : Word) (w : BitVec 2) (s : State) : (acceptWrite a d w s).cfg = s.cfg := rfl
@[simp] theorem acceptWrite_port (a : BitVec 6) (d : Word) (w : BitVec 2) (s : State) : (acceptWrite a d w s).port = s.port := rfl
@[simp] theorem acceptWrite_dir (a : BitVec 6) (d : Word) (w : BitVec 2) (s : State) : (acceptWrite a d w s).dir = .write := rfl
@[simp] theorem acceptWrite_width (a : BitVec 6) (d : Word) (w : BitVec 2) (s : State) : (acceptWrite a d w s).width = w := rfl
@[simp] theorem acceptWrite_addr (a : BitVec 6) (d : Word) (w : BitVec 2) (s : State) : (acceptWrite a d w s).addr = a := rfl
@[simp] theorem acceptWrite_wdata (a : BitVec 6) (d : Word) (w : BitVec 2) (s : State) : (acceptWrite a d w s).wdata = d := rfl
@[simp] theorem acceptWrite_rxacc (a : BitVec 6) (d : Word) (w : BitVec 2) (s : State) : (acceptWrite a d w s).rxacc =
    (Config.freeAtAccept s.now).rxacc := rfl
@[simp] theorem acceptWrite_rdata (a : BitVec 6) (d : Word) (w : BitVec 2) (s : State) : (acceptWrite a d w s).rdata = s.rdata := rfl
@[simp] theorem acceptWrite_phase (a : BitVec 6) (d : Word) (w : BitVec 2) (s : State) : (acceptWrite a d w s).phase = .preamble := rfl
@[simp] theorem acceptWrite_pos (a : BitVec 6) (d : Word) (w : BitVec 2) (s : State) : (acceptWrite a d w s).pos = 0 := rfl
@[simp] theorem acceptWrite_waitcnt (a : BitVec 6) (d : Word) (w : BitVec 2) (s : State) : (acceptWrite a d w s).waitcnt = 0 := rfl
@[simp] theorem acceptWrite_pollcnt (a : BitVec 6) (d : Word) (w : BitVec 2) (s : State) : (acceptWrite a d w s).pollcnt =
    min (Config.freeAtAccept s.now).pollcnt s.cfg.pollMax := rfl
@[simp] theorem acceptWrite_fault (a : BitVec 6) (d : Word) (w : BitVec 2) (s : State) : (acceptWrite a d w s).fault = s.fault := rfl
@[simp] theorem acceptWrite_faultCode (a : BitVec 6) (d : Word) (w : BitVec 2) (s : State) : (acceptWrite a d w s).faultCode = s.faultCode := rfl
@[simp] theorem acceptWrite_faultPhase (a : BitVec 6) (d : Word) (w : BitVec 2) (s : State) : (acceptWrite a d w s).faultPhase = s.faultPhase := rfl
@[simp] theorem acceptWrite_xnormCount (a : BitVec 6) (d : Word) (w : BitVec 2) (s : State) : (acceptWrite a d w s).xnormCount = s.xnormCount := rfl
@[simp] theorem acceptWrite_done (a : BitVec 6) (d : Word) (w : BitVec 2) (s : State) : (acceptWrite a d w s).done = s.done := rfl
@[simp] theorem acceptWrite_rxbit (a : BitVec 6) (d : Word) (w : BitVec 2) (s : State) : (acceptWrite a d w s).rxbit = s.rxbit := rfl
@[simp] theorem acceptWrite_env (a : BitVec 6) (d : Word) (w : BitVec 2) (s : State) : (acceptWrite a d w s).env = s.env := rfl
@[simp] theorem acceptWrite_now (a : BitVec 6) (d : Word) (w : BitVec 2) (s : State) : (acceptWrite a d w s).now = s.now := rfl

@[simp] theorem acceptRead_cfg (a : BitVec 6) (w : BitVec 2) (s : State) : (acceptRead a w s).cfg = s.cfg := rfl
@[simp] theorem acceptRead_port (a : BitVec 6) (w : BitVec 2) (s : State) : (acceptRead a w s).port = s.port := rfl
@[simp] theorem acceptRead_dir (a : BitVec 6) (w : BitVec 2) (s : State) : (acceptRead a w s).dir = .read := rfl
@[simp] theorem acceptRead_width (a : BitVec 6) (w : BitVec 2) (s : State) : (acceptRead a w s).width = w := rfl
@[simp] theorem acceptRead_addr (a : BitVec 6) (w : BitVec 2) (s : State) : (acceptRead a w s).addr = a := rfl
@[simp] theorem acceptRead_wdata (a : BitVec 6) (w : BitVec 2) (s : State) : (acceptRead a w s).wdata =
    (Config.freeAtAccept s.now).wdata := rfl
@[simp] theorem acceptRead_rxacc (a : BitVec 6) (w : BitVec 2) (s : State) : (acceptRead a w s).rxacc = 0 := rfl
@[simp] theorem acceptRead_rdata (a : BitVec 6) (w : BitVec 2) (s : State) : (acceptRead a w s).rdata = s.rdata := rfl
@[simp] theorem acceptRead_phase (a : BitVec 6) (w : BitVec 2) (s : State) : (acceptRead a w s).phase = .preamble := rfl
@[simp] theorem acceptRead_pos (a : BitVec 6) (w : BitVec 2) (s : State) : (acceptRead a w s).pos = 0 := rfl
@[simp] theorem acceptRead_waitcnt (a : BitVec 6) (w : BitVec 2) (s : State) : (acceptRead a w s).waitcnt = 0 := rfl
@[simp] theorem acceptRead_pollcnt (a : BitVec 6) (w : BitVec 2) (s : State) : (acceptRead a w s).pollcnt = 0 := rfl
@[simp] theorem acceptRead_fault (a : BitVec 6) (w : BitVec 2) (s : State) : (acceptRead a w s).fault = s.fault := rfl
@[simp] theorem acceptRead_faultCode (a : BitVec 6) (w : BitVec 2) (s : State) : (acceptRead a w s).faultCode = s.faultCode := rfl
@[simp] theorem acceptRead_faultPhase (a : BitVec 6) (w : BitVec 2) (s : State) : (acceptRead a w s).faultPhase = s.faultPhase := rfl
@[simp] theorem acceptRead_xnormCount (a : BitVec 6) (w : BitVec 2) (s : State) : (acceptRead a w s).xnormCount = s.xnormCount := rfl
@[simp] theorem acceptRead_done (a : BitVec 6) (w : BitVec 2) (s : State) : (acceptRead a w s).done = s.done := rfl
@[simp] theorem acceptRead_rxbit (a : BitVec 6) (w : BitVec 2) (s : State) : (acceptRead a w s).rxbit = s.rxbit := rfl
@[simp] theorem acceptRead_env (a : BitVec 6) (w : BitVec 2) (s : State) : (acceptRead a w s).env = s.env := rfl
@[simp] theorem acceptRead_now (a : BitVec 6) (w : BitVec 2) (s : State) : (acceptRead a w s).now = s.now := rfl

@[simp] theorem acceptWrite_seq (a : BitVec 6) (d : Word) (w : BitVec 2) (s : State) :
    (acceptWrite a d w s).seq = writeSeq s.cfg a d w := rfl
@[simp] theorem acceptRead_seq (a : BitVec 6) (w : BitVec 2) (s : State) :
    (acceptRead a w s).seq = readSeq s.cfg a w := rfl

@[simp] theorem OutPort.set_cs_cs (p : OutPort) (v : Bool) : (p.set .cs v).cs = v := rfl
@[simp] theorem OutPort.set_cs_sck (p : OutPort) (v : Bool) : (p.set .cs v).sck = p.sck := rfl
@[simp] theorem OutPort.set_cs_mosi (p : OutPort) (v : Bool) : (p.set .cs v).mosi = p.mosi := rfl
@[simp] theorem OutPort.set_cs_other (p : OutPort) (v : Bool) : (p.set .cs v).other = p.other := rfl
@[simp] theorem OutPort.set_sck_cs (p : OutPort) (v : Bool) : (p.set .sck v).cs = p.cs := rfl
@[simp] theorem OutPort.set_sck_sck (p : OutPort) (v : Bool) : (p.set .sck v).sck = v := rfl
@[simp] theorem OutPort.set_sck_mosi (p : OutPort) (v : Bool) : (p.set .sck v).mosi = p.mosi := rfl
@[simp] theorem OutPort.set_sck_other (p : OutPort) (v : Bool) : (p.set .sck v).other = p.other := rfl
@[simp] theorem OutPort.set_mosi_cs (p : OutPort) (v : Bool) : (p.set .mosi v).cs = p.cs := rfl
@[simp] theorem OutPort.set_mosi_sck (p : OutPort) (v : Bool) : (p.set .mosi v).sck = p.sck := rfl
@[simp] theorem OutPort.set_mosi_mosi (p : OutPort) (v : Bool) : (p.set .mosi v).mosi = v := rfl
@[simp] theorem OutPort.set_mosi_other (p : OutPort) (v : Bool) : (p.set .mosi v).other = p.other := rfl
@[simp] theorem OutPort.set_other (p : OutPort) (l : OutLine) (v : Bool) : (p.set l v).other = p.other := by cases l <;> rfl

end Sys2Proof.Machine
end

