-- ==== Sys2Proof/Laws/Ops.lean ====
section
/-! SUPPORT. One lemma for each shared operation that says everything it can do: the sample (R83), the poll round (R84), the data
sample (R87), and what no micro-operation changes. -/

namespace Sys2Proof.Machine
open Sys2Proof

theorem ready_iff (s : State) : s.ready = true ↔ s.phase = .idle ∧ s.fault = false := by
  simp [State.ready]

theorem busy_iff (s : State) : s.busy = true ↔ s.phase ≠ .idle ∧ s.phase ≠ .fault := by
  simp [State.busy]

theorem running_iff (s : State) : s.running = true ↔ s.busy = true ∧ s.waitcnt = 0 := by
  simp [State.running]

theorem not_ready_of_busy {s : State} (h : s.busy = true) : s.ready = false := by
  simp only [busy_iff] at h
  simp [State.ready, h.1]

theorem not_running_of_ready {s : State} (h : s.ready = true) : s.running = false := by
  have hp := ((ready_iff s).mp h).1
  simp [State.running, State.busy, hp]

theorem not_running_of_wait {s : State} (h : 0 < s.waitcnt) : s.running = false := by
  simp [State.running, Nat.pos_iff_ne_zero.mp h]

/-- `Sample` in one equation (R83): it raises exactly on an X under Strict, and otherwise yields `Norm` of the bit and counts an X. -/
theorem sample_eq (s : State) (l : InLine) :
    s.sample l =
      if s.input l = .x ∧ s.cfg.xmode = .strict then .undefined
      else .value (norm (s.input l)) { s with xnormCount := s.xnormCount + xCount (s.input l) } := by
  unfold State.sample
  cases h : s.input l <;> simp [norm, xCount]
  cases s.cfg.xmode <;> simp

/-- One poll round in one equation (R84, R115). -/
theorem pollRound_eq (s : State) :
    s.pollRound =
      if s.pollcnt = s.cfg.pollMax then s.raise .protocolTimeout
      else if s.input .ready = .x ∧ s.cfg.xmode = .strict then s.raise .undefinedSample
      else { s with
        xnormCount := s.xnormCount + xCount (s.input .ready)
        pollcnt := s.pollcnt + 1
        pos := s.pos + if norm (s.input .ready) then 2 else 1 } := by
  unfold State.pollRound
  rw [sample_eq]
  by_cases hp : s.pollcnt = s.cfg.pollMax
  · simp [hp]
  by_cases hx : s.input .ready = .x ∧ s.cfg.xmode = .strict
  · rw [if_pos hx]; simp [hp, hx]
  · rw [if_neg hx, if_neg hp, if_neg hp, if_neg hx]
    cases norm (s.input .ready) <;> rfl

/-- The sample of data-in in one equation (R87). -/
theorem sampleData_eq (s : State) :
    s.sampleData =
      if s.input .miso = .x ∧ s.cfg.xmode = .strict then s.raise .undefinedSample
      else { s with
        xnormCount := s.xnormCount + xCount (s.input .miso)
        rxbit := norm (s.input .miso)
        pos := s.pos + 1 } := by
  unfold State.sampleData
  rw [sample_eq]
  by_cases hx : s.input .miso = .x ∧ s.cfg.xmode = .strict
  · rw [if_pos hx, if_pos hx]
  · rw [if_neg hx, if_neg hx]; rfl

/-- What no micro-operation changes: the parameters, the descriptor latch, the environment, the tick number and the output bits
that are not the engine's (R17, R27, R46). -/
structure SameContext (s t : State) : Prop where
  cfg : t.cfg = s.cfg
  dir : t.dir = s.dir
  width : t.width = s.width
  addr : t.addr = s.addr
  wdata : t.wdata = s.wdata
  env : t.env = s.env
  now : t.now = s.now
  other : t.port.other = s.port.other

theorem SameContext.refl (s : State) : SameContext s s := ⟨rfl, rfl, rfl, rfl, rfl, rfl, rfl, rfl⟩

theorem SameContext.trans {s t u : State} (h : SameContext s t) (k : SameContext t u) : SameContext s u :=
  ⟨k.cfg.trans h.cfg, k.dir.trans h.dir, k.width.trans h.width, k.addr.trans h.addr, k.wdata.trans h.wdata,
    k.env.trans h.env, k.now.trans h.now, k.other.trans h.other⟩

theorem SameContext.seq {s t : State} (h : SameContext s t) : t.seq = s.seq := by
  simp [State.seq, latchedInstr, h.cfg, h.dir, h.width, h.addr, h.wdata]

theorem SameContext.input {s t : State} (h : SameContext s t) (l : InLine) : t.input l = s.input l := by
  simp [State.input, State.tickInput, h.cfg, h.env, h.now]

theorem exec_sameContext (op : MicroOp) (s : State) : SameContext s (op.exec s) := by
  cases op <;> simp only [MicroOp.exec]
  case poll => rw [pollRound_eq]; split <;> [skip; split] <;> constructor <;> rfl
  case sampleMiso => rw [sampleData_eq]; split <;> constructor <;> rfl
  all_goals constructor <;> simp

theorem microStep_sameContext (s : State) : SameContext s s.microStep := by
  unfold State.microStep
  split
  · rename_i p op _
    exact SameContext.trans (t := { s with phase := p }) ⟨rfl, rfl, rfl, rfl, rfl, rfl, rfl, rfl⟩ (exec_sameContext op _)
  · exact .refl s

end Sys2Proof.Machine
end

