-- ==== Sys2Proof/Laws/Run.lean ====
section
/-! SUPPORT. The run loop (R100 (a)): what each of its rounds keeps, and unfolding it one micro-operation at a time. -/

namespace Sys2Proof.Machine
open Sys2Proof

/-- What every round of the run loop keeps, the loop keeps. -/
theorem runFor_keeps {P : State → Prop} (h : ∀ s, s.running = true → P s → P s.microStep) :
    ∀ (n : Nat) (s : State), P s → P (s.runFor n)
  | 0, _, hs => hs
  | n + 1, s, hs => by
    unfold State.runFor
    split
    · rename_i hr
      exact runFor_keeps h n _ (h s hr hs)
    · exact hs

theorem runFor_sameContext (n : Nat) (s : State) : SameContext s (s.runFor n) :=
  runFor_keeps (P := SameContext s) (fun t _ ht => ht.trans (microStep_sameContext t)) n s (.refl s)

theorem run_sameContext (s : State) : SameContext s s.run := runFor_sameContext _ s

/-- The loop does nothing unless the engine is running. -/
theorem runFor_of_not_running {s : State} (h : s.running = false) (n : Nat) : s.runFor n = s := by
  cases n <;> simp [State.runFor, h]

theorem run_of_not_running {s : State} (h : s.running = false) : s.run = s := runFor_of_not_running h _

/-- One round of the loop: the micro-operation at the cursor executes in its phase. -/
theorem runFor_cons {s : State} {p : Phase} {op : MicroOp} {rest : MicroSeq} (hr : s.running = true)
    (hd : s.seq.drop s.pos = (p, op) :: rest) (n : Nat) :
    s.runFor (n + 1) = (op.exec { s with phase := p }).runFor n := by
  have hg : s.seq[s.pos]? = some (p, op) := by
    have := congrArg (fun l => l[0]?) hd
    simpa using this
  simp [State.runFor, hr, State.microStep, hg]

theorem runFor_add (a b : Nat) (s : State) : s.runFor (a + b) = (s.runFor a).runFor b := by
  induction a generalizing s with
  | zero => simp [State.runFor]
  | succ a ih =>
    rw [Nat.succ_add]
    by_cases hr : s.running = true
    · simp only [State.runFor, hr, if_true]; exact ih _
    · have hr' : s.running = false := by simpa using hr
      rw [runFor_of_not_running hr', runFor_of_not_running hr', runFor_of_not_running hr']

/-- With the cursor beyond the sequence the loop has nothing to execute. -/
theorem runFor_past_end {s : State} (h : s.seq.length ≤ s.pos) (n : Nat) : s.runFor n = s := by
  have hm : s.microStep = s := by simp [State.microStep, List.getElem?_eq_none h]
  induction n with
  | zero => rfl
  | succ n ih => unfold State.runFor; rw [hm, ih]; split <;> rfl

/-- "The cursor only moves forward" (R22): a micro-operation moves it forward, or the loop ends there. -/
theorem exec_moves (op : MicroOp) (s : State) : s.pos < (op.exec s).pos ∨ (op.exec s).running = false := by
  cases op <;> simp only [MicroOp.exec]
  case poll =>
    rw [pollRound_eq]
    split
    · exact .inr (by simp [State.running, State.busy])
    · split
      · exact .inr (by simp [State.running, State.busy])
      · left; show s.pos < s.pos + _; split <;> omega
  case pollWait => exact .inr (by simp [State.running])
  case sampleMiso =>
    rw [sampleData_eq]
    split
    · exact .inr (by simp [State.running, State.busy])
    · exact .inl (Nat.lt_succ_self _)
  all_goals left; simp

/-- Rounds beyond the length of the sequence change nothing. -/
theorem runFor_stable (n : Nat) : ∀ s : State, s.seq.length - s.pos ≤ n → s.runFor (n + 1) = s.runFor n := by
  induction n with
  | zero =>
    intro s h
    rw [runFor_past_end (by omega), runFor_past_end (by omega)]
  | succ n ih =>
    intro s h
    by_cases hr : s.running = true
    swap
    · have hr' : s.running = false := by simpa using hr
      rw [runFor_of_not_running hr', runFor_of_not_running hr']
    by_cases hp : s.seq.length ≤ s.pos
    · rw [runFor_past_end hp, runFor_past_end hp]
    have hg : ∃ o, s.seq[s.pos]? = some o := ⟨_, List.getElem?_eq_getElem (by omega)⟩
    obtain ⟨⟨p, op⟩, hg⟩ := hg
    have hm : s.microStep = op.exec { s with phase := p } := by simp [State.microStep, hg]
    have hu : ∀ k, s.runFor (k + 1) = s.microStep.runFor k := fun k => by simp [State.runFor, hr]
    rw [hu, hu]
    rcases exec_moves op { s with phase := p } with hlt | hstop
    · apply ih
      have hs : s.microStep.seq = s.seq := (microStep_sameContext s).seq
      rw [hs, hm]
      have : s.pos < (op.exec { s with phase := p }).pos := hlt
      omega
    · rw [hm, runFor_of_not_running hstop, runFor_of_not_running hstop]

/-- The run loop, one micro-operation at a time (R100 (a)). -/
theorem run_cons {s : State} {p : Phase} {op : MicroOp} {rest : MicroSeq} (hr : s.running = true)
    (hd : s.seq.drop s.pos = (p, op) :: rest) : s.run = (op.exec { s with phase := p }).run := by
  have hs : (op.exec { s with phase := p }).seq = s.seq :=
    (exec_sameContext op { s with phase := p }).seq
  unfold State.run
  rw [runFor_cons hr hd, hs]
  rcases exec_moves op { s with phase := p } with hlt | hstop
  · refine (runFor_stable _ _ ?_).symm
    rw [hs]
    have : s.pos < (op.exec { s with phase := p }).pos := hlt
    omega
  · rw [runFor_of_not_running hstop, runFor_of_not_running hstop]

/-- "The loop (a) always ends" (R100): it stops unless the cursor has left the sequence. -/
theorem run_stops (s : State) : s.run.running = true → s.seq.length ≤ s.run.pos := by
  suffices h : ∀ (n : Nat) (s : State), s.seq.length - s.pos < n → (s.runFor n).running = true →
      s.seq.length ≤ (s.runFor n).pos from h _ s (by omega)
  intro n
  induction n with
  | zero => intro s h; omega
  | succ n ih =>
    intro s h
    by_cases hr : s.running = true
    swap
    · have hr' : s.running = false := by simpa using hr
      rw [runFor_of_not_running hr']; intro hc; exact absurd hc hr
    by_cases hp : s.seq.length ≤ s.pos
    · rw [runFor_past_end hp]; exact fun _ => hp
    have hg : ∃ o, s.seq[s.pos]? = some o := ⟨_, List.getElem?_eq_getElem (by omega)⟩
    obtain ⟨⟨p, op⟩, hg⟩ := hg
    have hm : s.microStep = op.exec { s with phase := p } := by simp [State.microStep, hg]
    have hu : s.runFor (n + 1) = s.microStep.runFor n := by simp [State.runFor, hr]
    have hs : s.microStep.seq = s.seq := (microStep_sameContext s).seq
    rw [hu]
    rcases exec_moves op { s with phase := p } with hlt | hstop
    · intro hc
      have := ih s.microStep (by
        rw [hs, hm]
        have : s.pos < (op.exec { s with phase := p }).pos := hlt
        omega) hc
      rwa [hs] at this
    · rw [hm, runFor_of_not_running hstop]; intro hc; rw [hstop] at hc; exact absurd hc (by simp)

end Sys2Proof.Machine
end

