-- ==== Sys2Proof/Laws/Timeline.lean ====
section
/-! SUPPORT. A calculus of ticks. `fin n m` is the state in which the run loop of the tick `n` ticks ahead ends, for an engine that
is inside a tick in state `m` and accepts nothing; `fin_op` and `fin_wait` execute one micro-operation of it, and `ticks_eq_fin`
says that these are the ticks of the machine. -/

namespace Sys2Proof.Machine
open Sys2Proof

/-- What other drivers put on the output vector `k` ticks ahead. -/
def State.drivenAt (m : State) (k : Nat) : List Bool :=
  (List.range m.cfg.wOut).map fun i => ((m.inputsAhead k).drive[i]?).getD (Config.freeOut (m.now + k) i)

/-- The engine inside a tick, `w` ticks later, with the wait over. -/
def State.elapse (m : State) (w : Nat) : State :=
  { m with
    waitcnt := m.waitcnt - w
    done := if w = 0 then m.done else false
    port := { m.port with other := if w = 0 then m.port.other else m.drivenAt w }
    env := m.env.drop w
    now := m.now + w }

@[simp] theorem elapse_zero (m : State) : m.elapse 0 = m := by simp [State.elapse]

/-- The start of the next tick inside the engine, if no reset event occurs then. -/
def State.enterNext (m : State) : State := m.run.elapse 1

/-- The end of the run loop of the tick `n` ticks ahead. -/
def fin : Nat → State → State
  | 0, m => m.run
  | n + 1, m => fin n m.enterNext

theorem fin_congr {m m' : State} (h : m.run = m'.run) (n : Nat) : fin n m = fin n m' := by
  cases n with
  | zero => exact h
  | succ n => simp [fin, State.enterNext, h]

/-- A micro-operation executes at the tick at which the cursor is on it (R100 (a)). -/
theorem fin_op {m : State} {p : Phase} {op : MicroOp} {rest : MicroSeq} (hr : m.running = true)
    (hd : m.seq.drop m.pos = (p, op) :: rest) (n : Nat) : fin n m = fin n (op.exec { m with phase := p }) :=
  fin_congr (run_cons hr hd) n

theorem elapse_elapse_one (m : State) (w : Nat) : (m.elapse 1).elapse w = m.elapse (w + 1) := by
  simp only [State.elapse, List.drop_drop]
  have h1 : ∀ k, (m.elapse 1).drivenAt k = m.drivenAt (1 + k) := by
    intro k
    simp [State.drivenAt, State.elapse, State.inputsAhead, Nat.add_assoc, Nat.add_comm k 1]
  have h2 := h1 w
  simp only [State.elapse] at h2
  rw [h2]
  rcases Nat.eq_zero_or_pos w with rfl | hw
  · simp
  · have : w ≠ 0 := by omega
    simp [this, Nat.add_comm 1 w, Nat.add_assoc, Nat.sub_sub]

/-- While a wait lasts nothing executes (R23): `i` ticks into it. -/
theorem fin_within_wait {m : State} {i : Nat} (hi : i < m.waitcnt) : fin i m = m.elapse i := by
  induction i generalizing m with
  | zero => simp [fin, run_of_not_running (not_running_of_wait hi)]
  | succ i ih =>
    have hm : m.run = m := run_of_not_running (not_running_of_wait (by omega))
    have hw : i < (m.elapse 1).waitcnt := by simp [State.elapse]; omega
    rw [fin, State.enterNext, hm, ih hw, elapse_elapse_one]

/-- After its wait the engine goes on (R23): "the next micro-operation executes at the tick when it has reached 0". -/
theorem fin_wait {m : State} (w n : Nat) (hw : w ≤ m.waitcnt) : fin (w + n) m = fin n (m.elapse w) := by
  induction w generalizing m with
  | zero => simp
  | succ w ih =>
    have hm : m.run = m := run_of_not_running (not_running_of_wait (by omega))
    have hw' : w ≤ (m.elapse 1).waitcnt := by simp [State.elapse]; omega
    rw [Nat.succ_add, fin, State.enterNext, hm, ih hw', elapse_elapse_one]

/-- The state between two ticks that the end of a tick's run loop leaves (R100 (d)). -/
def State.endTick (m : State) : State := m.countdown.nextTick

@[simp] theorem elapse_cfg (m : State) (w : Nat) : (m.elapse w).cfg = m.cfg := rfl
@[simp] theorem elapse_dir (m : State) (w : Nat) : (m.elapse w).dir = m.dir := rfl
@[simp] theorem elapse_width (m : State) (w : Nat) : (m.elapse w).width = m.width := rfl
@[simp] theorem elapse_addr (m : State) (w : Nat) : (m.elapse w).addr = m.addr := rfl
@[simp] theorem elapse_wdata (m : State) (w : Nat) : (m.elapse w).wdata = m.wdata := rfl
@[simp] theorem elapse_seq (m : State) (w : Nat) : (m.elapse w).seq = m.seq := rfl
@[simp] theorem elapse_pos (m : State) (w : Nat) : (m.elapse w).pos = m.pos := rfl
@[simp] theorem elapse_phase (m : State) (w : Nat) : (m.elapse w).phase = m.phase := rfl
@[simp] theorem elapse_busy (m : State) (w : Nat) : (m.elapse w).busy = m.busy := rfl
@[simp] theorem elapse_waitcnt (m : State) (w : Nat) : (m.elapse w).waitcnt = m.waitcnt - w := rfl
@[simp] theorem elapse_pollcnt (m : State) (w : Nat) : (m.elapse w).pollcnt = m.pollcnt := rfl
@[simp] theorem elapse_rxacc (m : State) (w : Nat) : (m.elapse w).rxacc = m.rxacc := rfl
@[simp] theorem elapse_rxbit (m : State) (w : Nat) : (m.elapse w).rxbit = m.rxbit := rfl
@[simp] theorem elapse_rdata (m : State) (w : Nat) : (m.elapse w).rdata = m.rdata := rfl
@[simp] theorem elapse_fault (m : State) (w : Nat) : (m.elapse w).fault = m.fault := rfl
@[simp] theorem elapse_faultCode (m : State) (w : Nat) : (m.elapse w).faultCode = m.faultCode := rfl
@[simp] theorem elapse_faultPhase (m : State) (w : Nat) : (m.elapse w).faultPhase = m.faultPhase := rfl
@[simp] theorem elapse_xnormCount (m : State) (w : Nat) : (m.elapse w).xnormCount = m.xnormCount := rfl
@[simp] theorem elapse_cs (m : State) (w : Nat) : (m.elapse w).port.cs = m.port.cs := rfl
@[simp] theorem elapse_sck (m : State) (w : Nat) : (m.elapse w).port.sck = m.port.sck := rfl
@[simp] theorem elapse_mosi (m : State) (w : Nat) : (m.elapse w).port.mosi = m.port.mosi := rfl
@[simp] theorem elapse_env (m : State) (w : Nat) : (m.elapse w).env = m.env.drop w := rfl
@[simp] theorem elapse_now (m : State) (w : Nat) : (m.elapse w).now = m.now + w := rfl

theorem elapse_triple (m : State) (w : Nat) : (m.elapse w).port.triple = m.port.triple := rfl

theorem elapse_done {m : State} (h : m.done = false) (w : Nat) : (m.elapse w).done = false := by
  simp [State.elapse, h]

/-- The inputs seen after `w` ticks are those that lay `w` ticks ahead. -/
theorem elapse_inputAhead (m : State) (w k : Nat) (l : InLine) :
    (m.elapse w).inputAhead k l = m.inputAhead (w + k) l := by
  simp [State.inputAhead, State.inputsAhead, State.elapse, List.getElem?_drop, Nat.add_assoc]

theorem input_eq_inputAhead (m : State) (l : InLine) : m.input l = m.inputAhead 0 l := by
  simp [State.input, State.inputAhead, State.tickInput, State.inputsAhead, List.headD_eq_head?_getD,
    List.head?_eq_getElem?]

theorem elapse_inputsAhead (m : State) (w k : Nat) : (m.elapse w).inputsAhead k = m.inputsAhead (w + k) := by
  simp [State.inputsAhead, State.elapse, List.getElem?_drop]

/-- The engine's tick when the run loop does not end in `Idle`: whatever request is presented, it changes nothing (R101). -/
theorem engineTick_of_not_ready {s : State} (hA : s.cfg.Admissible) (hs : s.startTick.run.running = false)
    (hr : s.startTick.run.ready = false) (accept : State → State) :
    engineTick accept s = .next s.startTick.run.countdown := by
  simp [engineTick, hA, State.runAccept, hr, hs]

/-- The engine's tick when it is ready and `accept` takes a request (R94, R100). -/
theorem engineTick_of_ready {s : State} (hA : s.cfg.Admissible) (hr : s.startTick.run.ready = true)
    (accept : State → State) (hs : (accept s.startTick.run).run.running = false) :
    engineTick accept s = .next (accept s.startTick.run).run.countdown := by
  simp [engineTick, hA, State.runAccept, hr, hs]

theorem exec_eq_engineTick (i : Instr) : ∃ accept, ∀ s, exec i s = engineTick accept s := by
  cases i with
  | write a d w => exact ⟨_, fun _ => rfl⟩
  | read a w => exact ⟨_, fun _ => rfl⟩

/-- The environment's part of a tick leaves the inputs of the tick as they are. -/
theorem environment_tickInput (s : State) : s.environment.tickInput = s.tickInput := by
  simp only [State.environment]
  split <;> rfl

theorem environment_presented (s : State) : s.environment.presented = s.presented := by
  simp [State.presented, environment_tickInput]

/-- Without a reset event the environment only sets the output bits that are not the engine's (R17). -/
theorem environment_of_no_reset {s : State} (h : s.tickInput.reset = false) :
    s.environment = { s with port := { s.port with other := s.driven } } := by
  simp [State.environment, h]

/-- A tick of a machine that accepts nothing at it. -/
theorem step_of_run {s m : State} (hA : s.cfg.Admissible) (hres : s.tickInput.reset = false)
    (hm : m = s.environment.startTick.run) (hs : m.running = false)
    (hr : m.ready = false ∨ s.environment.presented = none) :
    step s = .next m.endTick := by
  have he := environment_of_no_reset hres
  have hA' : s.environment.cfg.Admissible := by rw [he]; exact hA
  subst hm
  have hstep : step s = mapNext State.nextTick (match s.environment.presented with
      | some i => exec i s.environment
      | none => idleTick s.environment) := rfl
  rw [hstep]
  cases hp : s.environment.presented with
  | none =>
    by_cases hr' : s.environment.startTick.run.ready = true
    · simp only [idleTick]
      rw [engineTick_of_ready hA' hr' id (by simpa [run_of_not_running hs] using hs), id, run_of_not_running hs]
      rfl
    · simp only [idleTick]
      rw [engineTick_of_not_ready hA' hs (by simpa using hr')]
      rfl
  | some i =>
    rcases hr with hr | hr
    · obtain ⟨acc, hacc⟩ := exec_eq_engineTick i
      simp only [hacc]
      rw [engineTick_of_not_ready hA' hs hr]
      rfl
    · rw [hp] at hr; exact absurd hr (by simp)

/-- Between two ticks: the next tick starts where the calculus says it does. -/
theorem enterNext_eq {m : State} (hres : (m.inputsAhead 1).reset = false) :
    m.run.endTick.environment.startTick = m.enterNext := by
  have hc := run_sameContext m
  have hh : m.run.endTick.tickInput = m.inputsAhead 1 := by
    simp only [State.tickInput, State.endTick, State.nextTick_env, State.countdown_env, hc.env, State.inputsAhead]
    cases m.env with
    | nil => simp
    | cons a l => cases l <;> simp
  have hd : m.run.endTick.driven = m.drivenAt 1 := by
    simp only [State.driven, State.drivenAt, hh]
    simp [State.endTick, hc.cfg, hc.now]
  have hd2 : m.run.drivenAt 1 = m.drivenAt 1 := by
    simp [State.drivenAt, State.inputsAhead, hc.cfg, hc.now, hc.env]
  have he := environment_of_no_reset (s := m.run.endTick) (by rw [hh]; exact hres)
  rw [he, hd]
  simp only [State.enterNext, State.elapse, hd2, State.endTick, State.countdown, State.nextTick, State.startTick]
  simp

/-- The ticks of the machine are those of the calculus, as long as the engine stays in a transaction and no reset occurs: from a
state between two ticks that a tick's run loop in state `m` left. -/
theorem ticks_eq_fin {m : State} (n : Nat) (hA : m.cfg.Admissible)
    (hs : ∀ i, i ≤ n → (fin i m).running = false)
    (hb : ∀ i, 1 ≤ i → i ≤ n → (fin i m).ready = false ∨ (m.inputsAhead i).req = none)
    (hres : ∀ i, 1 ≤ i → i ≤ n → (m.inputsAhead i).reset = false) :
    ticks n m.run.endTick = .next (fin n m).endTick ∧
    visited n m.run.endTick = (List.range n).map fun i => (fin (i + 1) m).endTick := by
  induction n generalizing m with
  | zero => exact ⟨rfl, rfl⟩
  | succ n ih =>
    have hres1 := hres 1 (by omega) (by omega)
    have hnext := enterNext_eq hres1
    have hc := run_sameContext m
    have hin : ∀ k, m.enterNext.inputsAhead k = m.inputsAhead (1 + k) := by
      intro k
      rw [State.enterNext, elapse_inputsAhead]
      simp [State.inputsAhead, hc.env]
    have htick : m.run.endTick.tickInput = m.inputsAhead 1 := by
      simp only [State.tickInput, State.endTick, State.nextTick_env, State.countdown_env, hc.env, State.inputsAhead]
      cases m.env with
      | nil => simp
      | cons a l => cases l <;> simp
    have hpres : (m.inputsAhead 1).req = none → m.run.endTick.environment.presented = none := by
      intro h
      simp [State.presented, environment_tickInput, htick, h]
    have hstep : step m.run.endTick = .next m.enterNext.run.endTick := by
      refine step_of_run ?_ (by rw [htick]; exact hres1) (by rw [hnext]) (hs 1 (by omega)) ?_
      · simpa [State.endTick, hc.cfg] using hA
      · rcases hb 1 (by omega) (by omega) with h | h
        · exact .inl h
        · exact .inr (hpres h)
    have := ih (m := m.enterNext) (by simpa [State.enterNext, hc.cfg] using hA)
      (fun i hi => hs (i + 1) (by omega))
      (fun i h1 hi => by
        have := hb (i + 1) (by omega) (by omega)
        rwa [Nat.add_comm i 1, ← hin, Nat.add_comm 1 i] at this)
      (fun i h1 hi => by rw [hin]; exact hres (1 + i) (by omega) (by omega))
    constructor
    · simp only [ticks, hstep, this.1, fin]
    · simp only [visited, hstep, this.2]
      rw [List.range_succ_eq_map]
      simp [fin, Function.comp_def]

/-- What acceptance does for an operation (R94). -/
def acceptInstr : Instr → State → State
  | .write a d w => acceptWrite a d w
  | .read a w => acceptRead a w

theorem exec_eq_acceptInstr (i : Instr) (s : State) : exec i s = engineTick (acceptInstr i) s := by
  cases i <;> rfl

/-- The tick at which a ready engine accepts a request (R94, R100 (b)): the transaction's first micro-operations execute at it. -/
theorem step_of_accept {s : State} {i : Instr} (hA : s.cfg.Admissible) (hres : s.tickInput.reset = false)
    (hp : s.presented = some i) (hr : s.ready = true)
    (hs : (acceptInstr i s.environment.startTick).run.running = false) :
    step s = .next (acceptInstr i s.environment.startTick).run.endTick := by
  have he := environment_of_no_reset hres
  have hready : s.environment.startTick.ready = true := by rw [he]; exact hr
  have hnr := not_running_of_ready hready
  have hrun : s.environment.startTick.run = s.environment.startTick := run_of_not_running hnr
  have hA' : s.environment.cfg.Admissible := by rw [he]; exact hA
  have hstep : step s = mapNext State.nextTick (match s.environment.presented with
      | some i => exec i s.environment
      | none => idleTick s.environment) := rfl
  rw [hstep, environment_presented, hp]
  simp only [exec_eq_acceptInstr]
  rw [engineTick_of_ready hA' (by rw [hrun]; exact hready) _ (by rw [hrun]; exact hs), hrun]
  rfl

end Sys2Proof.Machine
end

