-- ==== Sys2Proof/Laws/Sequences.lean ====
section
/-! SUPPORT. The calculus of ticks on the sequences of R74 to R80: a bit, a run of bits, the opening and the closing of a frame, each
with the state it leads to and what is seen on the wire meanwhile. -/

namespace Sys2Proof.Machine
open Sys2Proof

/-- What is seen at the end of a tick's run loop: the port triple, and that the engine waits inside a transaction. -/
def seen (m : State) : Triple × Bool :=
  (m.port.triple, m.busy && decide (0 < m.waitcnt) && !m.done && !m.fault)

/-- What is seen at the next `n` ticks of the calculus. -/
def obs (n : Nat) (m : State) : List (Triple × Bool) := (List.range n).map fun i => seen (fin i m)

/-- A wire triple seen while the engine waits inside a transaction. -/
def inFlight (t : Triple) : Triple × Bool := (t, true)

theorem obs_add {m m' : State} {a : Nat} (h : ∀ k, fin (a + k) m = fin k m') (b : Nat) :
    obs (a + b) m = obs a m ++ obs b m' := by
  simp only [obs, List.range_add, List.map_append, List.map_map]
  congr 1
  exact List.map_congr_left fun i _ => by simp [h]

theorem obs_congr {m m' : State} (h : ∀ k, fin k m = fin k m') (n : Nat) : obs n m = obs n m' := by
  simp [obs, h]

/-- The engine inside a tick with the micro-operations `ops` to go, the first of them due now. -/
structure Due (m : State) (ops : MicroSeq) : Prop where
  busy : m.busy = true
  waitcnt : m.waitcnt = 0
  ops : m.seq.drop m.pos = ops
  done : m.done = false
  fault : m.fault = false

/-- The phases inside a transaction. -/
def Phase.busy (p : Phase) : Bool := p ≠ .idle && p ≠ .fault

theorem Due.running {m : State} {ops : MicroSeq} (h : Due m ops) : m.running = true := by
  simp [State.running, h.busy, h.waitcnt]

theorem drop_succ_of_drop {α : Type} {l r : List α} {n : Nat} {a : α} (h : l.drop n = a :: r) : l.drop (n + 1) = r := by
  rw [← List.drop_drop, h]; rfl

/-- A zero-time micro-operation that writes one output bit (R72). -/
theorem Due.setOut {m : State} {p : Phase} {l : OutLine} {v : Bool} {r : MicroSeq} (hp : Phase.busy p = true)
    (h : Due m ((p, .setOut l v) :: r)) :
    (∀ n, fin n m = fin n { m with phase := p, pos := m.pos + 1, port := m.port.set l v }) ∧
    Due { m with phase := p, pos := m.pos + 1, port := m.port.set l v } r :=
  ⟨fun n => fin_op h.running h.ops n, hp, h.waitcnt, drop_succ_of_drop h.ops, h.done, h.fault⟩

/-- A zero-time micro-operation that inverts the clock (R73). -/
theorem Due.sckInvert {m : State} {p : Phase} {r : MicroSeq} (hp : Phase.busy p = true)
    (h : Due m ((p, .sckInvert) :: r)) :
    (∀ n, fin n m = fin n { m with phase := p, pos := m.pos + 1, port := { m.port with sck := !m.port.sck } }) ∧
    Due { m with phase := p, pos := m.pos + 1, port := { m.port with sck := !m.port.sck } } r :=
  ⟨fun n => fin_op h.running h.ops n, hp, h.waitcnt, drop_succ_of_drop h.ops, h.done, h.fault⟩

/-- `Wait(w)` (R23): `w` ticks during which nothing changes, then the micro-operation that follows is due. -/
theorem Due.wait {m : State} {p : Phase} {w : Nat} {r : MicroSeq} (hp : Phase.busy p = true)
    (h : Due m ((p, .wait w) :: r)) :
    ∃ o, (∀ n, fin (w + n) m = fin n { m with
        phase := p, pos := m.pos + 1, port := { m.port with other := o }, env := m.env.drop w, now := m.now + w }) ∧
      Due { m with
        phase := p, pos := m.pos + 1, port := { m.port with other := o }, env := m.env.drop w, now := m.now + w } r ∧
      obs w m = List.replicate w (inFlight m.port.triple) := by
  have hop : ∀ n, fin n m = fin n { m with phase := p, pos := m.pos + 1, waitcnt := w } :=
    fun n => fin_op h.running h.ops n
  refine ⟨({ m with phase := p, pos := m.pos + 1, waitcnt := w }.elapse w).port.other, fun n => ?_, ?_, ?_⟩
  · rw [hop, fin_wait w n (Nat.le_refl w)]
    congr 1
    simp [State.elapse, h.done, h.waitcnt]
  · exact ⟨hp, h.waitcnt, drop_succ_of_drop h.ops, h.done, h.fault⟩
  · simp only [obs]
    rw [List.eq_replicate_iff]
    refine ⟨by simp, fun x hx => ?_⟩
    obtain ⟨i, hi, rfl⟩ := List.mem_map.mp hx
    have hi := List.mem_range.mp hi
    rw [hop, fin_within_wait (by simpa using hi)]
    have hb : p ≠ .idle ∧ p ≠ .fault := by simpa [Phase.busy] using hp
    simp [seen, inFlight, State.elapse, h.done, h.fault, State.busy, hb, hi, OutPort.triple]

/-- Where the engine is after `n` ticks of a transmission: phase, position and port triple. -/
def State.stage (m : State) (n : Nat) (p : Phase) (pos : Nat) (t : Triple) (o : List Bool) : State :=
  { m with
    phase := p, pos := pos, port := ⟨t.1, t.2.1, t.2.2, o⟩, env := m.env.drop n, now := m.now + n }

theorem stage_stage (m : State) (n n' : Nat) (p p' : Phase) (i i' : Nat) (t t' : Triple) (o o' : List Bool) :
    (m.stage n p i t o).stage n' p' i' t' o' = m.stage (n + n') p' i' t' o' := by
  simp [State.stage, Nat.add_assoc]

/-- One bit on the wire (R74): `2H` ticks, the clock at `~L0` and then at `L0`, data-out at the bit throughout. -/
theorem Due.sendBit {m : State} {p : Phase} {b : Bool} {r : MicroSeq} (hp : Phase.busy p = true)
    (h : Due m (tagged p (sendBit m.cfg b) ++ r)) :
    ∃ o, (∀ n, fin (2 * m.cfg.tHalf + n) m
        = fin n (m.stage (2 * m.cfg.tHalf) p (m.pos + 5) (m.port.cs, m.port.sck, b) o)) ∧
      Due (m.stage (2 * m.cfg.tHalf) p (m.pos + 5) (m.port.cs, m.port.sck, b) o) r ∧
      obs (2 * m.cfg.tHalf) m =
        (List.replicate m.cfg.tHalf (m.port.cs, !m.port.sck, b) ++
          List.replicate m.cfg.tHalf (m.port.cs, m.port.sck, b)).map inFlight := by
  simp only [tagged, Sys2Proof.Machine.sendBit, List.map_cons, List.map_nil, List.cons_append, List.nil_append] at h
  obtain ⟨f1, h⟩ := h.setOut hp
  obtain ⟨f2, h⟩ := h.sckInvert hp
  obtain ⟨o1, f3, h, w1⟩ := h.wait hp
  obtain ⟨f4, h⟩ := h.sckInvert hp
  obtain ⟨o2, f5, h, w2⟩ := h.wait hp
  simp only [OutPort.set_mosi_cs, OutPort.set_mosi_sck, OutPort.set_mosi_mosi, OutPort.set_mosi_other, Bool.not_not,
    List.drop_drop] at f2 f3 f4 f5 h w1 w2
  refine ⟨o2, fun n => ?_, ?_, ?_⟩
  · rw [f1, f2, Nat.two_mul, Nat.add_assoc, f3, f4, f5]
    simp [State.stage, Nat.add_assoc]
  · convert h using 1
    simp [State.stage, Nat.add_assoc, Nat.two_mul]
  · rw [obs_congr f1, obs_congr f2, Nat.two_mul, obs_add f3, w1, obs_congr f4, w2]
    simp [OutPort.triple]

/-- The micro-operations of a run of bits, each in its phase (R75, R98). -/
def phasedBits (cfg : Config) (pbs : List (Phase × Bool)) : MicroSeq :=
  pbs.flatMap fun pb => tagged pb.1 (sendBit cfg pb.2)

/-- The bits `bs`, each in the phase `p`. -/
def inPhase (p : Phase) (bs : List Bool) : List (Phase × Bool) := bs.map fun b => (p, b)

theorem tagged_append (p : Phase) (a b : List MicroOp) : tagged p (a ++ b) = tagged p a ++ tagged p b := by
  simp [tagged]

theorem tagged_sendBits (cfg : Config) (p : Phase) (bs : List Bool) :
    tagged p (sendBits cfg bs) = phasedBits cfg (inPhase p bs) := by
  simp [tagged, sendBits, phasedBits, inPhase, List.map_flatMap, List.flatMap_map]

theorem phasedBits_append (cfg : Config) (a b : List (Phase × Bool)) :
    phasedBits cfg (a ++ b) = phasedBits cfg a ++ phasedBits cfg b := by simp [phasedBits]

theorem phasedBits_length (cfg : Config) (pbs : List (Phase × Bool)) : (phasedBits cfg pbs).length = 5 * pbs.length := by
  simp [phasedBits, tagged, sendBit, Nat.mul_comm]

/-- A run of bits on the wire (R75): `2H` ticks a bit, in order, with no other tick between. -/
theorem Due.phasedBits {m : State} {pbs : List (Phase × Bool)} {r : MicroSeq}
    (hp : ∀ pb ∈ pbs, Phase.busy pb.1 = true) (h : Due m (phasedBits m.cfg pbs ++ r))
    (hcs : m.port.cs = m.cfg.csActive) :
    ∃ o, (∀ n, fin (2 * m.cfg.tHalf * pbs.length + n) m
        = fin n (m.stage (2 * m.cfg.tHalf * pbs.length) ((pbs.map Prod.fst).getLastD m.phase)
            (m.pos + 5 * pbs.length) (m.cfg.csActive, m.port.sck, (pbs.map Prod.snd).getLastD m.port.mosi) o)) ∧
      Due (m.stage (2 * m.cfg.tHalf * pbs.length) ((pbs.map Prod.fst).getLastD m.phase)
            (m.pos + 5 * pbs.length) (m.cfg.csActive, m.port.sck, (pbs.map Prod.snd).getLastD m.port.mosi) o) r ∧
      obs (2 * m.cfg.tHalf * pbs.length) m =
        ((pbs.map Prod.snd).flatMap (bitWave m.cfg m.port.sck)).map inFlight := by
  induction pbs generalizing m with
  | nil =>
    refine ⟨m.port.other, fun n => ?_, ?_, ?_⟩
    · simp [State.stage, ← hcs]
    · simpa [State.stage, ← hcs, Machine.phasedBits] using h
    · simp [obs]
  | cons pb pbs ih =>
    obtain ⟨p, b⟩ := pb
    have hd : Due m (tagged p (Machine.sendBit m.cfg b) ++ (Machine.phasedBits m.cfg pbs ++ r)) := by
      simpa [Machine.phasedBits] using h
    obtain ⟨o1, f1, h1, w1⟩ := hd.sendBit (hp (p, b) (by simp))
    obtain ⟨o2, f2, h2, w2⟩ := ih (fun pb hpb => hp pb (by simp [hpb])) h1 hcs
    have e : (p :: pbs.map Prod.fst).getLastD m.phase = (pbs.map Prod.fst).getLastD p := by
      cases hq : pbs.map Prod.fst <;> simp [List.getLastD]
    have e' : (b :: pbs.map Prod.snd).getLastD m.port.mosi = (pbs.map Prod.snd).getLastD b := by
      cases hq : pbs.map Prod.snd <;> simp [List.getLastD]
    have len : 2 * m.cfg.tHalf * (pbs.length + 1) = 2 * m.cfg.tHalf + 2 * m.cfg.tHalf * pbs.length := by ring
    have hst := stage_stage m (2 * m.cfg.tHalf) (2 * m.cfg.tHalf * pbs.length) p ((pbs.map Prod.fst).getLastD p)
      (m.pos + 5) (m.pos + 5 + 5 * pbs.length) (m.port.cs, m.port.sck, b)
      (m.cfg.csActive, m.port.sck, (pbs.map Prod.snd).getLastD b) o1 o2
    have hpos : m.pos + 5 + 5 * pbs.length = m.pos + 5 * (pbs.length + 1) := by ring
    refine ⟨o2, fun n => ?_, ?_, ?_⟩
    · have := f2 n
      simp only [List.map_cons, List.length_cons, e, e', len]
      rw [Nat.add_assoc, f1, ← hpos, ← hst]
      exact this
    · simp only [List.map_cons, List.length_cons, e, e', len]
      rw [← hpos, ← hst]
      exact h2
    · simp only [List.map_cons, List.length_cons, len, List.flatMap_cons, List.map_append]
      rw [obs_add f1, w1, hcs]
      have := w2
      simp only [State.stage, hcs] at this ⊢
      rw [this]
      simp [bitWave]

/-- The opening of a frame (R76, R77): chip-select idle for the settle delay, then active with no tick between. -/
theorem Due.openFrame {m : State} {r : MicroSeq} {p : Phase} (hp : Phase.busy p = true)
    (h : Due m (tagged p (openFrame m.cfg ++ csAssert m.cfg) ++ r)) :
    ∃ o, (∀ n, fin (m.cfg.tCsSettle + n) m
        = fin n (m.stage m.cfg.tCsSettle p (m.pos + 3) (m.cfg.csActive, m.port.sck, m.port.mosi) o)) ∧
      Due (m.stage m.cfg.tCsSettle p (m.pos + 3) (m.cfg.csActive, m.port.sck, m.port.mosi) o) r ∧
      obs m.cfg.tCsSettle m =
        (List.replicate m.cfg.tCsSettle (m.cfg.csIdle, m.port.sck, m.port.mosi)).map inFlight := by
  simp only [tagged, Machine.openFrame, csAssert, List.map_cons, List.map_nil, List.cons_append,
    List.nil_append] at h
  obtain ⟨f1, h⟩ := h.setOut hp
  obtain ⟨o1, f2, h, w1⟩ := h.wait hp
  obtain ⟨f3, h⟩ := h.setOut hp
  refine ⟨o1, fun n => ?_, ?_, ?_⟩
  · rw [f1, f2, f3]; rfl
  · exact h
  · rw [obs_congr f1, w1]; simp [OutPort.triple]

/-- The clock after `k` inversions from `l0`. -/
def levelAfter (l0 : Bool) (k : Nat) : Bool := if k % 2 = 1 then !l0 else l0

theorem levelAfter_succ (l0 : Bool) (k : Nat) : levelAfter (!l0) k = levelAfter l0 (k + 1) := by
  unfold levelAfter
  rcases Nat.mod_two_eq_zero_or_one k with h | h <;> simp [Nat.add_mod, h]

/-- `ExtraToggle` (R78): each of its inversions is held one half-cycle. -/
theorem Due.toggles {m : State} {r : MicroSeq} {p : Phase} (hp : Phase.busy p = true) (e : Nat)
    (h : Due m (tagged p (List.replicate e [MicroOp.sckInvert, MicroOp.wait m.cfg.tHalf]).flatten ++ r)) :
    ∃ o q, (∀ n, fin (e * m.cfg.tHalf + n) m
        = fin n (m.stage (e * m.cfg.tHalf) q (m.pos + 2 * e)
            (m.port.cs, levelAfter m.port.sck e, m.port.mosi) o)) ∧
      Due (m.stage (e * m.cfg.tHalf) q (m.pos + 2 * e)
            (m.port.cs, levelAfter m.port.sck e, m.port.mosi) o) r ∧
      obs (e * m.cfg.tHalf) m = ((List.range e).flatMap fun i =>
        List.replicate m.cfg.tHalf (m.port.cs, levelAfter m.port.sck (i + 1), m.port.mosi)).map inFlight := by
  induction e generalizing m with
  | zero =>
    refine ⟨m.port.other, m.phase, fun n => ?_, ?_, ?_⟩
    · simp [State.stage, levelAfter]
    · simpa [State.stage, levelAfter, tagged] using h
    · simp [obs]
  | succ e ih =>
    have hd : Due m ((p, .sckInvert) :: (p, .wait m.cfg.tHalf) ::
        (tagged p (List.replicate e [MicroOp.sckInvert, MicroOp.wait m.cfg.tHalf]).flatten ++ r)) := by
      simpa [tagged, List.replicate_succ] using h
    obtain ⟨f1, hd⟩ := hd.sckInvert hp
    obtain ⟨o1, f2, hd, w1⟩ := hd.wait hp
    obtain ⟨o2, q, f3, h3, w3⟩ := ih hd
    have len : (e + 1) * m.cfg.tHalf = m.cfg.tHalf + e * m.cfg.tHalf := by ring
    simp only [levelAfter_succ] at f3 h3 w3
    have hpos : m.pos + 1 + 1 + 2 * e = m.pos + 2 * (e + 1) := by ring
    refine ⟨o2, q, fun n => ?_, ?_, ?_⟩
    · rw [len, Nat.add_assoc, f1, f2, f3]
      simp [State.stage, Nat.add_assoc, ← hpos]
    · convert h3 using 1
      simp [State.stage, Nat.add_assoc, ← hpos, len]
    · rw [len, obs_congr f1, obs_add f2, w1, w3, List.range_succ_eq_map]
      simp [OutPort.triple, levelAfter, List.flatMap_map]

/-- The end of a transaction (R78, R79, R97): extra toggle, chip-select idle for the settle delay, then only `Complete` is
left. -/
theorem Due.teardown {m : State} {r : MicroSeq} (h : Due m (teardown m.cfg ++ r))
    (hcs : m.port.cs = m.cfg.csActive) :
    ∃ o, (∀ n, fin (m.cfg.tCsSettle + m.cfg.extraEdges * m.cfg.tHalf + n) m
        = fin n (m.stage (m.cfg.tCsSettle + m.cfg.extraEdges * m.cfg.tHalf) .teardown
            (m.pos + 2 * m.cfg.extraEdges + 2)
            (m.cfg.csIdle, restLevel m.cfg m.port.sck, m.port.mosi) o)) ∧
      Due (m.stage (m.cfg.tCsSettle + m.cfg.extraEdges * m.cfg.tHalf) .teardown
            (m.pos + 2 * m.cfg.extraEdges + 2)
            (m.cfg.csIdle, restLevel m.cfg m.port.sck, m.port.mosi) o) ((.teardown, .complete) :: r) ∧
      obs (m.cfg.tCsSettle + m.cfg.extraEdges * m.cfg.tHalf) m =
        (closeWave m.cfg m.port.sck m.port.mosi).map inFlight := by
  have hp : Phase.busy .teardown = true := rfl
  simp only [Machine.teardown, extraToggle, closeFrame, tagged_append, List.append_assoc] at h
  obtain ⟨o1, q, f1, h, w1⟩ := h.toggles hp
  simp only [tagged, List.map_cons, List.map_nil, List.cons_append, List.nil_append] at h
  obtain ⟨f2, h⟩ := h.setOut hp
  obtain ⟨o2, f3, h, w3⟩ := h.wait hp
  have len : m.cfg.tCsSettle + m.cfg.extraEdges * m.cfg.tHalf
      = m.cfg.extraEdges * m.cfg.tHalf + m.cfg.tCsSettle := by ring
  have hlev : restLevel m.cfg m.port.sck = levelAfter m.port.sck m.cfg.extraEdges := rfl
  refine ⟨o2, fun n => ?_, ?_, ?_⟩
  · have f3' := f3 n
    rw [len, Nat.add_assoc, f1, f2]
    simp only [State.stage] at f3' ⊢
    rw [f3']
    simp [Nat.add_assoc, hlev, OutPort.set]
  · convert h using 1
    simp [State.stage, Nat.add_assoc, hlev, OutPort.set, len]
  · have w3' := w3
    rw [len, obs_add f1, w1, obs_congr f2]
    simp only [State.stage] at w3' ⊢
    rw [w3']
    simp only [closeWave, extraWave, hcs, hlev, List.map_append]
    congr 2
    · congr 1
      funext i
      have : levelAfter m.port.sck (i + 1) = if i % 2 = 0 then !m.port.sck else m.port.sck := by
        unfold levelAfter
        rcases Nat.mod_two_eq_zero_or_one i with h | h <;> simp [Nat.add_mod, h]
      rw [this]
    · simp [OutPort.triple, OutPort.set]

end Sys2Proof.Machine
end

