-- ==== Sys2Proof/Laws/Cursor.lean ====
section
/-! SUPPORT. Where the micro-operations stand in the sequences of WRITE and READ (R95, R96, R98): the forms of the two sequences, the one
place of the poll, the last place of `Complete`, and the level of chip-select at every position. -/

namespace Sys2Proof.Machine
open Sys2Proof

/-- The command word, each bit in its phase (R98). -/
def cmdPhased (cfg : Config) (dir : Dir) (w : BitVec 2) (a : BitVec 6) : List (Phase × Bool) :=
  (.preamble, cmdBit cfg dir) :: (inPhase .width (bitsMsb w) ++ inPhase .padding (bitsMsb (0#23)) ++
    inPhase .address (bitsMsb a))

/-- The write frame, each bit in its phase (R98). -/
def writePhased (cfg : Config) (a : BitVec 6) (d : Word) (w : BitVec 2) : List (Phase × Bool) :=
  cmdPhased cfg .write w a ++ inPhase .data (bitsMsb d)

theorem inPhase_snd (p : Phase) (bs : List Bool) : (inPhase p bs).map Prod.snd = bs := by
  simp [inPhase, Function.comp_def]

theorem cmdPhased_snd (cfg : Config) (dir : Dir) (w : BitVec 2) (a : BitVec 6) :
    (cmdPhased cfg dir w a).map Prod.snd = encodeCmd cfg dir w a := by
  simp [cmdPhased, encodeCmd, inPhase_snd]

theorem writePhased_snd (cfg : Config) (a : BitVec 6) (d : Word) (w : BitVec 2) :
    (writePhased cfg a d w).map Prod.snd = encodeWrite cfg w a d := by
  simp [writePhased, encodeWrite, cmdPhased_snd, inPhase_snd]

theorem cmdPhased_length (cfg : Config) (dir : Dir) (w : BitVec 2) (a : BitVec 6) :
    (cmdPhased cfg dir w a).length = 32 := by simp [cmdPhased, inPhase]

theorem writePhased_length (cfg : Config) (a : BitVec 6) (d : Word) (w : BitVec 2) :
    (writePhased cfg a d w).length = 64 := by simp [writePhased, cmdPhased_length, inPhase]

theorem cmdPhased_busy (cfg : Config) (dir : Dir) (w : BitVec 2) (a : BitVec 6) :
    ∀ pb ∈ cmdPhased cfg dir w a, Phase.busy pb.1 = true := by
  simp only [cmdPhased, inPhase, List.mem_cons, List.mem_append, List.mem_map]
  rintro pb (rfl | (⟨b, -, rfl⟩ | ⟨b, -, rfl⟩) | ⟨b, -, rfl⟩) <;> rfl

theorem writePhased_busy (cfg : Config) (a : BitVec 6) (d : Word) (w : BitVec 2) :
    ∀ pb ∈ writePhased cfg a d w, Phase.busy pb.1 = true := by
  intro pb h
  rcases List.mem_append.mp h with h | h
  · exact cmdPhased_busy _ _ _ _ pb h
  · obtain ⟨b, -, rfl⟩ := List.mem_map.mp h; rfl

theorem txCmd_eq (cfg : Config) (dir : Dir) (w : BitVec 2) (a : BitVec 6) :
    txCmd cfg dir w a = tagged .preamble (openFrame cfg ++ csAssert cfg) ++ phasedBits cfg (cmdPhased cfg dir w a) := by
  simp only [txCmd, sendField, tagged_append, tagged_sendBits, cmdPhased]
  simp [phasedBits]

theorem writeSeq_eq (cfg : Config) (a : BitVec 6) (d : Word) (w : BitVec 2) :
    writeSeq cfg a d w = tagged .preamble (openFrame cfg ++ csAssert cfg) ++
      (phasedBits cfg (writePhased cfg a d w) ++ teardown cfg) := by
  simp [writeSeq, txCmd_eq, txData, sendField, tagged_sendBits, writePhased, phasedBits_append]

theorem readSeq_eq (cfg : Config) (a : BitVec 6) (w : BitVec 2) :
    readSeq cfg a w = tagged .preamble (openFrame cfg ++ csAssert cfg) ++
      (phasedBits cfg (cmdPhased cfg .read w a) ++ (rxResponse cfg ++ teardown cfg)) := by
  simp [readSeq, txCmd_eq]

theorem txCmd_length (cfg : Config) (dir : Dir) (w : BitVec 2) (a : BitVec 6) : (txCmd cfg dir w a).length = 163 := by
  simp [txCmd_eq, tagged, openFrame, csAssert, phasedBits_length, cmdPhased_length]

theorem mem_tagged {p q : Phase} {ops : List MicroOp} {op : MicroOp} (h : (q, op) ∈ tagged p ops) : q = p ∧ op ∈ ops := by
  simp only [tagged, List.mem_map, Prod.mk.injEq] at h
  obtain ⟨o, ho, rfl, rfl⟩ := h
  exact ⟨rfl, ho⟩

theorem mem_phasedBits {cfg : Config} {pbs : List (Phase × Bool)} {q : Phase} {op : MicroOp}
    (h : (q, op) ∈ phasedBits cfg pbs) :
    (∃ b, (q, b) ∈ pbs) ∧ ((∃ v, op = .setOut .mosi v) ∨ op = .sckInvert ∨ op = .wait cfg.tHalf) := by
  simp only [phasedBits, List.mem_flatMap] at h
  obtain ⟨⟨p, b⟩, hpb, h⟩ := h
  obtain ⟨rfl, h⟩ := mem_tagged h
  refine ⟨⟨b, hpb⟩, ?_⟩
  simp only [sendBit, List.mem_cons, List.not_mem_nil, or_false] at h
  rcases h with rfl | rfl | rfl | rfl | rfl <;> simp

/-- Chip-select after a sequence that follows another (R76, R77, R79). -/
theorem csLevel_append (a b : MicroSeq) : csLevel (a ++ b) = (csLevel b).or (csLevel a) := by
  have h : ∀ (l : MicroSeq) (acc : Option Bool),
      l.foldl (fun level o => csAfter level o.2) acc = (csLevel l).or acc := by
    intro l
    induction l with
    | nil => intro acc; simp [csLevel]
    | cons o l ih =>
      intro acc
      have e : csLevel (o :: l) = l.foldl (fun level o => csAfter level o.2) (csAfter none o.2) := rfl
      rw [e, List.foldl_cons, ih, ih]
      cases csLevel l with
      | some v => simp
      | none => cases o.2 with
        | setOut l v => cases l <;> simp [csAfter]
        | _ => simp [csAfter]
  unfold csLevel
  rw [List.foldl_append]
  exact h b _

/-- What one micro-operation does to the level last written to chip-select. -/
theorem csLevel_snoc (l : MicroSeq) (p : Phase) (op : MicroOp) :
    csLevel (l ++ [(p, op)]) = csAfter (csLevel l) op := by
  unfold csLevel
  rw [List.foldl_append]
  rfl

/-- A sequence without a write of chip-select leaves its level alone. -/
theorem csLevel_none {l : MicroSeq} (h : ∀ o ∈ l, ∀ v, o.2 ≠ .setOut .cs v) : csLevel l = none := by
  induction l with
  | nil => rfl
  | cons o l ih =>
    have : csLevel (o :: l) = (csLevel l).or (csLevel [o]) := csLevel_append [o] l
    rw [this, ih (fun o' ho' => h o' (by simp [ho']))]
    obtain ⟨p, op⟩ := o
    have h1 := h (p, op) (by simp)
    cases op with
    | setOut l v => cases l with
      | cs => exact absurd rfl (h1 v)
      | _ => rfl
    | _ => rfl

/-- What stands between the command word and the teardown. -/
def body (cfg : Config) : Instr → MicroSeq
  | .write _ d _ => txData cfg d
  | .read _ _ => rxResponse cfg

theorem microSeq_eq (cfg : Config) (i : Instr) :
    microSeq cfg i = txCmd cfg i.dir i.width i.address ++ (body cfg i ++ teardown cfg) := by
  cases i <;> simp [microSeq, writeSeq, readSeq, body, Instr.dir, Instr.width, Instr.address]

/-- The micro-operations of the command word (R80): no poll, no sample, no `Complete`. -/
theorem mem_txCmd {cfg : Config} {dir : Dir} {w : BitVec 2} {a : BitVec 6} {p : Phase} {op : MicroOp}
    (h : (p, op) ∈ txCmd cfg dir w a) :
    p ∈ [Phase.preamble, .width, .padding, .address] ∧
      ((∃ l v, op = .setOut l v) ∨ op = .sckInvert ∨ ∃ n, op = .wait n) := by
  rw [txCmd_eq, List.mem_append] at h
  rcases h with h | h
  · obtain ⟨hp, ho⟩ := mem_tagged h
    refine ⟨by simp [hp], ?_⟩
    simp only [openFrame, csAssert, List.mem_append, List.mem_cons, List.not_mem_nil, or_false] at ho
    rcases ho with (rfl | rfl) | rfl <;> simp
  · obtain ⟨⟨b, hb⟩, h⟩ := mem_phasedBits h
    constructor
    · simp only [cmdPhased, inPhase, List.mem_cons, List.mem_append, List.mem_map, Prod.mk.injEq] at hb
      rcases hb with ⟨rfl, -⟩ | (⟨b, -, rfl, -⟩ | ⟨b, -, rfl, -⟩) | ⟨b, -, rfl, -⟩ <;> simp
    · rcases h with ⟨v, rfl⟩ | rfl | rfl <;> simp

theorem mem_txData {cfg : Config} {d : Word} {p : Phase} {op : MicroOp} (h : (p, op) ∈ txData cfg d) :
    p = .data ∧ ((∃ v, op = .setOut .mosi v) ∨ op = .sckInvert ∨ ∃ n, op = .wait n) := by
  rw [txData, sendField, tagged_sendBits] at h
  obtain ⟨⟨b, hb⟩, h⟩ := mem_phasedBits h
  obtain ⟨b, -, hb⟩ := List.mem_map.mp hb
  refine ⟨(Prod.mk.injEq _ _ _ _ ▸ hb).1.symm, ?_⟩
  rcases h with ⟨v, rfl⟩ | rfl | rfl <;> simp

theorem mem_recvBit {cfg : Config} {op : MicroOp} (h : op ∈ recvBit cfg) :
    op = .sckInvert ∨ (∃ n, op = .wait n) ∨ op = .sampleMiso ∨ op = .accumulate := by
  unfold recvBit at h
  split at h <;> simp only [List.mem_cons, List.not_mem_nil, or_false] at h <;>
    rcases h with rfl | rfl | rfl | rfl | rfl | rfl <;> simp

theorem mem_teardown {cfg : Config} {p : Phase} {op : MicroOp} (h : (p, op) ∈ teardown cfg) :
    p = .teardown ∧ ((∃ v, op = .setOut .cs v) ∨ op = .sckInvert ∨ (∃ n, op = .wait n) ∨ op = .complete) := by
  obtain ⟨hp, ho⟩ := mem_tagged h
  refine ⟨hp, ?_⟩
  simp only [extraToggle, closeFrame, List.mem_append, List.mem_flatten, List.mem_replicate, List.mem_cons,
    List.not_mem_nil, or_false] at ho
  rcases ho with (⟨l, ⟨-, rfl⟩, h⟩ | rfl | rfl) | rfl
  · simp only [List.mem_cons, List.not_mem_nil, or_false] at h
    rcases h with rfl | rfl <;> simp
  · simp
  · simp
  · simp

/-- What follows the poll loop in a READ (R86, R88). -/
def afterPoll (cfg : Config) : MicroSeq := tagged .awaitReady (readySettle cfg) ++ tagged .response (recvWord cfg)

theorem rxResponse_eq (cfg : Config) : rxResponse cfg =
    (.awaitReady, .pollInit) :: (.awaitReady, .poll) :: (.awaitReady, .pollWait) :: afterPoll cfg := by
  simp [rxResponse, pollReady, tagged, afterPoll]

theorem mem_afterPoll {cfg : Config} {p : Phase} {op : MicroOp} (h : (p, op) ∈ afterPoll cfg) :
    (p = .awaitReady ∧ ∃ n, op = .wait n) ∨
    (p = .response ∧ (op = .sckInvert ∨ (∃ n, op = .wait n) ∨ op = .sampleMiso ∨ op = .accumulate)) := by
  rcases List.mem_append.mp h with h | h
  · obtain ⟨hp, ho⟩ := mem_tagged h
    exact .inl ⟨hp, _, List.mem_singleton.mp ho⟩
  · obtain ⟨hp, ho⟩ := mem_tagged h
    obtain ⟨l, hl, ho⟩ := List.mem_flatten.mp ho
    rw [(List.mem_replicate.mp hl).2] at ho
    exact .inr ⟨hp, mem_recvBit ho⟩

/-- The poll of a READ stands at position 164 of its sequence. -/
theorem readSeq_poll (cfg : Config) (a : BitVec 6) (w : BitVec 2) :
    (microSeq cfg (.read a w)).drop 163 = (.awaitReady, .pollInit) :: (.awaitReady, .poll) :: (.awaitReady, .pollWait) ::
      (afterPoll cfg ++ teardown cfg) := by
  rw [microSeq_eq, List.drop_left' (txCmd_length _ _ _ _)]
  simp [body, rxResponse_eq]

theorem microSeq_snoc (cfg : Config) (i : Instr) : ∃ l, microSeq cfg i = l ++ [(.teardown, .complete)] ∧
    ∀ o ∈ l, o.2 ≠ .complete := by
  refine ⟨txCmd cfg i.dir i.width i.address ++ (body cfg i ++ tagged .teardown (extraToggle cfg ++ closeFrame cfg)),
    ?_, ?_⟩
  · rw [microSeq_eq, teardown, tagged_append]; simp [tagged]
  · rintro ⟨p, op⟩ h
    simp only [List.mem_append] at h
    rcases h with h | h | h
    · rcases (mem_txCmd h).2 with ⟨l, v, rfl⟩ | rfl | ⟨n, rfl⟩ <;> simp
    · cases i with
      | write a d w => rcases (mem_txData h).2 with ⟨v, rfl⟩ | rfl | ⟨n, rfl⟩ <;> simp
      | read a w =>
        simp only [body, rxResponse_eq, List.mem_cons, Prod.mk.injEq] at h
        rcases h with ⟨-, rfl⟩ | ⟨-, rfl⟩ | ⟨-, rfl⟩ | h
        · simp
        · simp
        · simp
        · rcases mem_afterPoll h with ⟨-, n, rfl⟩ | ⟨-, rfl | ⟨n, rfl⟩ | rfl | rfl⟩ <;> simp
    · obtain ⟨-, h⟩ := mem_tagged h
      simp only [extraToggle, closeFrame, List.mem_append, List.mem_flatten, List.mem_replicate, List.mem_cons,
        List.not_mem_nil, or_false] at h
      rcases h with ⟨l, ⟨-, rfl⟩, h⟩ | rfl | rfl
      · simp only [List.mem_cons, List.not_mem_nil, or_false] at h
        rcases h with rfl | rfl <;> simp
      · simp
      · simp

/-- `Complete` stands last, and nowhere else (R95, R96). -/
theorem complete_iff_last {cfg : Config} {i : Instr} {n : Nat} {p : Phase} {op : MicroOp}
    (h : (microSeq cfg i)[n]? = some (p, op)) : op = .complete ↔ n + 1 = (microSeq cfg i).length := by
  obtain ⟨l, hl, hne⟩ := microSeq_snoc cfg i
  rw [hl] at h ⊢
  simp only [List.length_append, List.length_cons, List.length_nil, Nat.zero_add, Nat.add_right_cancel_iff]
  have hn : n < l.length + 1 := by
    have := (List.getElem?_eq_some_iff.mp h).1
    simpa using this
  by_cases hlt : n < l.length
  · rw [List.getElem?_append_left hlt] at h
    have := hne _ (List.mem_of_getElem? h)
    simp only at this
    simp [this, Nat.ne_of_lt hlt]
  · have hn' : n = l.length := by omega
    subst hn'
    simp at h
    simp [← h.2]

/-- The poll and its wait stand once, in a READ, after the command word (R84). -/
theorem poll_pos {cfg : Config} {i : Instr} {n : Nat} {p : Phase} {op : MicroOp} (h : (microSeq cfg i)[n]? = some (p, op))
    (hop : op = .pollInit ∨ op = .poll ∨ op = .pollWait) : ∃ a w, i = .read a w ∧ p = .awaitReady ∧
      ((op = .pollInit ∧ n = 163) ∨ (op = .poll ∧ n = 164) ∨ (op = .pollWait ∧ n = 165)) := by
  by_cases hn : n < 163
  · exfalso
    rw [microSeq_eq, List.getElem?_append_left (by rw [txCmd_length]; exact hn)] at h
    rcases (mem_txCmd (List.mem_of_getElem? h)).2 with ⟨l, v, rfl⟩ | rfl | ⟨n, rfl⟩ <;> simp at hop
  cases i with
  | write a d w =>
    exfalso
    rw [microSeq_eq, List.getElem?_append_right (by rw [txCmd_length]; omega)] at h
    rcases List.mem_append.mp (List.mem_of_getElem? h) with h | h
    · rcases (mem_txData h).2 with ⟨v, rfl⟩ | rfl | ⟨n, rfl⟩ <;> simp at hop
    · rcases (mem_teardown h).2 with ⟨v, rfl⟩ | rfl | ⟨n, rfl⟩ | rfl <;> simp at hop
  | read a w =>
    have hd := readSeq_poll cfg a w
    have hg : ((microSeq cfg (.read a w)).drop 163)[n - 163]? = some (p, op) := by
      rw [List.getElem?_drop, Nat.add_sub_of_le (Nat.le_of_not_lt hn)]; exact h
    rw [hd] at hg
    refine ⟨a, w, rfl, ?_⟩
    obtain ⟨m, rfl⟩ := Nat.exists_eq_add_of_le (Nat.le_of_not_lt hn)
    rw [Nat.add_sub_cancel_left] at hg
    match m, hg with
    | 0, hg =>
      simp only [List.getElem?_cons_zero, Option.some.injEq, Prod.mk.injEq] at hg
      exact ⟨hg.1.symm, .inl ⟨hg.2.symm, rfl⟩⟩
    | 1, hg =>
      simp only [List.getElem?_cons_succ, List.getElem?_cons_zero, Option.some.injEq, Prod.mk.injEq] at hg
      exact ⟨hg.1.symm, .inr (.inl ⟨hg.2.symm, rfl⟩)⟩
    | 2, hg =>
      simp only [List.getElem?_cons_succ, List.getElem?_cons_zero, Option.some.injEq, Prod.mk.injEq] at hg
      exact ⟨hg.1.symm, .inr (.inr ⟨hg.2.symm, rfl⟩)⟩
    | m + 3, hg =>
      exfalso
      simp only [List.getElem?_cons_succ] at hg
      rcases List.mem_append.mp (List.mem_of_getElem? hg) with h | h
      · rcases mem_afterPoll h with ⟨-, n, rfl⟩ | ⟨-, rfl | ⟨n, rfl⟩ | rfl | rfl⟩ <;> simp at hop
      · rcases (mem_teardown h).2 with ⟨v, rfl⟩ | rfl | ⟨n, rfl⟩ | rfl <;> simp at hop

/-- Every micro-operation of a transaction is held by a phase other than `Idle` and `Fault` (R98). -/
theorem phase_busy_of_mem {cfg : Config} {i : Instr} {p : Phase} {op : MicroOp} (h : (p, op) ∈ microSeq cfg i) :
    Phase.busy p = true := by
  rw [microSeq_eq] at h
  simp only [List.mem_append] at h
  rcases h with h | h | h
  · have := (mem_txCmd h).1
    simp only [List.mem_cons, List.not_mem_nil, or_false] at this
    rcases this with rfl | rfl | rfl | rfl <;> rfl
  · cases i with
    | write a d w => rw [(mem_txData h).1]; rfl
    | read a w =>
      simp only [body, rxResponse_eq, List.mem_cons, Prod.mk.injEq] at h
      rcases h with ⟨rfl, -⟩ | ⟨rfl, -⟩ | ⟨rfl, -⟩ | h
      · rfl
      · rfl
      · rfl
      · rcases mem_afterPoll h with ⟨rfl, -⟩ | ⟨rfl, -⟩ <;> rfl
  · rw [(mem_teardown h).1]; rfl

theorem csLevel_txCmd (cfg : Config) (dir : Dir) (w : BitVec 2) (a : BitVec 6) :
    csLevel (txCmd cfg dir w a) = some cfg.csActive := by
  rw [txCmd_eq, csLevel_append, csLevel_none]
  · rfl
  · rintro ⟨p, op⟩ h v
    rcases (mem_phasedBits h).2 with ⟨v, rfl⟩ | rfl | rfl <;> simp

/-- Between the command word and the teardown chip-select is active (R77, R79). -/
theorem csLevel_in_body {cfg : Config} {i : Instr} {n : Nat} (h1 : 163 ≤ n) (h2 : n ≤ 163 + (body cfg i).length) :
    csLevel ((microSeq cfg i).take n) = some cfg.csActive := by
  have hb : ∀ o ∈ body cfg i, ∀ v, o.2 ≠ .setOut .cs v := by
    rintro ⟨p, op⟩ h v
    cases i with
    | write a d w => rcases (mem_txData h).2 with ⟨v, rfl⟩ | rfl | ⟨n, rfl⟩ <;> simp
    | read a w =>
      simp only [body, rxResponse_eq, List.mem_cons, Prod.mk.injEq] at h
      rcases h with ⟨-, rfl⟩ | ⟨-, rfl⟩ | ⟨-, rfl⟩ | h
      · simp
      · simp
      · simp
      · rcases mem_afterPoll h with ⟨-, n, rfl⟩ | ⟨-, rfl | ⟨n, rfl⟩ | rfl | rfl⟩ <;> simp
  rw [microSeq_eq, List.take_append, List.take_of_length_le (by rw [txCmd_length]; omega), txCmd_length,
    List.take_append_of_le_length (by omega), csLevel_append, csLevel_txCmd,
    csLevel_none (fun o ho => hb o (List.mem_of_mem_take ho))]
  rfl

/-- Chip-select is idle when `Complete` is due (R79, R97). -/
theorem csLevel_at_complete {cfg : Config} {i : Instr} {n : Nat} (h : n + 1 = (microSeq cfg i).length) :
    csLevel ((microSeq cfg i).take n) = some cfg.csIdle := by
  have e : microSeq cfg i = (txCmd cfg i.dir i.width i.address ++ (body cfg i ++ tagged .teardown (extraToggle cfg))) ++
      [(.teardown, .setOut .cs cfg.csIdle), (.teardown, .wait cfg.tCsSettle), (.teardown, .complete)] := by
    rw [microSeq_eq, teardown, tagged_append, tagged_append]; simp [tagged, closeFrame]
  rw [e] at h ⊢
  have hn : n = (txCmd cfg i.dir i.width i.address ++ (body cfg i ++ tagged .teardown (extraToggle cfg))).length + 2 := by
    simp only [List.length_append, List.length_cons, List.length_nil] at h ⊢
    omega
  rw [hn, List.take_length_add_append, csLevel_append]
  rfl

/-- A poll and a sample of data-in stand in the body of a READ, in the phase that raises their faults (R109). -/
theorem sample_pos {cfg : Config} {i : Instr} {n : Nat} {p : Phase} {op : MicroOp} (h : (microSeq cfg i)[n]? = some (p, op))
    (hop : op = .poll ∨ op = .sampleMiso) : i.dir = .read ∧ 163 ≤ n ∧ n ≤ 163 + (body cfg i).length ∧
      (p = .awaitReady ∨ p = .response) := by
  have h163 : 163 ≤ n := by
    by_contra hn
    rw [microSeq_eq, List.getElem?_append_left (by rw [txCmd_length]; omega)] at h
    rcases (mem_txCmd (List.mem_of_getElem? h)).2 with ⟨l, v, rfl⟩ | rfl | ⟨n, rfl⟩ <;> simp at hop
  have hlen : n < 163 + (body cfg i).length := by
    by_contra hn
    rw [microSeq_eq, List.getElem?_append_right (by rw [txCmd_length]; omega),
      List.getElem?_append_right (by rw [txCmd_length]; omega)] at h
    rcases (mem_teardown (List.mem_of_getElem? h)).2 with ⟨v, rfl⟩ | rfl | ⟨n, rfl⟩ | rfl <;> simp at hop
  have hb : (p, op) ∈ body cfg i := by
    rw [microSeq_eq, List.getElem?_append_right (by rw [txCmd_length]; omega),
      List.getElem?_append_left (by rw [txCmd_length]; omega)] at h
    exact List.mem_of_getElem? h
  cases i with
  | write a d w =>
    exfalso
    rcases (mem_txData hb).2 with ⟨v, rfl⟩ | rfl | ⟨n, rfl⟩ <;> simp at hop
  | read a w =>
    refine ⟨rfl, h163, by omega, ?_⟩
    simp only [body, rxResponse_eq, List.mem_cons, Prod.mk.injEq] at hb
    rcases hb with ⟨rfl, -⟩ | ⟨rfl, -⟩ | ⟨rfl, -⟩ | hb
    · exact .inl rfl
    · exact .inl rfl
    · exact .inl rfl
    · rcases mem_afterPoll hb with ⟨rfl, -⟩ | ⟨rfl, -⟩
      · exact .inl rfl
      · exact .inr rfl

end Sys2Proof.Machine
end

