-- ==== Sys2Proof/Laws/Invariant.lean ====
section
/-! SUPPORT. The invariant inside a tick, between two micro-operations (R100): every round of the run loop keeps it, and with it the loop
always ends with the engine waiting or at rest. -/

namespace Sys2Proof.Machine
open Sys2Proof

/-- The invariant inside a tick, between two micro-operations: as `State.Inv`, but a transaction may just have been accepted. -/
structure State.MidInv (s : State) : Prop where
  admissible : s.cfg.Admissible
  otherLength : s.port.other.length = s.cfg.wOut
  pollBound : s.pollcnt ≤ s.cfg.pollMax
  faultPhaseIff : s.fault = true ↔ s.phase = .fault
  faultCodes : if s.fault then s.faultCode = 1 ∨ s.faultCode = 2 else s.faultCode = 0
  faultedIn : s.fault = true → s.faultPhase = .awaitReady ∨ s.faultPhase = .response
  restWait : s.busy = false → s.waitcnt = 0
  accepted : s.busy = true → s.pos = 0 → s.waitcnt = 0
  inside : s.busy = true → s.pos < s.seq.length
  phaseOf : s.busy = true → 0 < s.pos → (s.seq[s.pos - 1]?).map Prod.fst = some s.phase
  idleLevel : s.phase = .idle → s.port.cs = s.cfg.csIdle
  faultLevel : s.phase = .fault → s.port.cs = s.cfg.csActive
  busyLevel : s.busy = true → 0 < s.pos → csLevel (s.seq.take s.pos) = some s.port.cs

theorem State.Inv.mid {s : State} (h : s.Inv) : s.MidInv := by
  have hc := h.chipSelect
  refine ⟨h.admissible, h.otherLength, h.pollBound, h.faultPhaseIff, h.faultCodes, h.faultedIn, h.restWait,
    fun hb h0 => absurd h0 (by have := (h.cursor hb).1; omega), fun hb => (h.cursor hb).2.1, fun hb _ => (h.cursor hb).2.2,
    fun hp => ?_, fun hp => ?_, fun hb _ => ?_⟩
  · rw [hp] at hc; exact hc
  · rw [hp] at hc; exact hc
  · rw [busy_iff] at hb
    cases hp : s.phase <;> simp_all

theorem State.MidInv.inv {s : State} (h : s.MidInv) (hr : s.running = false) : s.Inv := by
  have hpos : s.busy = true → 0 < s.pos := by
    intro hb
    rcases Nat.eq_zero_or_pos s.pos with h0 | h0
    · have := h.accepted hb h0
      simp [State.running, hb, this] at hr
    · exact h0
  refine ⟨h.admissible, h.otherLength, h.pollBound, h.faultPhaseIff, h.faultCodes, h.faultedIn, h.restWait,
    fun hb => ⟨hpos hb, h.inside hb, h.phaseOf hb (hpos hb)⟩, ?_⟩
  split
  · exact h.idleLevel ‹_›
  · exact h.faultLevel ‹_›
  · have hb : s.busy = true := by rw [busy_iff]; exact ⟨‹_›, ‹_›⟩
    exact h.busyLevel hb (hpos hb)

theorem csLevel_take_succ {l : MicroSeq} {n : Nat} {p : Phase} {op : MicroOp} (h : l[n]? = some (p, op)) :
    csLevel (l.take (n + 1)) = csAfter (csLevel (l.take n)) op := by
  rw [List.take_add_one, h]
  exact csLevel_snoc _ p op

theorem seq_head (s : State) : s.seq[0]? = some (.preamble, .setOut .cs s.cfg.csIdle) := by
  have : ∀ cfg i, (microSeq cfg i)[0]? = some (.preamble, .setOut .cs cfg.csIdle) := by
    intro cfg i
    rw [microSeq_eq, txCmd_eq]; rfl
  exact this _ _

theorem State.MidInv.forward {s t : State} {p : Phase} {op : MicroOp} (h : s.MidInv) (hb : s.busy = true)
    (hg : s.seq[s.pos]? = some (p, op)) (hc : SameContext s t) (hne : op ≠ .complete)
    (hpos : t.pos = s.pos + 1) (hph : t.phase = p) (hpoll : t.pollcnt ≤ s.cfg.pollMax) (hf : t.fault = s.fault)
    (hfc : t.faultCode = s.faultCode) (hcs : some t.port.cs = csAfter (some s.port.cs) op) : t.MidInv := by
  have hp : Phase.busy p = true := phase_busy_of_mem (List.mem_of_getElem? hg)
  have hp' : p ≠ .idle ∧ p ≠ .fault := by simpa [Phase.busy] using hp
  have hsf : s.fault = false := by
    have := (busy_iff s).mp hb
    simpa [this.2] using mt h.faultPhaseIff.mp this.2
  have htb : t.busy = true := by rw [busy_iff, hph]; exact hp'
  have hlast : s.pos + 1 ≠ s.seq.length := mt (complete_iff_last hg).mpr hne
  have hlt := (List.getElem?_eq_some_iff.mp hg).1
  refine ⟨by rw [hc.cfg]; exact h.admissible, by rw [hc.cfg, hc.other]; exact h.otherLength,
    by rw [hc.cfg]; exact hpoll, ?_, ?_, ?_, ?_, ?_, ?_, ?_, ?_, ?_, ?_⟩
  · rw [hf, hsf, hph]; simp [hp'.2]
  · have := h.faultCodes; rw [hsf] at this; rw [hf, hfc, hsf]; exact this
  · rw [hf, hsf]; simp
  · rw [htb]; simp
  · intro _ h0; omega
  · intro _; rw [hc.seq, hpos]; omega
  · intro _ _; rw [hc.seq, hpos, hph, Nat.add_sub_cancel, hg]; rfl
  · rw [hph]; exact fun he => absurd he hp'.1
  · rw [hph]; exact fun he => absurd he hp'.2
  · intro _ _
    rw [hc.seq, hpos, csLevel_take_succ hg, hcs]
    rcases Nat.eq_zero_or_pos s.pos with h0 | h0
    · rw [h0, seq_head] at hg
      cases hg; rfl
    · rw [h.busyLevel hb h0]

theorem State.MidInv.raise {s : State} {p : Phase} (k : FaultKind) (h : s.MidInv) (hb : s.busy = true)
    (h1 : 163 ≤ s.pos) (h2 : s.pos ≤ 163 + (body s.cfg (latchedInstr s)).length)
    (hp : p = .awaitReady ∨ p = .response) : ({ s with phase := p }.raise k).MidInv := by
  have hl := csLevel_in_body (cfg := s.cfg) (i := latchedInstr s) h1 h2
  have hcs := h.busyLevel hb (by omega)
  have : s.seq = microSeq s.cfg (latchedInstr s) := rfl
  rw [this, hl] at hcs
  refine ⟨h.admissible, h.otherLength, h.pollBound, by simp, ?_, fun _ => hp, by simp, ?_, ?_, ?_, ?_, ?_, ?_⟩
  · cases k <;> simp [faultCodeOf]
  · simp [State.busy]
  · simp [State.busy]
  · simp [State.busy]
  · simp
  · intro _; exact (Option.some.inj hcs).symm
  · simp [State.busy]

theorem latched_dir (s : State) : (latchedInstr s).dir = s.dir := by
  unfold latchedInstr; cases s.dir <;> rfl

/-- Every round of the run loop keeps the invariant. -/
theorem State.MidInv.microStep {s : State} (h : s.MidInv) (hr : s.running = true) : s.microStep.MidInv := by
  obtain ⟨hb, hw⟩ := (running_iff s).mp hr
  have hin := h.inside hb
  have hg : ∃ o, s.seq[s.pos]? = some o := ⟨_, List.getElem?_eq_getElem hin⟩
  obtain ⟨⟨p, op⟩, hg⟩ := hg
  have hm : s.microStep = op.exec { s with phase := p } := by simp [State.microStep, hg]
  rw [hm]
  have hc : SameContext s (op.exec { s with phase := p }) :=
    SameContext.trans (t := { s with phase := p }) ⟨rfl, rfl, rfl, rfl, rfl, rfl, rfl, rfl⟩ (exec_sameContext op _)
  cases op with
  | setOut l v => refine h.forward hb hg hc (by simp) rfl rfl h.pollBound rfl rfl ?_; cases l <;> rfl
  | sckInvert => exact h.forward hb hg hc (by simp) rfl rfl h.pollBound rfl rfl rfl
  | wait n => exact h.forward hb hg hc (by simp) rfl rfl h.pollBound rfl rfl rfl
  | pollInit => exact h.forward hb hg hc (by simp) rfl rfl (Nat.zero_le _) rfl rfl rfl
  | accumulate => exact h.forward hb hg hc (by simp) rfl rfl h.pollBound rfl rfl rfl
  | complete =>
    have hlast := (complete_iff_last hg).mp rfl
    have hl := csLevel_at_complete (cfg := s.cfg) (i := latchedInstr s) hlast
    have hpos : 0 < s.pos := by
      rcases Nat.eq_zero_or_pos s.pos with h0 | h0
      · rw [h0, seq_head] at hg; cases hg
      · exact h0
    have hcs := h.busyLevel hb hpos
    have : s.seq = microSeq s.cfg (latchedInstr s) := rfl
    rw [this, hl] at hcs
    have hsf : s.fault = false := by
      have := (busy_iff s).mp hb
      simpa [this.2] using mt h.faultPhaseIff.mp this.2
    have hfc := h.faultCodes
    rw [hsf] at hfc
    refine ⟨h.admissible, h.otherLength, h.pollBound, ?_, ?_, ?_, ?_, ?_, ?_, ?_, ?_, ?_, ?_⟩
    · simp [MicroOp.exec, hsf]
    · simpa [MicroOp.exec, hsf] using hfc
    · simp [MicroOp.exec, hsf]
    · simp [MicroOp.exec, hw]
    · simp [MicroOp.exec, State.busy]
    · simp [MicroOp.exec, State.busy]
    · simp [MicroOp.exec, State.busy]
    · intro _; exact (Option.some.inj hcs).symm
    · simp [MicroOp.exec]
    · simp [MicroOp.exec, State.busy]
  | poll =>
    obtain ⟨hd, h1, h2, hp⟩ := sample_pos hg (.inl rfl)
    simp only [MicroOp.exec, pollRound_eq] at hc ⊢
    split
    · exact h.raise _ hb h1 h2 hp
    · split
      · exact h.raise _ hb h1 h2 hp
      · rename_i hne hx
        have hpc : s.pollcnt ≠ s.cfg.pollMax := hne
        have hpb := h.pollBound
        have h1 : State.MidInv { s with
            phase := p, pollcnt := s.pollcnt + 1, pos := s.pos + 1
            xnormCount := s.xnormCount + xCount (s.input .ready) } := by
          refine h.forward hb hg ⟨rfl, rfl, rfl, rfl, rfl, rfl, rfl, rfl⟩ (by simp) rfl rfl ?_ rfl rfl rfl
          show s.pollcnt + 1 ≤ s.cfg.pollMax
          omega
        obtain ⟨a, w, hi, rfl, hpp⟩ := poll_pos hg (.inr (.inl rfl))
        have hpos : s.pos = 164 := by simpa using hpp
        show State.MidInv { s with
            phase := Phase.awaitReady, pollcnt := s.pollcnt + 1
            xnormCount := s.xnormCount + xCount (s.input .ready)
            pos := s.pos + if norm (s.input .ready) then 2 else 1 }
        cases norm (s.input .ready) with
        | false => exact h1
        | true =>
          have hg2 : s.seq[s.pos + 1]? = some (.awaitReady, .pollWait) := by
            have := readSeq_poll s.cfg a w
            have hs : s.seq = microSeq s.cfg (.read a w) := by rw [← hi]; rfl
            rw [hs, hpos]
            have := congrArg (fun l => l[2]?) this
            simpa using this
          exact h1.forward (t := { s with
            phase := Phase.awaitReady, pollcnt := s.pollcnt + 1
            xnormCount := s.xnormCount + xCount (s.input .ready)
            pos := s.pos + 2 }) rfl hg2 ⟨rfl, rfl, rfl, rfl, rfl, rfl, rfl, rfl⟩ (by simp) rfl rfl h1.pollBound rfl rfl rfl
  | pollWait =>
    obtain ⟨a, w, hi, rfl, hpp⟩ := poll_pos hg (.inr (.inr rfl))
    have hpos : s.pos = 165 := by simpa using hpp
    have hs : s.seq = microSeq s.cfg (.read a w) := by rw [← hi]; rfl
    have hrs := readSeq_poll s.cfg a w
    have hg1 : s.seq[163]? = some (.awaitReady, .pollInit) := by
      rw [hs]; have := congrArg (fun l => l[0]?) hrs; simpa using this
    have hcs := h.busyLevel hb (by omega)
    have hlen : (body s.cfg (.read a w)).length = (afterPoll s.cfg).length + 3 := by simp [body, rxResponse_eq]
    have hl1 : csLevel (s.seq.take 165) = some s.cfg.csActive := by
      rw [hs]; exact csLevel_in_body (by omega) (by omega)
    have hl2 : csLevel (s.seq.take 164) = some s.cfg.csActive := by
      rw [hs]; exact csLevel_in_body (by omega) (by omega)
    rw [hpos, hl1] at hcs
    have hsf : s.fault = false := by
      have := (busy_iff s).mp hb
      simpa [this.2] using mt h.faultPhaseIff.mp this.2
    have hfc := h.faultCodes
    rw [hsf] at hfc
    refine ⟨h.admissible, h.otherLength, h.pollBound, ?_, ?_, ?_, ?_, ?_, ?_, ?_, ?_, ?_, ?_⟩
    · simp [MicroOp.exec, hsf]
    · simpa [MicroOp.exec, hsf] using hfc
    · simp [MicroOp.exec, hsf]
    · simp [MicroOp.exec, State.busy]
    · intro _ h0; simp [MicroOp.exec, hpos] at h0
    · intro _; show s.pos - 1 < s.seq.length; omega
    · intro _ _; show (s.seq[s.pos - 1 - 1]?).map Prod.fst = _; rw [hpos, hg1]; rfl
    · simp [MicroOp.exec]
    · simp [MicroOp.exec]
    · intro _ _; show csLevel (s.seq.take (s.pos - 1)) = _; rw [hpos, hl2, hcs]; rfl
  | sampleMiso =>
    obtain ⟨hd, h1, h2, hp⟩ := sample_pos hg (.inr rfl)
    simp only [MicroOp.exec, sampleData_eq] at hc ⊢
    split
    · exact h.raise _ hb h1 h2 hp
    · exact h.forward hb hg ⟨rfl, rfl, rfl, rfl, rfl, rfl, rfl, rfl⟩ (by simp) rfl rfl h.pollBound rfl rfl rfl

theorem State.MidInv.run {s : State} (h : s.MidInv) : s.run.MidInv :=
  runFor_keeps (P := State.MidInv) (fun _ hr h => h.microStep hr) _ s h

/-- The loop of a tick always ends with the engine waiting or at rest (R100). -/
theorem State.MidInv.run_stops {s : State} (h : s.MidInv) : s.run.running = false := by
  by_contra hr
  have hr : s.run.running = true := by simpa using hr
  have h1 := Machine.run_stops s hr
  have h2 := h.run.inside ((running_iff _).mp hr).1
  rw [(run_sameContext s).seq] at h2
  omega

theorem State.MidInv.startTick {s : State} (h : s.MidInv) : s.startTick.MidInv :=
  ⟨h.admissible, h.otherLength, h.pollBound, h.faultPhaseIff, h.faultCodes, h.faultedIn, h.restWait, h.accepted, h.inside,
    h.phaseOf, h.idleLevel, h.faultLevel, h.busyLevel⟩

theorem microSeq_length_pos (cfg : Config) (i : Instr) : 0 < (microSeq cfg i).length := by
  rw [microSeq_eq, List.length_append, txCmd_length]; omega

theorem State.MidInv.accept {s : State} (i : Instr) (h : s.MidInv) (hr : s.ready = true) : (acceptInstr i s).MidInv := by
  obtain ⟨hp, hf⟩ := (ready_iff s).mp hr
  have hfc := h.faultCodes
  rw [hf] at hfc
  have hl : ∀ t : State, 0 < t.seq.length := fun t => microSeq_length_pos t.cfg (latchedInstr t)
  cases i with
  | write a d w =>
    exact ⟨h.admissible, h.otherLength, Nat.min_le_right _ _, by simp [acceptInstr, acceptWrite, State.beginTransaction, hf],
      by simpa [acceptInstr, acceptWrite, State.beginTransaction, hf] using hfc,
      by simp [acceptInstr, acceptWrite, State.beginTransaction, hf],
      fun _ => rfl, fun _ _ => rfl, fun _ => hl _, fun _ h0 => absurd h0 (Nat.lt_irrefl 0),
      by simp [acceptInstr, acceptWrite, State.beginTransaction], by simp [acceptInstr, acceptWrite, State.beginTransaction],
      fun _ h0 => absurd h0 (Nat.lt_irrefl 0)⟩
  | read a w =>
    exact ⟨h.admissible, h.otherLength, Nat.zero_le _, by simp [acceptInstr, acceptRead, State.beginTransaction, hf],
      by simpa [acceptInstr, acceptRead, State.beginTransaction, hf] using hfc,
      by simp [acceptInstr, acceptRead, State.beginTransaction, hf],
      fun _ => rfl, fun _ _ => rfl, fun _ => hl _, fun _ h0 => absurd h0 (Nat.lt_irrefl 0),
      by simp [acceptInstr, acceptRead, State.beginTransaction], by simp [acceptInstr, acceptRead, State.beginTransaction],
      fun _ h0 => absurd h0 (Nat.lt_irrefl 0)⟩

end Sys2Proof.Machine
end

