-- ==== Sys2Proof/Laws/Accept.lean ====
section
/-! SUPPORT. The run loop at one position, and the tick of an acceptance in one equation (R94, R100). -/

namespace Sys2Proof.Machine
open Sys2Proof

/-- How every sequence begins (R74, R76, R77). -/
theorem seq_prefix (cfg : Config) (i : Instr) : ∃ r, microSeq cfg i =
    (.preamble, .setOut .cs cfg.csIdle) :: (.preamble, .wait cfg.tCsSettle) :: (.preamble, .setOut .cs cfg.csActive) ::
    (.preamble, .setOut .mosi (cmdBit cfg i.dir)) :: (.preamble, .sckInvert) :: (.preamble, .wait cfg.tHalf) :: r := by
  rw [microSeq_eq]; exact ⟨_, rfl⟩

/-- One round of the run loop at a position (R100 (a)). -/
theorem run_at {m : State} {p : Phase} {op : MicroOp} (hb : m.busy = true) (hw : m.waitcnt = 0)
    (hg : m.seq[m.pos]? = some (p, op)) : m.run = (op.exec { m with phase := p }).run := by
  have h := List.getElem?_eq_some_iff.mp hg
  exact run_cons ((running_iff m).mpr ⟨hb, hw⟩) (rest := m.seq.drop (m.pos + 1)) (by
    rw [List.drop_eq_getElem_cons h.1, h.2])

/-- Where the engine stands when the tick of an acceptance ends its run loop (R94, R100): in the wait of `Open`, or, with no settle
delay, in the first half-cycle of the first bit. -/
def accepted (i : Instr) (q : State) : State :=
  let a := acceptInstr i q
  if 0 < q.cfg.tCsSettle then
    { a with phase := .preamble, pos := 2, waitcnt := q.cfg.tCsSettle, port := { q.port with cs := q.cfg.csIdle } }
  else
    { a with
      phase := .preamble, pos := 6, waitcnt := q.cfg.tHalf
      port := { q.port with cs := q.cfg.csActive, sck := !q.port.sck, mosi := cmdBit q.cfg i.dir } }

/-- The tick of an acceptance (R94, R100 (b)). -/
theorem accept_run (i : Instr) (q : State) (hA : q.cfg.Admissible) : (acceptInstr i q).run = accepted i q := by
  obtain ⟨r, hr⟩ := seq_prefix q.cfg i
  have hH : 0 < q.cfg.tHalf := hA.1
  have hs : (acceptInstr i q).seq = microSeq q.cfg i := by cases i <;> rfl
  have hpos : (acceptInstr i q).pos = 0 := by cases i <;> rfl
  have hph : (acceptInstr i q).phase = .preamble := by cases i <;> rfl
  have hw : (acceptInstr i q).waitcnt = 0 := by cases i <;> rfl
  have hp : (acceptInstr i q).port = q.port := by cases i <;> rfl
  unfold accepted
  simp only
  generalize acceptInstr i q = a at *
  have hg : ∀ k : Nat, a.seq[k]? = (microSeq q.cfg i)[k]? := fun k => by rw [hs]
  rw [hr] at hg
  let at' : Nat → Nat → OutPort → State := fun n w p => { a with phase := .preamble, pos := n, waitcnt := w, port := p }
  have key : ∀ (n : Nat) (p : OutPort) (op : MicroOp), a.seq[n]? = some (.preamble, op) →
      (at' n 0 p).run = (op.exec (at' n 0 p)).run := fun n p op h => run_at (m := at' n 0 p) rfl rfl h
  have e0 : a = at' 0 0 q.port := by
    show a = { a with phase := .preamble, pos := 0, waitcnt := 0, port := q.port }
    rcases a with ⟨⟩
    simp only at hph hpos hp hw
    subst hph hpos hp hw; rfl
  let p1 : OutPort := { q.port with cs := q.cfg.csIdle }
  let p2 : OutPort := { q.port with cs := q.cfg.csActive }
  let p3 : OutPort := { p2 with mosi := cmdBit q.cfg i.dir }
  let p4 : OutPort := { p3 with sck := !q.port.sck }
  have e1 : (at' 0 0 q.port).run = (at' 1 0 p1).run := key 0 q.port (.setOut .cs q.cfg.csIdle) (by rw [hg]; rfl)
  have e2 : (at' 1 0 p1).run = (at' 2 q.cfg.tCsSettle p1).run := key 1 p1 (.wait q.cfg.tCsSettle) (by rw [hg]; rfl)
  refine (congrArg State.run e0).trans (e1.trans (e2.trans ?_))
  by_cases h0 : 0 < q.cfg.tCsSettle
  · rw [if_pos h0, run_of_not_running (not_running_of_wait h0)]
  · have hz : q.cfg.tCsSettle = 0 := by omega
    have e3 : (at' 2 0 p1).run = (at' 3 0 p2).run := key 2 p1 (.setOut .cs q.cfg.csActive) (by rw [hg]; rfl)
    have e4 : (at' 3 0 p2).run = (at' 4 0 p3).run := key 3 p2 (.setOut .mosi (cmdBit q.cfg i.dir)) (by rw [hg]; rfl)
    have e5 : (at' 4 0 p3).run = (at' 5 0 p4).run := key 4 p3 .sckInvert (by rw [hg]; rfl)
    have e6 : (at' 5 0 p4).run = (at' 6 q.cfg.tHalf p4).run := key 5 p4 (.wait q.cfg.tHalf) (by rw [hg]; rfl)
    rw [if_neg h0, hz, e3, e4, e5, e6, run_of_not_running (not_running_of_wait (by exact hH))]

/-- The two courses of a tick (R100 (b)): the engine is ready at the point of acceptance, or it is not. -/
theorem runAccept_cases (s : State) (acc : State → State) :
    (s.startTick.run.ready = true ∧ s.runAccept acc = (acc s.startTick.run).run) ∨
    (s.startTick.run.ready = false ∧ s.runAccept acc = s.startTick.run) := by
  unfold State.runAccept
  cases h : s.startTick.run.ready <;> simp [h]

/-- In `Fault` the engine neither runs nor is ready (R114). -/
theorem not_running_of_fault {s : State} (h : s.phase = .fault) : s.running = false ∧ s.ready = false := by
  simp [State.running, State.busy, State.ready, h]

end Sys2Proof.Machine
end

