-- ==== Sys2Proof/Laws/Host.lean ====
section
/-! SUPPORT. The host and the peripheral: when the host keeps to its duty, where a call ends, and that a peripheral with the effects of
R37 has its echo property. -/

namespace Sys2Proof.Machine
open Sys2Proof

/-- The host keeps to its duty exactly if it resets no engine that is busy and presents a request only to one that is ready where
acceptance is tested (R101, R128). -/
theorem hostDisciplined_iff (s : State) : s.HostDisciplined ↔
    (s.tickInput.reset = true → s.busy = false) ∧ (s.presented.isSome = true → s.atAccept.ready = true) := by
  unfold State.HostDisciplined State.hostBreach
  by_cases h1 : s.tickInput.reset = true ∧ s.busy = true
  · simp [h1]
  · by_cases h2 : s.presented.isSome = true ∧ s.atAccept.ready = false
    · simp [h1, h2]
    · simp only [h1, h2, if_false, true_iff]
      exact ⟨fun h => by simpa [h] using h1, fun h => by simpa [h] using h2⟩

/-- A program that keeps to its duty at a tick goes on with the next. -/
theorem programRun_next {s t : State} (n : Nat) (hd : s.HostDisciplined) (ht : step s = .next t) :
    programRun (n + 1) s = programRun n t := by
  have hb : s.hostBreach = none := hd
  simp [programRun, hb, ht]

/-- A program that breaks its duty at a tick is refused there. -/
theorem programRun_refused {s : State} {b : HostBreach} (n : Nat) (hb : s.hostBreach = some b) :
    programRun (n + 1) s = .refused b s := by
  simp [programRun, hb]

theorem withoutRequest_presented (s : State) : s.withoutRequest.presented = none := rfl

theorem withoutRequest_input (s : State) (l : InLine) : s.withoutRequest.input l = s.input l := rfl

/-- A micro-operation reads of the environment's script only the input port of its tick (R12). -/
theorem exec_env (op : MicroOp) (s : State) (env : List TickInput)
    (h : ∀ l, ({ s with env := env } : State).input l = s.input l) :
    op.exec { s with env := env } = { op.exec s with env := env } := by
  cases op <;> simp only [MicroOp.exec]
  case poll =>
    rw [pollRound_eq, pollRound_eq, h]
    by_cases h1 : s.pollcnt = s.cfg.pollMax
    · rw [if_pos h1, if_pos h1]; rfl
    · by_cases h2 : s.input .ready = .x ∧ s.cfg.xmode = .strict
      · rw [if_neg h1, if_neg h1, if_pos h2, if_pos h2]; rfl
      · rw [if_neg h1, if_neg h1, if_neg h2, if_neg h2]
  case sampleMiso =>
    rw [sampleData_eq, sampleData_eq, h]
    by_cases h2 : s.input .miso = .x ∧ s.cfg.xmode = .strict
    · rw [if_pos h2, if_pos h2]; rfl
    · rw [if_neg h2, if_neg h2]
  all_goals rfl

/-- So does the run loop of a tick. -/
theorem runFor_env (n : Nat) : ∀ (s : State) (env : List TickInput),
    (∀ l, ({ s with env := env } : State).input l = s.input l) →
    ({ s with env := env } : State).runFor n = { s.runFor n with env := env } := by
  induction n with
  | zero => exact fun _ _ _ => rfl
  | succ n ih =>
    intro s env h
    have hm : ({ s with env := env } : State).microStep = { s.microStep with env := env } := by
      unfold State.microStep
      show (match s.seq[s.pos]? with
        | some (p, op) => op.exec { s with phase := p, env := env }
        | none => { s with env := env }) = _
      cases s.seq[s.pos]? with
      | none => rfl
      | some o => exact exec_env o.2 { s with phase := o.1 } env h
    have hc := microStep_sameContext s
    have hi : ∀ l, ({ s.microStep with env := env } : State).input l = s.microStep.input l := by
      intro l
      rw [hc.input, ← h l]
      simp [State.input, State.tickInput, hc.cfg, hc.now]
    simp only [State.runFor]
    rw [show ({ s with env := env } : State).running = s.running from rfl, hm]
    split
    · exact ih _ _ hi
    · rfl

/-- Without the request the engine comes to the point of acceptance as with it (R100). -/
theorem withoutRequest_atAccept (s : State) :
    s.withoutRequest.atAccept = { s.atAccept with env := s.withoutRequest.env } := by
  have he : s.withoutRequest.environment.startTick =
      { s.environment.startTick with env := s.withoutRequest.env } := by
    simp only [State.environment, show s.withoutRequest.tickInput.reset = s.tickInput.reset from rfl]
    split <;> rfl
  unfold State.atAccept
  rw [he]
  refine runFor_env _ _ _ fun l => ?_
  simp [State.input, State.environment]
  split <;> rfl

/-- The environment's part of a tick without a reset event keeps the invariant (R17). -/
theorem environment_midInv {s : State} (h : s.Inv) (hr : s.tickInput.reset = false) : s.environment.MidInv := by
  obtain ⟨h1, h2, h3, h4, h5, h6, h7, h8, h9, h10, h11, h12, h13⟩ := h.mid
  rw [environment_of_no_reset hr]
  exact ⟨h1, by simp [State.driven], h3, h4, h5, h6, h7, h8, h9, h10, h11, h12, h13⟩

/-- The end of a tick keeps the invariant once the run loop has ended (R100 (d)). -/
theorem endTick_inv {m : State} (h : m.MidInv) (hr : m.running = false) : m.endTick.Inv := by
  obtain ⟨g1, g2, g3, g4, g5, g6, g7, g8, g9⟩ := h.inv hr
  exact ⟨g1, g2, g3, g4, g5, g6, fun hb => by simp [State.endTick, g7 hb], g8, g9⟩

/-- A tick at which the host does nothing keeps to its duty and has a next state, in which the invariant holds (R100). -/
theorem step_quiet {s : State} (h : s.Inv) (hr : s.tickInput.reset = false) (hq : s.presented = none) :
    s.HostDisciplined ∧ ∃ t, step s = .next t ∧ t.Inv ∧ t.env = s.env.tail := by
  refine ⟨(hostDisciplined_iff s).mpr ⟨by simp [hr], by simp [hq]⟩, ?_⟩
  have hm := (environment_midInv h hr).startTick
  refine ⟨_, step_of_run h.admissible hr rfl hm.run_stops (.inr (by rw [environment_presented, hq])),
    endTick_inv hm.run hm.run_stops, ?_⟩
  show s.environment.startTick.run.env.tail = _
  rw [(run_sameContext _).env, environment_of_no_reset hr]; rfl

/-- So has a tick at which a ready engine accepts a request (R94). -/
theorem step_accepts {s : State} {i : Instr} (h : s.Inv) (hr : s.tickInput.reset = false) (hp : s.presented = some i)
    (hrd : s.ready = true) : ∃ t, step s = .next t ∧ t.Inv ∧ t.env = s.env.tail := by
  have he := environment_of_no_reset hr
  have hm := ((environment_midInv h hr).startTick).accept i (by rw [he]; exact hrd)
  refine ⟨_, step_of_accept h.admissible hr hp hrd hm.run_stops, endTick_inv hm.run hm.run_stops, ?_⟩
  show (acceptInstr i s.environment.startTick).run.env.tail = _
  rw [(run_sameContext _).env, he]
  cases i <;> rfl

/-- A program whose host does nothing for `n` ticks is not refused at them. -/
theorem programRun_quiet (n : Nat) : ∀ s : State, s.Inv → (∀ k, k < n → (s.inputsAhead k).req = none) → s.NoReset n →
    ∃ t, programRun n s = .ran t := by
  induction n with
  | zero => exact fun s _ _ _ => ⟨s, rfl⟩
  | succ n ih =>
    intro s hI hq hr
    have h0 : s.inputsAhead 0 = s.tickInput := by
      simp [State.inputsAhead, State.tickInput, List.headD_eq_head?_getD, List.head?_eq_getElem?]
    obtain ⟨hd, t, ht, htI, hte⟩ := step_quiet hI (by rw [← h0]; exact hr 0 (by omega))
      (by simp [State.presented, ← h0, hq 0 (by omega)])
    have hin : ∀ k, t.inputsAhead k = s.inputsAhead (k + 1) := fun k => by simp [State.inputsAhead, hte]
    rw [programRun_next n hd ht]
    exact ih t htI (fun k hk => by rw [hin]; exact hq _ (by omega)) fun k hk => by rw [hin]; exact hr _ (by omega)

/-- A call goes on exactly while there is no `done` and, in the call of a READ, no `fault` (R93). -/
theorem callEnds_eq_none {σ : Type} (i : Instr) (c : State × σ) :
    callEnds i c = none ↔ c.1.done = false ∧ (i.dir = .read → c.1.fault = false) := by
  unfold callEnds
  by_cases h1 : c.1.done = true
  · simp [h1]
  · by_cases h2 : i.dir = .read ∧ c.1.fault = true
    · simp [h1, h2]
    · simp only [h1, h2, if_false, Bool.false_eq_true, true_iff]
      exact ⟨by simp, fun h => by simp_all⟩

/-- One tick of a call that does not end it. -/
theorem awaitEnd_goes_on {σ : Type} {P : Peripheral σ} {i : Instr} {c c' : State × σ} (n : Nat)
    (ht : coupledTick P c none = some c') (hn : callEnds i c' = none) : awaitEnd P i (n + 1) c = awaitEnd P i n c' := by
  simp [awaitEnd, ht, hn]

/-- The tick at which a call ends. -/
theorem awaitEnd_ends {σ : Type} {P : Peripheral σ} {i : Instr} {c c' : State × σ} {r : CallResult σ} (n : Nat)
    (ht : coupledTick P c none = some c') (hr : callEnds i c' = some r) : awaitEnd P i (n + 1) c = r := by
  simp [awaitEnd, ht, hr]

/-- A register holds what was last written to it (R37). -/
theorem memRead_memWrite (m : RegSpace) (a : BitVec 6) (v : Word) : memRead (memWrite m a v) a = v := by
  simp [memRead, memWrite]

/-- A peripheral with the effects that R37 gives echoes: the definition of R37 follows from the form taken here (log entry 26). -/
theorem Conforming.echoes {σ : Type} {P : Peripheral σ} {rest : State × σ → Prop} {view : σ → RegSpace} {n : Nat}
    {w : BitVec 2} (h : Conforming P rest view n w) : Echoes P rest n w := by
  intro c hc a v
  obtain ⟨c1, h1, hr, hv⟩ := h.write c hc a v
  obtain ⟨c2, h2, -, -⟩ := h.read c1 hr a
  rw [hv, memRead_memWrite] at h2
  exact ⟨c1, c2, h1, h2⟩

end Sys2Proof.Machine
end

