-- ==== Sys2Proof/Laws/Coupling.lean ====
section
/-! SUPPORT. The engine coupled with a peripheral runs as the engine alone does on a script: the inputs that the peripheral turns out to
give it. So what is known of runs of ticks is known of the host's calls. -/

namespace Sys2Proof.Machine
open Sys2Proof

/-- A tick reads only the head of the environment's script and takes it off (R12). -/
theorem step_env (s : State) (env : List TickInput) (h : env.headD TickInput.silent = s.tickInput) :
    step { s with env := env } = mapNext (fun t => { t with env := env.tail }) (step s) := by
  have hin : ∀ (u : State), u.env = s.env → ∀ l, ({ u with env := env } : State).input l = u.input l := by
    intro u hu l
    simp only [State.input, State.tickInput, h, hu]
  have hE : ({ s with env := env } : State).environment = { s.environment with env := env } := by
    simp only [State.environment, State.driven, show ({ s with env := env } : State).tickInput = s.tickInput from h]
    by_cases hr : s.tickInput.reset = true
    · simp only [hr, if_true]; rfl
    · simp only [hr]; rfl
  have henv : s.environment.env = s.env := by simp only [State.environment]; split <;> rfl
  have hrun : ∀ u : State, u.env = s.env → ({ u with env := env } : State).run = { u.run with env := env } :=
    fun u hu => runFor_env _ u env (hin u hu)
  have htick : ∀ accept : State → State, (∀ u : State, accept { u with env := env } = { accept u with env := env }) →
      (∀ u, (accept u).env = u.env) →
      engineTick accept { s.environment with env := env } =
        mapNext (fun t => { t with env := env }) (engineTick accept s.environment) := by
    intro accept ha hae
    have h1 : ({ s.environment with env := env } : State).startTick.run = { s.environment.startTick.run with env := env } :=
      hrun s.environment.startTick henv
    have hre : s.environment.startTick.run.env = s.env := ((run_sameContext _).env).trans henv
    have h2 : ({ s.environment with env := env } : State).runAccept accept =
        { s.environment.runAccept accept with env := env } := by
      simp only [State.runAccept, h1]
      rw [show ({ s.environment.startTick.run with env := env } : State).ready = s.environment.startTick.run.ready from rfl]
      split
      · rw [ha, hrun _ ((hae _).trans hre)]
      · rfl
    simp only [engineTick, h2]
    rw [show ({ s.environment.runAccept accept with env := env } : State).running =
      (s.environment.runAccept accept).running from rfl]
    by_cases hA : s.environment.cfg.Admissible
    · rw [if_pos hA, if_pos hA]
      cases (s.environment.runAccept accept).running <;> rfl
    · rw [if_neg hA, if_neg hA]; rfl
  have hp : ({ s.environment with env := env } : State).presented = s.environment.presented := by
    simp only [State.presented, State.tickInput, h, henv]
  have hcases : ∀ o, mapNext State.nextTick (mapNext (fun t => { t with env := env }) o) =
      mapNext (fun t => { t with env := env.tail }) (mapNext State.nextTick o) := by
    intro o; cases o <;> rfl
  simp only [step, hE, hp]
  cases s.environment.presented with
  | none =>
    show mapNext State.nextTick (engineTick id _) = _
    rw [htick id (fun _ => rfl) fun _ => rfl, hcases]; rfl
  | some i =>
    show mapNext State.nextTick (exec i _) = mapNext _ (mapNext _ (exec i _))
    rw [exec_eq_acceptInstr, exec_eq_acceptInstr, htick (acceptInstr i) (fun _ => by cases i <;> rfl)
      fun _ => by cases i <;> rfl, hcases]

/-- What no tick changes, and what every tick advances: the parameters stay, the script is one tick on, and so is the time (R12, R32). -/
theorem step_context {s t : State} (h : step s = .next t) : t.cfg = s.cfg ∧ t.env = s.env.tail ∧ t.now = s.now + 1 := by
  have hE : s.environment.cfg = s.cfg ∧ s.environment.env = s.env ∧ s.environment.now = s.now := by
    simp only [State.environment]; split <;> exact ⟨rfl, rfl, rfl⟩
  have key : ∀ (accept : State → State) (v : State), (∀ u, (accept u).cfg = u.cfg ∧ (accept u).env = u.env ∧ (accept u).now = u.now) →
      engineTick accept s.environment = .next v → v.cfg = s.cfg ∧ v.env = s.env ∧ v.now = s.now := by
    intro accept v ha hv
    have hr := run_sameContext s.environment.startTick
    have hq := run_sameContext (accept s.environment.startTick.run)
    obtain ⟨a1, a2, a3⟩ := ha s.environment.startTick.run
    unfold engineTick at hv
    split at hv
    · simp only at hv
      split at hv
      · cases hv
      · cases hv
        rcases runAccept_cases s.environment accept with ⟨-, hc⟩ | ⟨-, hc⟩ <;> rw [hc]
        · exact ⟨(hq.cfg.trans a1).trans (hr.cfg.trans hE.1), (hq.env.trans a2).trans (hr.env.trans hE.2.1),
            (hq.now.trans a3).trans (hr.now.trans hE.2.2)⟩
        · exact ⟨hr.cfg.trans hE.1, hr.env.trans hE.2.1, hr.now.trans hE.2.2⟩
    · cases hv
  have hout : ∀ o : Host.Outcome State Fault Refusal,
      (∀ v, o = .next v → v.cfg = s.cfg ∧ v.env = s.env ∧ v.now = s.now) → mapNext State.nextTick o = .next t →
      t.cfg = s.cfg ∧ t.env = s.env.tail ∧ t.now = s.now + 1 := by
    intro o ho hm
    cases o with
    | next v =>
      obtain ⟨h1, h2, h3⟩ := ho v rfl
      cases hm
      exact ⟨h1, by rw [← h2]; rfl, by rw [← h3]; rfl⟩
    | fault _ => cases hm
    | refused _ => cases hm
  refine hout _ (fun v hv => ?_) h
  cases hp : s.environment.presented with
  | none => rw [hp] at hv; exact key id v (fun _ => ⟨rfl, rfl, rfl⟩) hv
  | some i =>
    rw [hp] at hv
    exact key (acceptInstr i) v (fun _ => by cases i <;> exact ⟨rfl, rfl, rfl⟩) (by rw [← exec_eq_acceptInstr]; exact hv)

/-- A run of ticks of the engine with a peripheral, `r` presented at the first. -/
def coupledTicks {σ : Type} (P : Peripheral σ) : Nat → State × σ → Option Request → Option (State × σ)
  | 0, c, _ => some c
  | n + 1, c, r => (coupledTick P c r).bind fun c' => coupledTicks P n c' none

theorem coupledTicks_context {σ : Type} (P : Peripheral σ) (n : Nat) : ∀ (c d : State × σ) (r : Option Request),
    coupledTicks P n c r = some d → d.1.cfg = c.1.cfg ∧ d.1.now = c.1.now + n := by
  induction n with
  | zero => intro c d r h; simp only [coupledTicks, Option.some.injEq] at h; simp [h]
  | succ n ih =>
    intro c d r h
    cases ho : step (coupledState P c r) with
    | next v =>
      obtain ⟨h1, -, h3⟩ := step_context ho
      simp only [coupledTicks, coupledTick, ho, Option.bind_some] at h
      obtain ⟨g1, g2⟩ := ih _ _ _ h
      exact ⟨g1.trans h1, by rw [g2, h3, show (coupledState P c r).now = c.1.now from rfl]; omega⟩
    | fault _ => simp [coupledTicks, coupledTick, ho] at h
    | refused _ => simp [coupledTicks, coupledTick, ho] at h

/-- The inputs that the peripheral turns out to give at the next `n` ticks. -/
def coupledScript {σ : Type} (P : Peripheral σ) : Nat → State × σ → Option Request → List TickInput
  | 0, _, _ => []
  | n + 1, c, r =>
    coupledInput P c.2 c.1.cfg c.1.now r ::
      match coupledTick P c r with
      | some c' => coupledScript P n c' none
      | none => []

/-- The engine on that script runs as it does with the peripheral. -/
theorem coupled_ticks {σ : Type} (P : Peripheral σ) (k : Nat) : ∀ (n : Nat) (c : State × σ) (r : Option Request) (t : State),
    k ≤ n → ticks k { c.1 with env := coupledScript P n c r } = .next t →
    ∃ u m, coupledTicks P k c r = some (u, m) ∧ t = { u with env := (coupledScript P n c r).drop k } := by
  induction k with
  | zero =>
    intro n c r t _ h
    simp only [ticks, Host.Outcome.next.injEq] at h
    exact ⟨c.1, c.2, rfl, by simp [← h]⟩
  | succ k ih =>
    intro n c r t hn h
    obtain ⟨n, rfl⟩ : ∃ q, n = q + 1 := ⟨n - 1, by omega⟩
    have hs : step { c.1 with env := coupledScript P (n + 1) c r } =
        mapNext (fun t => { t with env := (coupledScript P (n + 1) c r).tail }) (step (coupledState P c r)) :=
      step_env (coupledState P c r) _ rfl
    rw [ticks, hs] at h
    cases ho : step (coupledState P c r) with
    | fault _ => rw [ho] at h; exact absurd h (by simp [mapNext])
    | refused _ => rw [ho] at h; exact absurd h (by simp [mapNext])
    | next v =>
      have ht : coupledTick P c r = some (v, P.tick c.2 c.1.now v.port) := by simp [coupledTick, ho]
      have hsc : (coupledScript P (n + 1) c r).tail = coupledScript P n (v, P.tick c.2 c.1.now v.port) none := by
        simp [coupledScript, ht]
      rw [ho] at h
      simp only [mapNext, hsc] at h
      obtain ⟨u, m, h1, h2⟩ := ih n (v, P.tick c.2 c.1.now v.port) none t (by omega) h
      refine ⟨u, m, by simp [coupledTicks, ht, h1], ?_⟩
      rw [h2, ← hsc]; simp

theorem coupledInput_line {σ : Type} (P : Peripheral σ) (m : σ) {cfg : Config} (hA : cfg.Admissible) (now t : Nat)
    (r : Option Request) (l : InLine) : (coupledInput P m cfg now r).line cfg t l = P.drives m l := by
  obtain ⟨-, -, -, -, -, -, -, -, -, -, h1, h2, h3, -⟩ := hA
  cases l <;> simp [TickInput.line, coupledInput, inIndex, h1, h2, Ne.symm h3]

/-- What the script gives at each tick: what the peripheral drives then, the request at the first tick alone, and no reset event. -/
theorem coupledScript_at {σ : Type} (P : Peripheral σ) (k : Nat) : ∀ (n : Nat) (c : State × σ) (r : Option Request)
    (i : TickInput), c.1.cfg.Admissible → (coupledScript P n c r)[k]? = some i →
    i.reset = false ∧ (i.req = if k = 0 then r else none) ∧
    ∃ d, coupledTicks P k c r = some d ∧ ∀ t l, i.line c.1.cfg t l = P.drives d.2 l := by
  induction k with
  | zero =>
    intro n c r i hA h
    cases n with
    | zero => simp [coupledScript] at h
    | succ n =>
      simp only [coupledScript, List.getElem?_cons_zero, Option.some.injEq] at h
      exact ⟨by rw [← h]; rfl, by rw [← h]; rfl, c, rfl, fun t l => by rw [← h]; exact coupledInput_line P _ hA _ _ _ _⟩
  | succ k ih =>
    intro n c r i hA h
    cases n with
    | zero => simp [coupledScript] at h
    | succ n =>
      simp only [coupledScript, List.getElem?_cons_succ] at h
      cases ht : coupledTick P c r with
      | none => rw [ht] at h; simp at h
      | some c' =>
        have hc : c'.1.cfg = c.1.cfg := (coupledTicks_context P 1 c c' r (by simp [coupledTicks, ht])).1
        rw [ht] at h
        obtain ⟨h1, h2, d, h3, h4⟩ := ih n c' none i (by rw [hc]; exact hA) h
        exact ⟨h1, by simpa using h2, d, by simp [coupledTicks, ht, h3], fun t l => by rw [← hc]; exact h4 t l⟩

/-- A call ends at the first tick after its request at which `callEnds` says so, if the ticks allowed reach it. -/
theorem hostCall_ends {σ : Type} {P : Peripheral σ} {i : Instr} {r : CallResult σ} {c c' : State × σ} {j n : Nat} (hn : j < n)
    (hk : ∀ k, k < j → ∃ d, coupledTicks P (k + 2) c (some (requestOfInstr i)) = some d ∧ callEnds i d = none)
    (h : coupledTicks P (j + 2) c (some (requestOfInstr i)) = some c') (hr : callEnds i c' = some r) :
    hostCall P n i c = r := by
  have await : ∀ j n (d : State × σ), j < n →
      (∀ k, k < j → ∃ e, coupledTicks P (k + 1) d none = some e ∧ callEnds i e = none) →
      coupledTicks P (j + 1) d none = some c' → awaitEnd P i n d = r := by
    intro j
    induction j with
    | zero =>
      intro n d hn _ h
      obtain ⟨n, rfl⟩ : ∃ q, n = q + 1 := ⟨n - 1, by omega⟩
      exact awaitEnd_ends n (by simpa [coupledTicks] using h) hr
    | succ j ih =>
      intro n d hn hk h
      obtain ⟨n, rfl⟩ : ∃ q, n = q + 1 := ⟨n - 1, by omega⟩
      obtain ⟨e, he, hen⟩ := hk 0 (by omega)
      replace he : coupledTick P d none = some e := by simpa [coupledTicks] using he
      rw [awaitEnd_goes_on n he hen]
      refine ih n e (by omega) (fun k hk' => ?_) (by simpa [coupledTicks, he] using h)
      obtain ⟨f, h1, h2⟩ := hk (k + 1) (by omega)
      exact ⟨f, by simpa [coupledTicks, he] using h1, h2⟩
  cases ht : coupledTick P c (some (requestOfInstr i)) with
  | none => simp [coupledTicks, ht] at h
  | some d =>
    simp only [hostCall, ht]
    exact await j n d hn (fun k hk' => by simpa [coupledTicks, ht] using hk k hk') (by simpa [coupledTicks, ht] using h)

/-- A call that has not ended within the ticks allowed is still waiting. -/
theorem hostCall_waits {σ : Type} {P : Peripheral σ} {i : Instr} {c d : State × σ} {n : Nat}
    (hd : coupledTicks P (n + 1) c (some (requestOfInstr i)) = some d)
    (hk : ∀ k, k < n → ∃ e, coupledTicks P (k + 2) c (some (requestOfInstr i)) = some e ∧ callEnds i e = none) :
    hostCall P n i c = .waiting d := by
  have await : ∀ n (d e : State × σ), (∀ k, k < n → ∃ e, coupledTicks P (k + 1) d none = some e ∧ callEnds i e = none) →
      coupledTicks P n d none = some e → awaitEnd P i n d = .waiting e := by
    intro n
    induction n with
    | zero => intro d e _ h; simp only [coupledTicks, Option.some.injEq] at h; rw [h]; rfl
    | succ n ih =>
      intro d e hk h
      obtain ⟨f, hf, hfn⟩ := hk 0 (by omega)
      replace hf : coupledTick P d none = some f := by simpa [coupledTicks] using hf
      rw [awaitEnd_goes_on n hf hfn]
      refine ih f e (fun k hk' => ?_) (by simpa [coupledTicks, hf] using h)
      obtain ⟨g, h1, h2⟩ := hk (k + 1) (by omega)
      exact ⟨g, by simpa [coupledTicks, hf] using h1, h2⟩
  cases ht : coupledTick P c (some (requestOfInstr i)) with
  | none => simp [coupledTicks, ht] at hd
  | some f =>
    simp only [hostCall, ht]
    exact await n f d (fun k hk' => by simpa [coupledTicks, ht] using hk k hk') (by simpa [coupledTicks, ht] using hd)

end Sys2Proof.Machine
end

