-- ==== Sys2Proof/Laws/Flight.lean ====
section
/-! SUPPORT. A transaction from the tick of its acceptance on: the ticks of the machine while the engine waits inside it, and the tick at
which it ends. -/

namespace Sys2Proof.Machine
open Sys2Proof

/-- `RDATA` changes only with the event `done` (R97). -/
theorem run_done (s : State) : s.done = true ∨ s.run.rdata ≠ s.rdata → s.run.done = true := by
  have : s.run.done = true ∨ (s.run.done = s.done ∧ s.run.rdata = s.rdata) := by
    refine runFor_keeps (P := fun t => t.done = true ∨ (t.done = s.done ∧ t.rdata = s.rdata)) ?_ _ s (.inr ⟨rfl, rfl⟩)
    rintro t hr h2
    unfold State.microStep
    split
    · rename_i p op _
      cases op <;> simp only [MicroOp.exec]
      case poll => rw [pollRound_eq]; split <;> [skip; split] <;> exact h2
      case sampleMiso => rw [sampleData_eq]; split <;> exact h2
      case complete => exact .inl rfl
      all_goals exact h2
    · exact h2
  grind

theorem fin_descriptor (n : Nat) : ∀ m : State, (fin n m).dir = m.dir ∧ (fin n m).width = m.width ∧
    (fin n m).addr = m.addr ∧ (fin n m).wdata = m.wdata ∧ (fin n m).cfg = m.cfg := by
  induction n with
  | zero => intro m; have h := run_sameContext m; exact ⟨h.dir, h.width, h.addr, h.wdata, h.cfg⟩
  | succ n ih =>
    intro m
    have h := run_sameContext m
    obtain ⟨a, b, c, d, e⟩ := ih m.enterNext
    exact ⟨a.trans h.dir, b.trans h.width, c.trans h.addr, d.trans h.wdata, e.trans h.cfg⟩

/-- The descriptor latch does not change while nothing is accepted (R46). -/
theorem fin_latched (n : Nat) (m : State) : latchedInstr (fin n m) = latchedInstr m := by
  obtain ⟨a, b, c, d, -⟩ := fin_descriptor n m
  simp [latchedInstr, a, b, c, d]

theorem run_rdata {m : State} (h : m.run.done = false) : m.run.rdata = m.rdata := by
  by_contra hne
  rw [run_done m (.inr hne)] at h
  cases h

/-- `RDATA` does not change before `done`. -/
theorem fin_rdata (n : Nat) : ∀ m : State, (∀ i, i ≤ n → (fin i m).done = false) → (fin n m).rdata = m.rdata := by
  induction n with
  | zero => exact fun m h => run_rdata (h 0 (Nat.le_refl 0))
  | succ n ih =>
    intro m h
    rw [fin, ih m.enterNext (fun i hi => h (i + 1) (by omega))]
    exact run_rdata (h 0 (by omega))

/-- The engine inside the tick of an acceptance, the request just accepted (R94). -/
def State.opened (s : State) (i : Instr) : State := acceptInstr i s.environment.startTick

theorem opened_facts {s : State} {i : Instr} (hr : s.tickInput.reset = false) (hrd : s.ready = true) :
    (s.opened i).cfg = s.cfg ∧ (s.opened i).env = s.env ∧ (s.opened i).now = s.now ∧
    (s.opened i).port.triple = s.port.triple ∧ latchedInstr (s.opened i) = i ∧ (s.opened i).done = false ∧
    (s.opened i).fault = false ∧ (s.opened i).rdata = s.rdata ∧ (s.opened i).xnormCount = s.xnormCount ∧
    (s.opened i).faultCode = s.faultCode := by
  have hf := ((ready_iff s).mp hrd).2
  unfold State.opened
  rw [environment_of_no_reset hr]
  cases i <;> simp [acceptInstr, acceptWrite, acceptRead, State.beginTransaction, State.startTick, latchedInstr,
    OutPort.triple, hf]

theorem opened_due {s : State} {i : Instr} (hr : s.tickInput.reset = false) (hrd : s.ready = true) :
    Due (s.opened i) (microSeq s.cfg i) := by
  obtain ⟨h1, -, -, -, h5, h6, h7, -⟩ := opened_facts (i := i) hr hrd
  have hp : (s.opened i).phase = .preamble := by cases i <;> rfl
  have hpos : (s.opened i).pos = 0 := by cases i <;> rfl
  have hw : (s.opened i).waitcnt = 0 := by cases i <;> rfl
  refine ⟨by simp [State.busy, hp], hw, ?_, h6, h7⟩
  rw [hpos, State.seq, h5, h1]; rfl

theorem begins_reset {s : State} {i : Instr} {n : Nat} (h : s.Begins i (n + 1)) : s.tickInput.reset = false := by
  have := h.2.2.2 0 (by omega)
  rwa [State.inputsAhead, ← List.head?_eq_getElem?, ← List.headD_eq_head?_getD] at this

/-- What a wire waveform says of every tick of it. -/
theorem in_flight {m : State} {T : Nat} {ws : List Triple} (h : obs T m = ws.map inFlight) {i : Nat} (hi : i < T) :
    (fin i m).busy = true ∧ 0 < (fin i m).waitcnt ∧ (fin i m).done = false ∧ (fin i m).fault = false := by
  have hl := congrArg List.length h
  simp only [obs, List.length_map, List.length_range] at hl
  have := congrArg (fun l => l[i]?) h
  simp [obs, hi, show i < ws.length by omega, seen, inFlight] at this
  tauto

/-- While a transaction is in flight, and at the tick at which it ends, the ticks of the machine are those of the calculus. -/
theorem flight {s : State} {i : Instr} {T : Nat} {ws : List Triple} (hB : s.Begins i (T + 1))
    (h : obs T (s.opened i) = ws.map inFlight) (hend : (fin T (s.opened i)).running = false)
    (hreq : (fin T (s.opened i)).ready = false ∨ (s.inputsAhead T).req = none) :
    (∀ n, n ≤ T → ticks (n + 1) s = .next (fin n (s.opened i)).endTick) ∧
    visited (T + 1) s = (List.range (T + 1)).map fun n => (fin n (s.opened i)).endTick := by
  have hr := begins_reset hB
  obtain ⟨h1, h2, -⟩ := opened_facts (i := i) hr hB.2.1
  have hin : ∀ k, (s.opened i).inputsAhead k = s.inputsAhead k := by intro k; simp [State.inputsAhead, h2]
  have hnr : ∀ k, k ≤ T → (fin k (s.opened i)).running = false := by
    intro k hk
    rcases Nat.lt_or_ge k T with h' | h'
    · exact not_running_of_wait (in_flight h h').2.1
    · rwa [Nat.le_antisymm hk h']
  have hst := step_of_accept hB.1.admissible hr hB.2.2.1 hB.2.1 (hnr 0 (by omega))
  have key := fun (n : Nat) (hn : n ≤ T) => ticks_eq_fin (m := s.opened i) n (by rw [h1]; exact hB.1.admissible)
    (fun k hk => hnr k (by omega))
    (fun k _ hk => by
      rcases Nat.lt_or_ge k T with h' | h'
      · exact .inl (not_ready_of_busy (in_flight h h').1)
      · rw [Nat.le_antisymm (by omega : k ≤ T) h', hin]; exact hreq)
    (fun k _ hk => by rw [hin]; exact hB.2.2.2 k (by omega))
  refine ⟨fun n hn => ?_, ?_⟩
  · simp only [ticks, hst]
    exact (key n hn).1
  · have hv : visited (T + 1) s = (s.opened i).run.endTick :: visited T (s.opened i).run.endTick := by
      simp only [visited, hst, State.opened]
    rw [hv, (key T (Nat.le_refl T)).2, List.range_succ_eq_map]
    simp [fin, Function.comp_def]

/-- The wire while a transaction is in flight. -/
theorem flight_trace {s : State} {i : Instr} {T : Nat} {ws : List Triple} (hB : s.Begins i (T + 1))
    (h : obs (T + 1) (s.opened i) = ws.map inFlight) : (trace (T + 1) s).map OutPort.triple = ws := by
  have hT := in_flight h (Nat.lt_succ_self T)
  have h' : obs T (s.opened i) = (ws.take T).map inFlight := by
    rw [List.map_take, ← h]
    simp only [obs]
    rw [← List.map_take, List.take_range, Nat.min_eq_left (Nat.le_succ T)]
  have := (flight hB h' (not_running_of_wait hT.2.1) (.inl (not_ready_of_busy hT.1))).2
  have hw := congrArg (List.map Prod.fst) h
  simp only [obs, List.map_map] at hw
  rw [show (Prod.fst ∘ inFlight) = id from rfl, List.map_id] at hw
  rw [trace, this, ← hw, List.map_map, List.map_map]
  rfl

/-- The tick of `Complete` (R97). -/
theorem complete_end {m : State} (hd : Due m [(.teardown, .complete)]) :
    fin 0 m = { m with
      phase := .idle, rdata := if m.dir = .read then m.rxacc else m.rdata, done := true, pos := m.pos + 1 } := by
  rw [fin_op hd.running hd.ops]
  show State.run _ = _
  rw [run_of_not_running]
  · rfl
  · simp [State.running, State.busy, MicroOp.exec]

end Sys2Proof.Machine
end

