-- ==== Sys2Proof/Laws/PerInstr.lean ====
section
/-! SUPPORT. The statement made of every operation as syntax: it is well-formed, and its frame has the length its CMD bit announces and 23
zero PAD bits (R60, R61), whatever the CMD values. -/

namespace Sys2Proof.Laws.FrameShape
open Sys2Proof

/-- The length of a frame (R61). -/
def frameLength : Dir → Nat
  | .write => 64
  | .read => 32

/-- The shape of the frame of an operation. -/
def Statement (i : Instr) : Prop :=
  i.wellFormed = true ∧ ∀ cfg : Config,
    (encode cfg i).length = frameLength i.dir ∧ (encode cfg i)[0]? = some (cmdBit cfg i.dir) ∧
    padIsZero (encode cfg i) = true

theorem wellFormed_all (i : Instr) : i.wellFormed = true := by
  cases i <;> simp [Instr.wellFormed, Instr.toCall, Call.wellFormed, addressFits, dataFits, widthFits] <;> omega

theorem padIsZero_encodeCmd (cfg : Config) (dir : Dir) (w : BitVec 2) (a : BitVec 6) (rest : List Bool) :
    padIsZero (encodeCmd cfg dir w a ++ rest) = true := by
  have h : field (encodeCmd cfg dir w a ++ rest) 3 23 = bitsMsb (0#23) := rfl
  rw [padIsZero, h]
  decide

theorem write (address : BitVec 6) (data : Word) (width : BitVec 2) : Statement (.write address data width) :=
  ⟨wellFormed_all _, fun cfg => ⟨encodeWrite_length cfg width address data, rfl, padIsZero_encodeCmd _ _ _ _ _⟩⟩

theorem read (address : BitVec 6) (width : BitVec 2) : Statement (.read address width) :=
  ⟨wellFormed_all _, fun cfg => ⟨encodeRead_length cfg width address, rfl, by
    have := padIsZero_encodeCmd cfg .read width address []
    rwa [List.append_nil] at this⟩⟩

end Sys2Proof.Laws.FrameShape
end

