-- ==== Sys2Proof/Laws/Phases.lean ====
section
/-! SUPPORT. The phase of every position of the two sequences (R98). -/

namespace Sys2Proof.Machine
open Sys2Proof

theorem map_fst_tagged (p : Phase) (ops : List MicroOp) : (tagged p ops).map Prod.fst = List.replicate ops.length p := by
  simp [tagged, Function.comp_def, List.map_const']

theorem sendBits_length (cfg : Config) (bs : List Bool) : (sendBits cfg bs).length = 5 * bs.length := by
  simp [sendBits, sendBit, Nat.mul_comm]

theorem sendField_length (cfg : Config) {n : Nat} (v : BitVec n) : (sendField cfg v).length = 5 * n := by
  rw [sendField, sendBits_length, bitsMsb_length]

theorem recvWord_length (cfg : Config) : (recvWord cfg).length = 192 := by
  have h : (recvBit cfg).length = 6 := by unfold recvBit; cases cfg.rxSample <;> rfl
  rw [recvWord, List.length_flatten, List.map_replicate, List.sum_replicate_nat, h]

theorem teardown_length (cfg : Config) : (teardown cfg).length = 2 * cfg.extraEdges + 3 := by
  simp only [teardown, tagged, List.length_map, List.length_append, extraToggle, closeFrame, List.length_flatten,
    List.map_replicate, List.sum_replicate_nat, List.length_cons, List.length_nil]
  omega

/-- The phases of the micro-operations, in order (R98). -/
theorem phases_eq (cfg : Config) (i : Instr) : (microSeq cfg i).map Prod.fst =
    List.replicate 8 .preamble ++ (List.replicate 10 .width ++ (List.replicate 115 .padding ++
      (List.replicate 30 .address ++ ((match i with
        | .write _ _ _ => List.replicate 160 .data
        | .read _ _ => List.replicate 4 .awaitReady ++ List.replicate 192 .response) ++
      List.replicate (2 * cfg.extraEdges + 3) .teardown)))) := by
  have ht : (teardown cfg).map Prod.fst = List.replicate (2 * cfg.extraEdges + 3) .teardown := by
    rw [← teardown_length, teardown, map_fst_tagged]; simp [tagged]
  rw [microSeq_eq, List.map_append, List.map_append, ht]
  cases i <;>
  simp only [txCmd, body, txData, rxResponse, tagged_append, List.append_assoc, List.map_append, map_fst_tagged,
    sendField_length, recvWord_length] <;> rfl

/-- The phase at a position says where the position is. -/
theorem phase_at {cfg : Config} {i : Instr} {n : Nat} {p : Phase} (h : ((microSeq cfg i)[n]?).map Prod.fst = some p) :
    (p = .preamble ∧ n < 8) ∨ (p = .width ∧ 8 ≤ n ∧ n < 18) ∨ (p = .padding ∧ 18 ≤ n ∧ n < 133) ∨
    (p = .address ∧ 133 ≤ n ∧ n < 163) ∨ (p = .data ∧ i.dir = .write ∧ 163 ≤ n ∧ n < 323) ∨
    (p = .awaitReady ∧ i.dir = .read ∧ 163 ≤ n ∧ n < 167) ∨ (p = .response ∧ i.dir = .read ∧ 167 ≤ n ∧ n < 359) ∨
    (p = .teardown ∧ i.dir = .write ∧ 323 ≤ n) ∨ (p = .teardown ∧ i.dir = .read ∧ 359 ≤ n) := by
  rw [← List.getElem?_map, phases_eq] at h
  cases i <;>
  simp only [List.getElem?_append, List.length_append, List.length_replicate, List.getElem?_replicate, Instr.dir] at h ⊢ <;>
  grind

end Sys2Proof.Machine
end

