-- ==== Sys2Proof/Laws/Receive.lean ====
section
/-! SUPPORT. The calculus of ticks on the sequences of R84 to R88: polls that fail, the poll that succeeds, and the response bits. -/

namespace Sys2Proof.Machine
open Sys2Proof

theorem input_phase (m : State) (p : Phase) (l : InLine) : ({ m with phase := p } : State).input l = m.input l := rfl

/-- The inputs seen `n` ticks later. -/
theorem inputAhead_shift (m : State) (n k : Nat) (l : InLine) (m' : State) (he : m'.env = m.env.drop n)
    (hn : m'.now = m.now + n) (hc : m'.cfg = m.cfg) : m'.inputAhead k l = m.inputAhead (n + k) l := by
  simp [State.inputAhead, State.inputsAhead, he, hn, hc, List.getElem?_drop, Nat.add_assoc]

/-- The start of `PollReady` (R84). -/
theorem Due.pollInit {m : State} {r : MicroSeq} (hd : Due m ((.awaitReady, .pollInit) :: r)) :
    (∀ n, fin n m = fin n { m with phase := .awaitReady, pos := m.pos + 1, pollcnt := 0 }) ∧
    Due { m with phase := .awaitReady, pos := m.pos + 1, pollcnt := 0 } r :=
  ⟨fun n => fin_op hd.running hd.ops n, rfl, hd.waitcnt, drop_succ_of_drop hd.ops, hd.done, hd.fault⟩

/-- The poll loop about to poll (R84), with `r` after it. -/
abbrev pollLoop (r : MicroSeq) : MicroSeq := (.awaitReady, .poll) :: (.awaitReady, .pollWait) :: r

/-- The engine at its next poll, after `q` polls that failed and read `x` X among them. -/
def State.polled (m : State) (q x : Nat) (o : List Bool) : State :=
  { m with
    phase := .awaitReady, pollcnt := m.pollcnt + q, xnormCount := m.xnormCount + x
    port := { m.port with other := o }, env := m.env.drop q, now := m.now + q }

/-- A poll that does not read 1 takes one tick (R84). -/
theorem Due.pollFail {m : State} {r : MicroSeq} (hd : Due m (pollLoop r)) (h1 : m.input .ready ≠ .one)
    (hx : m.cfg.xmode = .strict → m.input .ready ≠ .x) (hc : m.pollcnt < m.cfg.pollMax) :
    ∃ o, (∀ n, fin (1 + n) m = fin n (m.polled 1 (xCount (m.input .ready)) o)) ∧
      Due (m.polled 1 (xCount (m.input .ready)) o) (pollLoop r) ∧ obs 1 m = [inFlight m.port.triple] := by
  have hn : norm (m.input .ready) = false := by cases h : m.input .ready <;> simp_all [norm]
  have hop : MicroOp.exec .poll { m with phase := Phase.awaitReady } = { m with
      phase := .awaitReady, pollcnt := m.pollcnt + 1, xnormCount := m.xnormCount + xCount (m.input .ready)
      pos := m.pos + 1 } := by
    have a1 : ¬ m.pollcnt = m.cfg.pollMax := by omega
    have a2 : ¬ (m.input .ready = .x ∧ m.cfg.xmode = .strict) := fun h => hx h.2 h.1
    simp only [MicroOp.exec, pollRound_eq, input_phase, a1, a2, if_false, hn]
    simp
  set m1 : State := { m with
      phase := .awaitReady, pollcnt := m.pollcnt + 1, xnormCount := m.xnormCount + xCount (m.input .ready)
      pos := m.pos + 1 } with hm1
  have f1 : ∀ n, fin n m = fin n m1 := fun n => by rw [fin_op hd.running hd.ops n, hop]
  have r1 : m1.running = true := by simp [State.running, State.busy, hm1, hd.waitcnt]
  have f2 : ∀ n, fin n m1 = fin n { m1 with waitcnt := 1, pos := m.pos } := fun n => by
    have d1 : m1.seq.drop m1.pos = (.awaitReady, .pollWait) :: r := drop_succ_of_drop hd.ops
    rw [fin_op r1 d1 n]; congr 1
  refine ⟨m.drivenAt 1, fun n => ?_, ?_, ?_⟩
  · rw [f1, f2, fin_wait 1 n (Nat.le_refl 1)]
    simp [State.elapse, State.polled, hm1, hd.done, hd.waitcnt]
    congr 1
  · exact ⟨rfl, hd.waitcnt, hd.ops, hd.done, hd.fault⟩
  · have : fin 0 m = { m1 with waitcnt := 1, pos := m.pos } := by
      rw [f1, f2]; exact run_of_not_running (not_running_of_wait Nat.one_pos)
    simp [obs, this, seen, inFlight, State.busy, hm1, hd.done, hd.fault, OutPort.triple]

/-- `q` polls that do not read 1 take `q` ticks (R84). -/
theorem Due.pollFails {m : State} {r : MicroSeq} (q : Nat) (hph : m.phase = .awaitReady) (hd : Due m (pollLoop r))
    (h1 : ∀ i, i < q → m.inputAhead i .ready ≠ .one)
    (hx : m.cfg.xmode = .strict → ∀ i, i < q → m.inputAhead i .ready ≠ .x) (hc : m.pollcnt + q ≤ m.cfg.pollMax) :
    ∃ o, (∀ n, fin (q + n) m =
        fin n (m.polled q ((List.range q).map fun i => xCount (m.inputAhead i .ready)).sum o)) ∧
      Due (m.polled q ((List.range q).map fun i => xCount (m.inputAhead i .ready)).sum o) (pollLoop r) ∧
      obs q m = (List.replicate q m.port.triple).map inFlight := by
  induction q generalizing m with
  | zero =>
    have e : m.polled 0 0 m.port.other = m := by rcases m with ⟨⟩; simp only at hph; subst hph; rfl
    exact ⟨m.port.other, fun n => by simp [e], by simpa [e] using hd, by simp [obs]⟩
  | succ q ih =>
    obtain ⟨o1, f1, d1, w1⟩ := hd.pollFail (by rw [input_eq_inputAhead]; exact h1 0 (by omega))
      (fun hs => by rw [input_eq_inputAhead]; exact hx hs 0 (by omega)) (by omega)
    set m1 : State := m.polled 1 (xCount (m.input .ready)) o1 with hm1
    have hia : ∀ k, m1.inputAhead k .ready = m.inputAhead (k + 1) .ready := fun k => by
      rw [inputAhead_shift m 1 k .ready m1 rfl rfl rfl, Nat.add_comm]
    obtain ⟨o2, f2, d2, w2⟩ := ih (m := m1) rfl d1 (fun i hi => by rw [hia]; exact h1 (i + 1) (by omega))
      (fun hs i hi => by rw [hia]; exact hx hs (i + 1) (by omega))
      (by show m.pollcnt + 1 + q ≤ m.cfg.pollMax; omega)
    have e : m1.polled q ((List.range q).map fun i => xCount (m1.inputAhead i .ready)).sum o2 =
        m.polled (q + 1) ((List.range (q + 1)).map fun i => xCount (m.inputAhead i .ready)).sum o2 := by
      simp only [hia]
      rw [List.range_succ_eq_map, List.map_cons, List.map_map, List.sum_cons, ← input_eq_inputAhead]
      have hcomp : ((fun i => xCount (m.inputAhead i InLine.ready)) ∘ Nat.succ) =
          fun i => xCount (m.inputAhead (i + 1) InLine.ready) := rfl
      rw [hcomp]
      simp only [hm1, State.polled, List.drop_drop, Nat.add_assoc, Nat.add_comm 1 q]
    rw [e] at d2
    refine ⟨o2, fun n => ?_, d2, ?_⟩
    · rw [Nat.add_comm q 1, Nat.add_assoc, f1, f2, e, Nat.add_comm 1 q]
    · rw [Nat.add_comm q 1, obs_add f1, w1, w2]
      simp [List.replicate_succ, hm1, State.polled, OutPort.triple, Nat.add_comm 1 q]

/-- A poll that reads 1 takes no time and leaves the loop (R84). -/
theorem Due.pollHit {m : State} {r : MicroSeq} (hd : Due m (pollLoop r)) (h1 : m.input .ready = .one)
    (hc : m.pollcnt < m.cfg.pollMax) :
    (∀ n, fin n m = fin n { m with phase := .awaitReady, pollcnt := m.pollcnt + 1, pos := m.pos + 2 }) ∧
    Due { m with phase := .awaitReady, pollcnt := m.pollcnt + 1, pos := m.pos + 2 } r := by
  have hop : MicroOp.exec .poll { m with phase := Phase.awaitReady } = { m with
      phase := .awaitReady, pollcnt := m.pollcnt + 1, pos := m.pos + 2 } := by
    have a1 : ¬ m.pollcnt = m.cfg.pollMax := by omega
    simp only [MicroOp.exec, pollRound_eq, input_phase, a1, h1, if_false, norm, xCount]
    simp
  refine ⟨fun n => by rw [fin_op hd.running hd.ops n, hop], rfl, hd.waitcnt, ?_, hd.done, hd.fault⟩
  exact drop_succ_of_drop (drop_succ_of_drop hd.ops)

/-- A poll at the bound raises (R84, R110). -/
theorem Due.pollTimeout {m : State} {r : MicroSeq} (hd : Due m (pollLoop r)) (hc : m.pollcnt = m.cfg.pollMax) :
    fin 0 m = { m with
      fault := true, faultCode := 1, faultPhase := .awaitReady, phase := .fault, waitcnt := 0 } := by
  have hop : MicroOp.exec .poll { m with phase := Phase.awaitReady } = { m with
      fault := true, faultCode := 1, faultPhase := .awaitReady, phase := .fault, waitcnt := 0 } := by
    show State.pollRound _ = _
    rw [pollRound_eq, if_pos (show m.pollcnt = m.cfg.pollMax from hc)]
    rfl
  rw [fin_op hd.running hd.ops, hop]
  exact run_of_not_running (by simp [State.running, State.busy])

/-- A poll below the bound that reads X under Strict raises (R84, R111). -/
theorem Due.pollUndefined {m : State} {r : MicroSeq} (hd : Due m (pollLoop r)) (hx : m.input .ready = .x)
    (hs : m.cfg.xmode = .strict) (hc : m.pollcnt < m.cfg.pollMax) :
    fin 0 m = { m with
      fault := true, faultCode := 2, faultPhase := .awaitReady, phase := .fault, waitcnt := 0 } := by
  have hop : MicroOp.exec .poll { m with phase := Phase.awaitReady } = { m with
      fault := true, faultCode := 2, faultPhase := .awaitReady, phase := .fault, waitcnt := 0 } := by
    have a1 : ¬ m.pollcnt = m.cfg.pollMax := by omega
    simp only [MicroOp.exec, pollRound_eq, input_phase, a1, hx, hs, and_self, if_true, if_false]
    rfl
  rw [fin_op hd.running hd.ops, hop]
  exact run_of_not_running (by simp [State.running, State.busy])

/-- When in its bit period `RecvBit` samples (R87). -/
def recvOffset (c : Config) : Nat :=
  match c.rxSample with
  | .afterPair => 2 * c.tHalf
  | .betweenEdges => c.tHalf

/-- A sample of data-in that does not raise (R83, R87). -/
theorem Due.sampleMiso {m : State} {r : MicroSeq} {p : Phase} {v : Tri} (hp : Phase.busy p = true)
    (hd : Due m ((p, .sampleMiso) :: r)) (hv : m.input .miso = v) (hx : m.cfg.xmode = .strict → v ≠ .x) :
    (∀ n, fin n m = fin n { m with
      phase := p, pos := m.pos + 1, rxbit := norm v, xnormCount := m.xnormCount + xCount v }) ∧
    Due { m with phase := p, pos := m.pos + 1, rxbit := norm v, xnormCount := m.xnormCount + xCount v } r := by
  subst hv
  have hop : MicroOp.exec .sampleMiso { m with phase := p } = { m with
      phase := p, pos := m.pos + 1, rxbit := norm (m.input .miso)
      xnormCount := m.xnormCount + xCount (m.input .miso) } := by
    have a2 : ¬ (m.input .miso = .x ∧ m.cfg.xmode = .strict) := fun h => hx h.2 h.1
    simp only [MicroOp.exec, sampleData_eq, input_phase, a2, if_false]
  exact ⟨fun n => by rw [fin_op hd.running hd.ops n, hop], hp, hd.waitcnt, drop_succ_of_drop hd.ops, hd.done, hd.fault⟩

/-- A sample of data-in that reads X under Strict raises (R83, R111). -/
theorem Due.sampleUndefined {m : State} {r : MicroSeq} {p : Phase} (hd : Due m ((p, .sampleMiso) :: r))
    (hx : m.input .miso = .x) (hs : m.cfg.xmode = .strict) :
    fin 0 m = { m with fault := true, faultCode := 2, faultPhase := p, phase := .fault, waitcnt := 0 } := by
  have hop : MicroOp.exec .sampleMiso { m with phase := p } = { m with
      fault := true, faultCode := 2, faultPhase := p, phase := .fault, waitcnt := 0 } := by
    simp only [MicroOp.exec, sampleData_eq, input_phase, hx, hs, and_self, if_true]
    rfl
  rw [fin_op hd.running hd.ops, hop]
  exact run_of_not_running (by simp [State.running, State.busy])

/-- The accumulate of a response bit (R87). -/
theorem Due.accumulate {m : State} {r : MicroSeq} {p : Phase} (hp : Phase.busy p = true)
    (hd : Due m ((p, .accumulate) :: r)) :
    (∀ n, fin n m = fin n { m with phase := p, pos := m.pos + 1, rxacc := pushBit m.rxacc m.rxbit }) ∧
    Due { m with phase := p, pos := m.pos + 1, rxacc := pushBit m.rxacc m.rxbit } r :=
  ⟨fun n => fin_op hd.running hd.ops n, hp, hd.waitcnt, drop_succ_of_drop hd.ops, hd.done, hd.fault⟩

/-- The engine `n` ticks into a response, with what it has received. -/
def State.received (m : State) (n pos : Nat) (o : List Bool) (acc : Word) (b : Bool) (x : Nat) : State :=
  { m with
    phase := .response, pos := pos, port := { m.port with other := o }, env := m.env.drop n, now := m.now + n
    rxacc := acc, rxbit := b, xnormCount := m.xnormCount + x }

/-- One response bit (R87), under either sampling point: a clock pair, and the sample at its offset. -/
theorem Due.recvBit {m : State} {r : MicroSeq} {v : Tri} (hd : Due m (tagged .response (recvBit m.cfg) ++ r))
    (hv : m.inputAhead (recvOffset m.cfg) .miso = v) (hx : m.cfg.xmode = .strict → v ≠ .x)
    (hcs : m.port.cs = m.cfg.csActive) :
    ∃ o, (∀ n, fin (2 * m.cfg.tHalf + n) m = fin n (m.received (2 * m.cfg.tHalf) (m.pos + 6) o
        (pushBit m.rxacc (norm v)) (norm v) (xCount v))) ∧
      Due (m.received (2 * m.cfg.tHalf) (m.pos + 6) o (pushBit m.rxacc (norm v)) (norm v) (xCount v)) r ∧
      obs (2 * m.cfg.tHalf) m = (bitWave m.cfg m.port.sck m.port.mosi).map inFlight := by
  have hp : Phase.busy .response = true := rfl
  cases hrx : m.cfg.rxSample with
  | afterPair =>
    have hoff : recvOffset m.cfg = 2 * m.cfg.tHalf := by simp [recvOffset, hrx]
    simp only [tagged, Machine.recvBit, hrx, List.map_cons, List.map_nil, List.cons_append, List.nil_append] at hd
    obtain ⟨f1, d1⟩ := hd.sckInvert hp
    obtain ⟨o1, f2, d2, w2⟩ := d1.wait hp
    obtain ⟨f3, d3⟩ := d2.sckInvert hp
    obtain ⟨o2, f4, d4, w4⟩ := d3.wait hp
    simp only [Bool.not_not, List.drop_drop] at f3 f4 d4 w4
    have hin : ∀ m' : State, m'.env = m.env.drop (m.cfg.tHalf + m.cfg.tHalf) →
        m'.now = m.now + m.cfg.tHalf + m.cfg.tHalf → m'.cfg = m.cfg → m'.input .miso = v := by
      intro m' h1 h2 h3
      rw [input_eq_inputAhead, inputAhead_shift m (m.cfg.tHalf + m.cfg.tHalf) 0 .miso m' h1
        (by rw [h2, Nat.add_assoc]) h3, Nat.add_zero, ← Nat.two_mul, ← hoff, hv]
    obtain ⟨f5, d5⟩ := d4.sampleMiso hp (hin _ rfl rfl rfl) hx
    obtain ⟨f6, d6⟩ := d5.accumulate hp
    refine ⟨o2, fun n => ?_, ?_, ?_⟩
    · rw [f1, Nat.two_mul, Nat.add_assoc, f2, f3, f4, f5, f6]
      simp [State.received, Nat.add_assoc]
    · convert d6 using 1
      simp [State.received, Nat.two_mul, Nat.add_assoc]
    · rw [obs_congr f1, Nat.two_mul, obs_add f2, w2, obs_congr f3, w4]
      simp [bitWave, OutPort.triple, hcs]
  | betweenEdges =>
    have hoff : recvOffset m.cfg = m.cfg.tHalf := by simp [recvOffset, hrx]
    simp only [tagged, Machine.recvBit, hrx, List.map_cons, List.map_nil, List.cons_append, List.nil_append] at hd
    obtain ⟨f1, d1⟩ := hd.sckInvert hp
    obtain ⟨o1, f2, d2, w2⟩ := d1.wait hp
    have hin : ∀ m' : State, m'.env = m.env.drop m.cfg.tHalf → m'.now = m.now + m.cfg.tHalf → m'.cfg = m.cfg →
        m'.input .miso = v := by
      intro m' h1 h2 h3
      rw [input_eq_inputAhead, inputAhead_shift m m.cfg.tHalf 0 .miso m' h1 h2 h3, Nat.add_zero, ← hoff, hv]
    obtain ⟨f3, d3⟩ := d2.sampleMiso hp (hin _ rfl rfl rfl) hx
    obtain ⟨f4, d4⟩ := d3.sckInvert hp
    obtain ⟨o2, f5, d5, w5⟩ := d4.wait hp
    simp only [Bool.not_not, List.drop_drop] at f5 d5 w5 f4
    obtain ⟨f6, d6⟩ := d5.accumulate hp
    refine ⟨o2, fun n => ?_, ?_, ?_⟩
    · rw [f1, Nat.two_mul, Nat.add_assoc, f2, f3, f4, f5, f6]
      simp [State.received, Nat.add_assoc]
    · convert d6 using 1
      simp [State.received, Nat.two_mul, Nat.add_assoc]
    · rw [obs_congr f1, Nat.two_mul, obs_add f2, w2, obs_congr f3, obs_congr f4, w5]
      simp [bitWave, OutPort.triple, hcs]

/-- The clock at the sample of a response bit whose clock rests at `l0` (R87, R88). -/
def levelAtSample (c : Config) (l0 : Bool) : Bool :=
  match c.rxSample with
  | .afterPair => l0
  | .betweenEdges => !l0

/-- A response bit whose sample reads X under Strict (R87, R111): the bit period runs up to its sample, and the fault is raised there. -/
theorem Due.recvBitUndefined {m : State} {r : MicroSeq} (hd : Due m (tagged .response (Machine.recvBit m.cfg) ++ r))
    (hv : m.inputAhead (recvOffset m.cfg) .miso = .x) (hs : m.cfg.xmode = .strict) :
    ∃ o pos ws, fin (recvOffset m.cfg) m = { m with
        port := { m.port with sck := levelAtSample m.cfg m.port.sck, other := o }, pos := pos
        env := m.env.drop (recvOffset m.cfg), now := m.now + recvOffset m.cfg
        fault := true, faultCode := 2, faultPhase := .response, phase := .fault, waitcnt := 0 } ∧
      obs (recvOffset m.cfg) m = List.map inFlight ws := by
  have hp : Phase.busy .response = true := rfl
  have hin : ∀ m' : State, m'.env = m.env.drop (recvOffset m.cfg) → m'.now = m.now + recvOffset m.cfg → m'.cfg = m.cfg →
      m'.input .miso = .x := by
    intro m' h1 h2 h3
    rw [input_eq_inputAhead, inputAhead_shift m _ 0 .miso m' h1 h2 h3, Nat.add_zero, hv]
  cases hrx : m.cfg.rxSample with
  | afterPair =>
    have hoff : recvOffset m.cfg = m.cfg.tHalf + m.cfg.tHalf := by simp [recvOffset, hrx, Nat.two_mul]
    have hlev : levelAtSample m.cfg m.port.sck = m.port.sck := by simp [levelAtSample, hrx]
    rw [hoff] at hin ⊢
    simp only [tagged, Machine.recvBit, hrx, List.map_cons, List.map_nil, List.cons_append, List.nil_append] at hd
    obtain ⟨f1, d1⟩ := hd.sckInvert hp
    obtain ⟨o1, f2, d2, w2⟩ := d1.wait hp
    obtain ⟨f3, d3⟩ := d2.sckInvert hp
    obtain ⟨o2, f4, d4, w4⟩ := d3.wait hp
    simp only [Bool.not_not, List.drop_drop, Nat.add_assoc] at f3 f4 d4 w4
    have h5 := d4.sampleUndefined (hin _ rfl rfl rfl) hs
    refine ⟨o2, m.pos + 4, List.replicate m.cfg.tHalf (m.port.cs, !m.port.sck, m.port.mosi) ++
      List.replicate m.cfg.tHalf m.port.triple, ?_, ?_⟩
    · have f4' := f4 0
      rw [Nat.add_zero, h5] at f4'
      rw [f1, f2, f3, f4', hlev]
    · rw [obs_congr f1, obs_add f2, w2, obs_congr f3, w4, List.map_append, List.map_replicate, List.map_replicate]
      rfl
  | betweenEdges =>
    have hoff : recvOffset m.cfg = m.cfg.tHalf := by simp [recvOffset, hrx]
    have hlev : levelAtSample m.cfg m.port.sck = !m.port.sck := by simp [levelAtSample, hrx]
    rw [hoff] at hin ⊢
    simp only [tagged, Machine.recvBit, hrx, List.map_cons, List.map_nil, List.cons_append, List.nil_append] at hd
    obtain ⟨f1, d1⟩ := hd.sckInvert hp
    obtain ⟨o1, f2, d2, w2⟩ := d1.wait hp
    have h3 := d2.sampleUndefined (hin _ rfl rfl rfl) hs
    refine ⟨o1, m.pos + 2, List.replicate m.cfg.tHalf (m.port.cs, !m.port.sck, m.port.mosi), ?_, ?_⟩
    · have f2' := f2 0
      rw [Nat.add_zero, h3] at f2'
      rw [f1, f2', hlev]
    · rw [obs_congr f1, w2, List.map_replicate]
      rfl

/-- `k` response bits in a row (R88), of which `v j` is the `j`-th sample. -/
theorem Due.recvBits {m : State} {r : MicroSeq} (k : Nat) (v : Nat → Tri) (hph : m.phase = .response ∨ 0 < k)
    (hd : Due m (tagged .response (List.replicate k (Machine.recvBit m.cfg)).flatten ++ r))
    (hv : ∀ j, j < k → m.inputAhead (2 * m.cfg.tHalf * j + recvOffset m.cfg) .miso = v j)
    (hx : m.cfg.xmode = .strict → ∀ j, j < k → v j ≠ .x) (hcs : m.port.cs = m.cfg.csActive) :
    ∃ o b, (∀ n, fin (2 * m.cfg.tHalf * k + n) m = fin n (m.received (2 * m.cfg.tHalf * k) (m.pos + 6 * k) o
        (((List.range k).map fun j => norm (v j)).foldl pushBit m.rxacc) b
        ((List.range k).map fun j => xCount (v j)).sum)) ∧
      Due (m.received (2 * m.cfg.tHalf * k) (m.pos + 6 * k) o
        (((List.range k).map fun j => norm (v j)).foldl pushBit m.rxacc) b
        ((List.range k).map fun j => xCount (v j)).sum) r ∧
      obs (2 * m.cfg.tHalf * k) m =
        ((List.replicate k m.port.mosi).flatMap (bitWave m.cfg m.port.sck)).map inFlight := by
  induction k generalizing m v with
  | zero =>
    have hph : m.phase = .response := by simpa using hph
    have e : m.received 0 m.pos m.port.other m.rxacc m.rxbit 0 = m := by
      rcases m with ⟨⟩; simp only at hph; subst hph; rfl
    exact ⟨m.port.other, m.rxbit, fun n => by simp [e], by simpa [e, tagged] using hd, by simp [obs]⟩
  | succ k ih =>
    have hd' : Due m (tagged .response (Machine.recvBit m.cfg) ++
        (tagged .response (List.replicate k (Machine.recvBit m.cfg)).flatten ++ r)) := by
      simpa [tagged, List.replicate_succ] using hd
    obtain ⟨o1, f1, d1, w1⟩ := hd'.recvBit (v := v 0) (by simpa using hv 0 (by omega))
      (fun hs => hx hs 0 (by omega)) hcs
    set m1 := m.received (2 * m.cfg.tHalf) (m.pos + 6) o1 (pushBit m.rxacc (norm (v 0))) (norm (v 0)) (xCount (v 0))
      with hm1
    have hia : ∀ j, m1.inputAhead (2 * m.cfg.tHalf * j + recvOffset m.cfg) .miso =
        m.inputAhead (2 * m.cfg.tHalf * (j + 1) + recvOffset m.cfg) .miso := fun j => by
      rw [inputAhead_shift m (2 * m.cfg.tHalf) _ .miso m1 rfl rfl rfl]; congr 1; ring
    have hcfg : m1.cfg = m.cfg := rfl
    obtain ⟨o2, b, f2, d2, w2⟩ := ih (m := m1) (fun j => v (j + 1)) (.inl rfl) d1
      (fun j hj => by rw [hcfg, hia]; exact hv (j + 1) (by omega)) (fun hs j hj => hx hs (j + 1) (by omega)) hcs
    simp only [hcfg] at f2 d2 w2
    have len : 2 * m.cfg.tHalf * (k + 1) = 2 * m.cfg.tHalf + 2 * m.cfg.tHalf * k := by ring
    have hn : ∀ {β : Type} (f : Tri → β), (List.range (k + 1)).map (fun j => f (v j)) =
        f (v 0) :: (List.range k).map fun j => f (v (j + 1)) := by
      intro β f; rw [List.range_succ_eq_map, List.map_cons, List.map_map]; rfl
    have e : m1.received (2 * m.cfg.tHalf * k) (m1.pos + 6 * k) o2
        (((List.range k).map fun j => norm (v (j + 1))).foldl pushBit m1.rxacc) b
        ((List.range k).map fun j => xCount (v (j + 1))).sum =
      m.received (2 * m.cfg.tHalf * (k + 1)) (m.pos + 6 * (k + 1)) o2
        (((List.range (k + 1)).map fun j => norm (v j)).foldl pushBit m.rxacc) b
        ((List.range (k + 1)).map fun j => xCount (v j)).sum := by
      rw [hn norm, hn xCount]
      simp only [hm1, State.received, List.drop_drop, Nat.add_assoc, len, List.foldl_cons, List.sum_cons]
      congr 1
      ring
    rw [e] at d2
    refine ⟨o2, b, fun n => ?_, d2, ?_⟩
    · rw [len, Nat.add_assoc, f1, f2, e, len]
    · rw [len, obs_add f1, w1, w2, List.replicate_succ, List.flatMap_cons, List.map_append]
      rfl

end Sys2Proof.Machine
end

