-- ==== Sys2Proof/Laws/Poll.lean ====
section
/-! SUPPORT. A READ from its acceptance to its polls and to its response (R84 to R88), in one lemma each: the engine at the first poll,
after polls that failed, and at the first response edge. -/

namespace Sys2Proof.Machine
open Sys2Proof

/-- The last bit of a command word is bit 0 of the address (R64). -/
theorem cmdPhased_last (cfg : Config) (dir : Dir) (w : BitVec 2) (a : BitVec 6) (d : Bool) :
    ((cmdPhased cfg dir w a).map Prod.snd).getLastD d = a.getLsbD 0 := by
  rw [cmdPhased_snd, encodeCmd, bitsMsb, bitsMsb, bitsMsb]
  simp [List.range_succ, BitVec.getMsbD]

/-- The wire of a READ up to its first poll (R91). -/
def commandWave (c : Config) (l0 m0 : Bool) (f : List Bool) : List Triple :=
  List.replicate c.tCsSettle (c.csIdle, l0, m0) ++ f.flatMap (bitWave c l0)

/-- What follows the poll loop in a READ. -/
def afterLoop (c : Config) : MicroSeq := afterPoll c ++ teardown c

/-- The engine of a READ at its first poll (R84): `S + 64H` ticks after the acceptance, with no poll made. -/
def State.atFirstPoll (s : State) (a : BitVec 6) (w : BitVec 2) (o : List Bool) : State :=
  { (s.opened (.read a w)).stage s.cfg.firstPoll .awaitReady 164 (s.cfg.csActive, s.port.sck, a.getLsbD 0) o with
    pollcnt := 0 }

/-- From the acceptance of a READ to its first poll (R80, R84). -/
theorem opened_to_polls {s : State} {a : BitVec 6} {w : BitVec 2} (hr : s.tickInput.reset = false) (hrd : s.ready = true) :
    ∃ o, (∀ n, fin (s.cfg.firstPoll + n) (s.opened (.read a w)) = fin n (s.atFirstPoll a w o)) ∧
      Due (s.atFirstPoll a w o) (pollLoop (afterLoop s.cfg)) ∧
      obs s.cfg.firstPoll (s.opened (.read a w)) =
        (commandWave s.cfg s.port.sck s.port.mosi (encodeRead s.cfg w a)).map inFlight := by
  have hd := opened_due (i := .read a w) hr hrd
  obtain ⟨hcfg, -, -, hport, -⟩ := opened_facts (i := .read a w) hr hrd
  have hpos : (s.opened (.read a w)).pos = 0 := rfl
  simp only [OutPort.triple, Prod.mk.injEq] at hport
  obtain ⟨-, hsck, hmosi⟩ := hport
  unfold State.atFirstPoll
  generalize s.opened (.read a w) = m at *
  rw [show microSeq s.cfg (.read a w) = readSeq s.cfg a w from rfl, readSeq_eq, ← hcfg] at hd
  obtain ⟨o1, f1, d1, w1⟩ := Due.openFrame (m := m) rfl hd
  obtain ⟨o2, f2, d2, w2⟩ := Due.phasedBits (cmdPhased_busy _ _ _ _) d1 rfl
  rw [show rxResponse m.cfg ++ teardown m.cfg = (.awaitReady, .pollInit) :: pollLoop (afterLoop m.cfg) by
    rw [rxResponse_eq]; rfl] at d2
  obtain ⟨f3, d3⟩ := d2.pollInit
  have hlen : m.cfg.firstPoll = m.cfg.tCsSettle + 2 * m.cfg.tHalf * 32 := by simp [Config.firstPoll]; ring
  simp only [cmdPhased_length, cmdPhased_last, State.stage] at f1 f2 f3 d3 w2
  simp only [cmdPhased_snd] at w2
  rw [← hcfg]
  refine ⟨o2, fun n => ?_, ?_, ?_⟩
  · rw [hlen, Nat.add_assoc, f1]
    refine (f2 n).trans ((f3 n).trans ?_)
    simp [State.stage, hsck, hpos, Nat.add_assoc]
  · convert d3 using 1
    simp [State.stage, hsck, hpos, hlen, Nat.add_assoc]
  · rw [hlen, obs_add f1, w1, w2]
    simp [commandWave, hsck, hmosi, encodeRead]

/-- The inputs of a READ at its first poll are those that lay `S + 64H` ticks ahead at its acceptance. -/
theorem atFirstPoll_inputAhead {s : State} {a : BitVec 6} {w : BitVec 2} (o : List Bool) (hr : s.tickInput.reset = false)
    (hrd : s.ready = true) (k : Nat) (l : InLine) :
    (s.atFirstPoll a w o).inputAhead k l = s.inputAhead (s.cfg.firstPoll + k) l := by
  obtain ⟨h1, h2, h3, -⟩ := opened_facts (i := .read a w) hr hrd
  rw [← inputAhead_shift s s.cfg.firstPoll k l (s.atFirstPoll a w o)]
  · simp [State.atFirstPoll, State.stage, h2]
  · simp [State.atFirstPoll, State.stage, h3]
  · simp [State.atFirstPoll, State.stage, h1]

/-- The engine of a READ at its first response edge (R86), `q` failed polls and the settle delay after its first poll. -/
def State.atResponse (m : State) (q x : Nat) (o : List Bool) : State :=
  { m with
    phase := .awaitReady, pos := m.pos + 3, pollcnt := m.pollcnt + q + 1, xnormCount := m.xnormCount + x
    port := { m.port with other := o }, env := m.env.drop (q + m.cfg.tReadySettle), now := m.now + (q + m.cfg.tReadySettle) }

/-- `q` polls that fail, the poll that succeeds, and the settle delay (R84, R86). -/
theorem Due.pollsToResponse {m : State} {r : MicroSeq} (q : Nat) (hph : m.phase = .awaitReady)
    (hd : Due m (pollLoop ((.awaitReady, .wait m.cfg.tReadySettle) :: r)))
    (h0 : ∀ i, i < q → m.inputAhead i .ready ≠ .one)
    (hx : m.cfg.xmode = .strict → ∀ i, i < q → m.inputAhead i .ready ≠ .x) (h1 : m.inputAhead q .ready = .one)
    (hc : m.pollcnt + q < m.cfg.pollMax) :
    ∃ o, (∀ n, fin (q + m.cfg.tReadySettle + n) m =
        fin n (m.atResponse q ((List.range q).map fun i => xCount (m.inputAhead i .ready)).sum o)) ∧
      Due (m.atResponse q ((List.range q).map fun i => xCount (m.inputAhead i .ready)).sum o) r ∧
      obs (q + m.cfg.tReadySettle) m = (List.replicate (q + m.cfg.tReadySettle) m.port.triple).map inFlight := by
  obtain ⟨o1, f1, d1, w1⟩ := hd.pollFails q hph h0 hx (Nat.le_of_lt hc)
  generalize ((List.range q).map fun i => xCount (m.inputAhead i .ready)).sum = x at *
  have hin : (m.polled q x o1).input .ready = .one := by
    rw [input_eq_inputAhead, inputAhead_shift m q 0 .ready (m.polled q x o1) rfl rfl rfl, Nat.add_zero, h1]
  obtain ⟨f2, d2⟩ := d1.pollHit hin hc
  obtain ⟨o2, f3, d3, w3⟩ := Due.wait (p := .awaitReady) (w := m.cfg.tReadySettle) rfl d2
  refine ⟨o2, fun n => ?_, ?_, ?_⟩
  · rw [Nat.add_assoc, f1, f2, f3]
    simp [State.polled, State.atResponse, Nat.add_assoc]
  · convert d3 using 1
    simp [State.polled, State.atResponse, Nat.add_assoc]
  · rw [obs_add f1, w1, obs_congr f2, w3, ← List.replicate_append_replicate, List.map_append, List.map_replicate,
      List.map_replicate]
    rfl

end Sys2Proof.Machine
end

