-- ==== Sys2Proof/Laws/Wire.lean ====
section
/-! SUPPORT. What `WireObserve` (R70) sees of the waveforms of R81 and R91. -/

namespace Sys2Proof.Machine
open Sys2Proof

/-- `edgeBits` on port triples. -/
def edgeTriples (cs : Bool) (prev : Bool) : List Triple → List Bool
  | [] => []
  | p :: ps => if p.1 = cs ∧ p.2.1 ≠ prev then p.2.2 :: edgeTriples cs p.2.1 ps else edgeTriples cs p.2.1 ps

theorem edgeBits_eq (cfg : Config) (ps : List OutPort) :
    ∀ prev, edgeBits cfg prev ps = edgeTriples cfg.csActive prev (ps.map OutPort.triple) := by
  induction ps with
  | nil => intro; rfl
  | cons p ps ih => intro prev; simp [edgeBits, edgeTriples, OutPort.triple, ih]

/-- A clock at rest shows no bit. -/
theorem edgeTriples_still (cs l b c : Bool) (n : Nat) (rest : List Triple) :
    edgeTriples cs l (List.replicate n (c, l, b) ++ rest) = edgeTriples cs l rest := by
  induction n with
  | zero => simp
  | succ n ih => simp [List.replicate_succ, edgeTriples, ih]

/-- A bit period shows its bit at both of its inversions (R74). -/
theorem edgeTriples_bit (c : Config) (h : 1 ≤ c.tHalf) (l b : Bool) (rest : List Triple) :
    edgeTriples c.csActive l (bitWave c l b ++ rest) = b :: b :: edgeTriples c.csActive l rest := by
  obtain ⟨n, hn⟩ := Nat.exists_eq_add_of_le' h
  unfold bitWave
  rw [List.append_assoc, hn, List.replicate_succ, List.cons_append, edgeTriples]
  simp only [ne_eq, Bool.not_eq_self, not_false_eq_true, and_self, if_true]
  rw [edgeTriples_still, List.replicate_succ, List.cons_append, edgeTriples]
  simp [edgeTriples_still]

theorem edgeTriples_bits (c : Config) (h : 1 ≤ c.tHalf) (l : Bool) (bs : List Bool) (rest : List Triple) :
    edgeTriples c.csActive l (bs.flatMap (bitWave c l) ++ rest) =
      bs.flatMap (fun b => [b, b]) ++ edgeTriples c.csActive l rest := by
  induction bs with
  | nil => simp
  | cons b bs ih => rw [List.flatMap_cons, List.append_assoc, edgeTriples_bit c h, ih]; simp

theorem everyOther_doubled (bs r : List Bool) :
    everyOther (bs.flatMap (fun b => [b, b]) ++ r) = bs ++ everyOther r := by
  induction bs with
  | nil => simp
  | cons b bs ih => simp [everyOther, ih]

end Sys2Proof.Machine
end

