-- ==== Sys2Proof/Tests/Slice0.lean ====
section
/-! SUPPORT. Tests of the model against the spec's own worked examples, one operation or one step each, and a witness for the hypotheses of
every statement. Expected values are those of 95_test_vectors.md or are worked by hand from the rule named in the comment. -/

namespace Sys2Proof.Tests
open Sys2Proof Sys2Proof.Machine

/-! ### Well-formedness: an ill-formed call for each check (R19, R58) -/

theorem test_wf_address_refused : (Call.read 64 2).wellFormed = false ∧ (Call.write 64 0 0).wellFormed = false := by decide
theorem test_wf_data_refused : (Call.write 0 (2 ^ 32) 0).wellFormed = false := by decide
theorem test_wf_width_refused : (Call.read 0 4).wellFormed = false ∧ (Call.write 0 0 4).wellFormed = false := by decide
theorem test_wf_largest_accepted :
    (Call.write 63 (2 ^ 32 - 1) 3).wellFormed = true ∧ (Call.read 63 3).wellFormed = true := by decide

/-- R58's example: `write(64, 0x1_0000_0001, 6)` latches ADDR 0, DATA 1, WIDTH 2. -/
theorem test_operand_reduction : instrOfCall (.write 64 0x100000001 6) = .write 0 1 2 := by decide

/-! ### Decoding: words written out bit by bit from the encodings -/

/-- `1 ww 0*23 aaaaaa d*32` (R59) with ww = 01, aaaaaa = 101010 and data 0xDEADBEEF; the command word is the low half
of the table word (log entry 29). -/
theorem test_decode_write : decodeTableWord 64
    (0b11011110101011011011111011101111 * 2 ^ 32 + 0b10100000000000000000000000101010)
      = some (.write 0b101010 0xDEADBEEF 0b01) := by decide

/-- `0 ww 0*23 aaaaaa` (R59) with ww = 11 and aaaaaa = 111111. -/
theorem test_decode_read : decodeTableWord 32 0b01100000000000000000000000111111 = some (.read 63 3) := by decide

/-- The last PAD bit set, the first PAD bit set, DATA missing (95_test_vectors.md 2.1). -/
theorem test_decode_rejects :
    decode Config.ref (bitsMsb 0x40000040#32) = .error .nonConforming ∧
    decode Config.ref (bitsMsb 0xD000000000000000#64) = .error .nonConforming ∧
    decode Config.ref (bitsMsb 0xC0000000#32) = .error .incomplete := by decide

/-- A table word of 32 bits whose CMD is a WRITE gets zero DATA bits (log entry 27); `DecodeFrame` of those bits is `Incomplete` (R67). -/
theorem test_decode_short_write : decodeTableWord 32 0xC0000000 = some (.write 0 0 2) ∧
    decodeFrame Config.ref (bitsMsb 0xC0000000#32) = .incomplete := by decide

theorem test_encode_write : encode Config.ref (.write 0x15 0x80000001 3) = bitsMsb 0xE000001580000001#64 := by decide
theorem test_encode_read : encode Config.ref (.read 0x20 1) = bitsMsb 0x20000020#32 := by decide

/-- The other assignment of D1: only `F[0]` differs. -/
theorem test_encode_other_cmd :
    encode { Config.ref with cmdWrite := false, cmdRead := true } (.read 0 2) = bitsMsb 0xC0000000#32 := by decide

theorem test_decode_response : decodeResponse (true :: List.replicate 31 false) = 0x80000000 := by decide

/-! ### States for the tests -/

/-- A configuration at the edges of the domains: `S = 0`, `H = 1`, `R = 0`, `POLL_MAX = 1`, `E = 2`, Strict, BetweenEdges, chip-select
active high, clock resting high. -/
def tiny : Config :=
  { Config.ref with
    tHalf := 1, pollMax := 1, tReadySettle := 0, tCsSettle := 0, extraEdges := 2
    csIdle := false, sckIdle := true, rxSample := .betweenEdges, xmode := .strict }

/-- REF under Strict. -/
def strict : Config := { Config.ref with xmode := .strict }

/-- A transaction for `i` in flight at the position `n`, in the phase `p`, with nothing to wait for. -/
def busyAt (cfg : Config) (i : Instr) (p : Phase) (n : Nat) (cs : Bool) : State :=
  { State.resetWith cfg with
    dir := i.dir, addr := i.address, width := i.width
    wdata := match i with
      | .write _ d _ => d
      | .read _ _ => 0
    phase := p, pos := n, port := { (State.resetWith cfg).port with cs := cs } }

/-- A tick with no request, data-in and ready flag as given (REF: MISO is bit 0, READY bit 1). -/
def quiet (miso ready : Tri) : TickInput := ⟨[miso, ready], none, false, List.replicate 8 false⟩

/-- A tick at which `i` is presented. -/
def asks (i : Instr) : TickInput := ⟨[.zero, .zero], some (requestOfInstr i), false, List.replicate 8 false⟩

/-- A tick with a reset event. -/
def resets : TickInput := ⟨[.zero, .zero], none, true, List.replicate 8 false⟩

/-- An engine after reset that is presented `i` and then sees `later` at each of 400 ticks. -/
def begins (cfg : Config) (i : Instr) (later : TickInput) : State :=
  { State.resetWith cfg with env := asks i :: List.replicate 400 later }

def wr : Instr := .write 0x2A 0xDEADBEEF 1
def rd : Instr := .read 0x3F 2

/-- An outcome is a next state of which `p` holds. -/
def nextIs (p : State → Bool) : Host.Outcome State Fault Refusal → Bool
  | .next t => p t
  | _ => false

/-- The invariant as a computation. -/
def invCheck (s : State) : Bool :=
  decide s.cfg.Admissible && decide (s.port.other.length = s.cfg.wOut) && decide (s.pollcnt ≤ s.cfg.pollMax) &&
  decide (s.fault = true ↔ s.phase = .fault) &&
  decide (if s.fault then s.faultCode = 1 ∨ s.faultCode = 2 else s.faultCode = 0) &&
  decide (s.fault = true → s.faultPhase = .awaitReady ∨ s.faultPhase = .response) &&
  decide (s.busy = false → s.waitcnt = 0) &&
  decide (s.busy = true → 0 < s.pos ∧ s.pos < s.seq.length ∧ (s.seq[s.pos - 1]?).map Prod.fst = some s.phase) &&
  (match s.phase with
    | .idle => s.port.cs = s.cfg.csIdle
    | .fault => s.port.cs = s.cfg.csActive
    | _ => csLevel (s.seq.take s.pos) = some s.port.cs)

theorem inv_of_check {s : State} (h : invCheck s = true) : s.Inv := by
  simp only [invCheck, Bool.and_eq_true, decide_eq_true_eq] at h
  obtain ⟨⟨⟨⟨⟨⟨⟨⟨h1, h2⟩, h3⟩, h4⟩, h5⟩, h6⟩, h7⟩, h8⟩, h9⟩ := h
  refine ⟨h1, h2, h3, h4, h5, h6, h7, h8, ?_⟩
  cases hp : s.phase <;> rw [hp] at h9 <;> simpa using h9

theorem inv_reset (cfg : Config) (env : List TickInput) (h : cfg.Admissible) :
    ({ State.resetWith cfg with env := env } : State).Inv := by
  refine ⟨h, ?_, ?_, ?_, ?_, ?_, ?_, ?_, ?_⟩ <;> simp [State.resetWith, State.busy]

theorem noReset_begins (cfg : Config) (i : Instr) (later : TickInput) (h : later.reset = false) (n : Nat) :
    (begins cfg i later).NoReset n := by
  intro k _
  cases k with
  | zero => rfl
  | succ k =>
    simp only [State.inputsAhead, begins, List.getElem?_cons_succ, List.getElem?_replicate]
    split
    · exact h
    · rfl

theorem begins_begins (cfg : Config) (i : Instr) (later : TickInput) (hc : cfg.Admissible) (h : later.reset = false)
    (hi : instrOfRequest (requestOfInstr i) = i) (n : Nat) : (begins cfg i later).Begins i n :=
  ⟨inv_reset cfg _ hc, rfl, congrArg some hi, noReset_begins cfg i later h n⟩

/-! ### One step each -/

/-- WRITE accepted after reset, REF: `Open` at tick 0 (95_test_vectors.md 2.2, ticks 0-3: port (1,0,0), `Preamble`). -/
theorem test_write_accept : nextIs (fun t => t.port.triple = (true, false, false) ∧ t.phase = .preamble ∧ t.waitcnt = 3 ∧
    latchedInstr t = wr ∧ t.done = false) (exec wr State.reset) = true := by decide +kernel

/-- READ accepted, REF, from leftovers: `RXACC` and `POLLCNT` are 0 (R94); what is left in `WDATA` is free (R28, R19) and not looked at. -/
theorem test_read_accept : nextIs (fun t => t.rxacc = 0 ∧ t.pollcnt = 0 ∧ latchedInstr t = rd)
    (exec rd { State.reset with rxacc := 9, pollcnt := 4, wdata := 7 }) = true := by decide +kernel

/-- With `S = 0` the first bit is on the wire at the tick of acceptance, the clock inverted from its rest (R76, R77, R74). -/
theorem test_write_accept_no_settle : nextIs (fun t => t.port.triple = (true, false, true) ∧ t.waitcnt = 0 ∧ t.pos = 6)
    (exec wr (State.resetWith tiny)) = true := by decide +kernel

/-- A request while busy is ignored: the wait goes on (R101, R23). -/
theorem test_busy_ignores : nextIs (fun t => t.waitcnt = 1 ∧ latchedInstr t = wr ∧ t.phase = .width)
    (exec rd { busyAt Config.ref wr .width 9 false with waitcnt := 2 }) = true := by decide +kernel

/-- `POLL_MAX` polls done: `ProtocolTimeout`, chip-select stays active (R110, R113). -/
theorem test_poll_timeout : nextIs (fun t => t.phase = .fault ∧ t.faultCode = 1 ∧ t.faultPhase = .awaitReady ∧
    t.port.cs = false ∧ t.pollcnt = 100)
    (idleTick { busyAt Config.ref rd .awaitReady 164 false with pollcnt := 100, env := [quiet .zero .one] }) = true := by
  decide +kernel

/-- A poll that reads 1 leaves the loop and the settle begins at that tick (R84, R86). -/
theorem test_poll_ready : nextIs (fun t => t.pollcnt = 4 ∧ t.waitcnt = 4 ∧ t.phase = .awaitReady ∧ t.pos = 167)
    (idleTick { busyAt Config.ref rd .awaitReady 164 false with pollcnt := 3, env := [quiet .zero .one] }) = true := by
  decide +kernel

/-- A poll that reads 0 is tried again at the next tick (R84). -/
theorem test_poll_not_ready : nextIs (fun t => t.pollcnt = 4 ∧ t.waitcnt = 0 ∧ t.pos = 164)
    (idleTick { busyAt Config.ref rd .awaitReady 164 false with pollcnt := 3, env := [quiet .zero .zero] }) = true := by
  decide +kernel

/-- X at a poll under Strict: `UndefinedSample`, `POLLCNT` not counted (R84, R111; 95_test_vectors.md 2.3). -/
theorem test_poll_strict_x : nextIs (fun t => t.phase = .fault ∧ t.faultCode = 2 ∧ t.pollcnt = 0 ∧ t.xnormCount = 0)
    (idleTick { busyAt strict rd .awaitReady 164 false with env := [quiet .zero .x] }) = true := by decide +kernel

/-- "X at 132, Strict" (95_test_vectors.md 2.3): the cursor is then on the start of the polls; `UndefinedSample`, `FAULT_PHASE = AwaitReady`,
`POLLCNT = 0`. -/
theorem test_first_poll_strict_x : nextIs (fun t => t.phase = .fault ∧ t.faultCode = 2 ∧ t.faultPhase = .awaitReady ∧ t.pollcnt = 0 ∧
    t.port.cs = false) (idleTick { busyAt strict rd .address 163 false with pollcnt := 7, env := [quiet .zero .x] }) = true := by
  decide +kernel

/-- R87's values: `RXACC = 0xFFFFFFFF`, sample X under Normalize gives 0xFFFFFFFE and one count. -/
theorem test_recv_x : nextIs (fun t => t.rxacc = 0xFFFFFFFE ∧ t.xnormCount = 1 ∧ t.fault = false)
    (idleTick { busyAt Config.ref rd .response 171 false with rxacc := 0xFFFFFFFF, env := [quiet .x .zero] }) = true := by
  decide +kernel

/-- R87's values: `RXACC = 0x00000009`, sample 1 gives 0x00000013; 0x80000000, sample 0 gives 0. -/
theorem test_recv_bits :
    nextIs (fun t => t.rxacc = 0x13)
      (idleTick { busyAt Config.ref rd .response 171 false with rxacc := 9, env := [quiet .one .zero] }) = true ∧
    nextIs (fun t => t.rxacc = 0)
      (idleTick { busyAt Config.ref rd .response 171 false with rxacc := 0x80000000, env := [quiet .zero .one] }) = true := by
  decide +kernel

/-- X at a data sample under Strict (R111). -/
theorem test_recv_strict_x : nextIs (fun t => t.phase = .fault ∧ t.faultCode = 2 ∧ t.faultPhase = .response)
    (idleTick { busyAt strict rd .response 171 false with env := [quiet .x .one] }) = true := by decide +kernel

/-- `Complete` of a READ: `RDATA` takes `RXACC`, `done`, and a request at that tick is accepted (R97, R100 (b)). -/
theorem test_complete_then_accept : nextIs (fun t => t.done = true ∧ t.rdata = 0x1234 ∧ latchedInstr t = wr ∧
    t.phase = .preamble) (exec wr { busyAt Config.ref rd .teardown 363 true with rxacc := 0x1234 }) = true := by decide +kernel

/-- The host's duty: a request at the tick of `done` finds `ready = 1` (R97, R100 (b), C7); while a transaction waits it does not (R101), nor in
`Fault` (R114); and reset while busy is no way to cancel (R128). -/
theorem test_host_breach :
    ({ busyAt Config.ref rd .teardown 363 true with env := [asks wr] } : State).hostBreach = none ∧
    ({ busyAt Config.ref rd .teardown 362 true with waitcnt := 1, env := [asks wr] } : State).hostBreach = some .requestWhileNotReady ∧
    ({ busyAt Config.ref rd .fault 164 false with fault := true, faultCode := 1, env := [asks wr] } : State).hostBreach =
      some .requestWhileNotReady ∧
    ({ busyAt Config.ref rd .width 9 false with env := [resets] } : State).hostBreach = some .resetWhileBusy := by decide +kernel

/-- The call of a READ observes `fault` (R93): the hundredth poll has failed, and the timeout is its code (R109); that of a WRITE looks
at `done` alone, and still waits. -/
theorem test_read_call_fails :
    (match awaitEnd mock rd 1 ({ busyAt Config.ref rd .awaitReady 164 false with pollcnt := 100 }, Mock.init Config.ref none []) with
      | .failed code c => decide (code = 1 ∧ c.1.phase = .fault)
      | _ => false) = true ∧
    (match awaitEnd mock wr 1 ({ busyAt Config.ref rd .awaitReady 164 false with pollcnt := 100 }, Mock.init Config.ref none []) with
      | .waiting c => c.1.fault
      | _ => false) = true := by decide +kernel

/-- The call of a READ returns `RDATA` at the tick of `done` (R93, R97). -/
theorem test_read_call_returns :
    (match awaitEnd mock rd 1 ({ busyAt Config.ref rd .teardown 363 true with rxacc := 0x1234 }, Mock.init Config.ref none []) with
      | .returned v c => decide (v = some 0x1234 ∧ c.1.ready = true)
      | _ => false) = true := by decide +kernel

/-- A reset event leaves `Fault` (R114, R127). -/
theorem test_reset_leaves_fault : nextIs (fun t => t.ready = true ∧ t.fault = false ∧ t.port.triple = (true, false, false))
    (step { busyAt Config.ref rd .fault 165 false with fault := true, faultCode := 1, env := [resets] }) = true := by decide +kernel

/-- Parameters outside their domain are refused by name (R10, U23). -/
theorem test_bad_config_refused :
    (match exec wr (State.resetWith { Config.ref with tHalf := 0 }) with
      | .refused .inadmissibleConfig => true
      | _ => false) = true := by decide +kernel

/-- Inputs that the script lists reach the engine; `withFetchWord` presents the decoded operation. -/
theorem test_fetch_word : nextIs (fun t => latchedInstr t = .read 0 0 ∧ t.phase = .preamble)
    (step (State.reset.withFetchWord 32 0)) = true := by decide +kernel

/-! ### Witnesses: concrete values that meet the hypotheses of each statement, one for each clause and at the ends of its range.
In REF the positions of a WRITE are: `Preamble` 0 to 7, `Width` to 17, `Padding` to 132, `Address` to 162, `Data` to 322,
`Teardown` 323 to 327; of a READ: 163 and on `AwaitReady` (poll 164), `Response` 167 to 358, `Teardown` 359 to 363. -/

theorem witness_EncodeCmdBitByBit : Config.ref.cmdRead = false ∧ (3 ≤ 3 ∧ 3 ≤ 25) ∧ (3 ≤ 25 ∧ 25 ≤ 25) ∧ 0 ≤ 5 ∧ 5 ≤ 5 := by decide
theorem witness_EncodeWriteBitByBit : Config.ref.cmdWrite = true ∧ 0 ≤ 31 ∧ 31 ≤ 31 := by decide
theorem witness_EncodeReadOmitsData : Config.ref.cmdRead = false := by decide
theorem witness_DecodeOfEncode : Config.ref.cmdWrite ≠ Config.ref.cmdRead ∧ wr.wellFormed = true ∧ rd.wellFormed = true := by decide
theorem witness_EncodeOfDecode : Config.ref.cmdWrite ≠ Config.ref.cmdRead ∧
    decode Config.ref (encode Config.ref wr ++ [true]) = .ok (wr, [true]) ∧
    decode Config.ref (encode Config.ref rd ++ [true]) = .ok (rd, [true]) := by decide
theorem witness_DecodeFrameReadsFields : 64 ≤ (bitsMsb 0xA000002ADEADBEEF#64).length ∧ 64 ≤ (bitsMsb 0x4000003F00000000#64).length ∧
    decodeFrame Config.ref (bitsMsb 0xA000002ADEADBEEF#64) = .frame wr true ∧
    decodeFrame Config.ref (bitsMsb 0x5000003F00000000#64) = .frame rd false := by decide
theorem witness_DecodeFrameIncompleteIff :
    decodeFrame Config.ref (List.replicate 31 false) = .incomplete ∧
    decodeFrame Config.ref (List.replicate 32 false) = .frame (.read 0 0) true ∧
    decodeFrame Config.ref (true :: List.replicate 62 false) = .incomplete ∧
    decodeFrame Config.ref (true :: List.replicate 63 false) = .frame (.write 0 0 0) true := by decide
theorem witness_ResponseIsMsbFirst : (bitsMsb 0x80000001#32).length = 32 := by decide
theorem witness_CallTakesLowBits : (Call.write 63 (2 ^ 32 - 1) 3).wellFormed = true ∧ (Call.read 0 0).wellFormed = true := by decide

theorem witness_admissible : Config.ref.Admissible ∧ tiny.Admissible ∧ strict.Admissible := by decide
theorem witness_SetOutChangesOneBit : Config.ref.Admissible ∧ tiny.Admissible := by decide

/-- A wait that is due (`Open`, four ticks, and a half-cycle), one and two ticks to go, and another micro-operation due: `SckInvert`, and
`Complete`. -/
theorem witness_WaitCountsTicks :
    (∀ s ∈ [busyAt Config.ref wr .preamble 1 true, busyAt Config.ref wr .width 10 false], s.cfg.Admissible ∧ s.busy = true ∧
      s.waitcnt = 0) ∧
    (busyAt Config.ref wr .preamble 1 true).seq[1]? = some (.preamble, .wait (3 + 1)) ∧
    (busyAt Config.ref wr .width 10 false).seq[10]? = some (.width, .wait (1 + 1)) ∧
    (∀ n ∈ [0, 1], ({ busyAt Config.ref wr .width 9 false with waitcnt := n + 1 } : State).busy = true) ∧
    (∀ s ∈ [busyAt Config.ref wr .width 11 false, busyAt Config.ref wr .teardown 327 true], s.cfg.Admissible ∧ s.busy = true ∧
      s.waitcnt = 0) ∧
    (busyAt Config.ref wr .width 11 false).seq[11]? = some (.width, .sckInvert) ∧
    (busyAt Config.ref wr .teardown 327 true).seq[327]? = some (.teardown, .complete) := by decide +kernel

/-- A poll below the bound, at the bound, a binary and a defined sample. -/
theorem witness_PollCountCountsPolls :
    (∀ s, s = { busyAt Config.ref rd .awaitReady 164 false with pollcnt := 99, env := [quiet .zero .x] } →
      s.pollcnt < s.cfg.pollMax ∧ ¬(s.input .ready = .x ∧ s.cfg.xmode = .strict)) ∧
    (∀ s, s = { busyAt strict rd .awaitReady 164 false with pollcnt := 0, env := [quiet .zero .one] } →
      s.pollcnt < s.cfg.pollMax ∧ ¬(s.input .ready = .x ∧ s.cfg.xmode = .strict)) ∧
    (∀ s, s = { busyAt Config.ref rd .awaitReady 164 false with pollcnt := 100 } → s.pollcnt = s.cfg.pollMax) ∧
    MicroOp.complete ≠ .poll ∧ MicroOp.complete ≠ .pollInit ∧ State.reset.Inv := by
  refine ⟨fun s h => ?_, fun s h => ?_, fun s h => ?_, by decide, by decide, inv_reset _ _ (by decide)⟩ <;> subst h <;> decide +kernel

/-- An invariant state with a micro-operation to execute. -/
def due (s : State) : Bool := invCheck s && s.running

theorem inv_of_due {s : State} (h : due s = true) : s.Inv ∧ s.running = true := by
  rw [due, Bool.and_eq_true] at h
  exact ⟨inv_of_check h.1, h.2⟩

/-- The first and the last state of every phase of a WRITE. -/
theorem due_write : due (busyAt Config.ref wr .preamble 1 true) = true ∧ due (busyAt Config.ref wr .preamble 8 false) = true ∧
    due (busyAt Config.ref wr .width 9 false) = true ∧ due (busyAt Config.ref wr .width 18 false) = true ∧
    due (busyAt Config.ref wr .padding 133 false) = true ∧ due (busyAt Config.ref wr .address 163 false) = true ∧
    due (busyAt Config.ref wr .data 323 false) = true ∧ due (busyAt Config.ref wr .teardown 327 true) = true := by decide +kernel

/-- The same of a READ. -/
theorem due_read : due (busyAt Config.ref rd .address 163 false) = true ∧ due (busyAt Config.ref rd .awaitReady 164 false) = true ∧
    due { busyAt Config.ref rd .awaitReady 164 false with pollcnt := 100 } = true ∧
    due (busyAt Config.ref rd .awaitReady 165 false) = true ∧ due (busyAt Config.ref rd .awaitReady 167 false) = true ∧
    due (busyAt Config.ref rd .response 171 false) = true ∧ due (busyAt Config.ref rd .response 359 false) = true ∧
    due (busyAt Config.ref rd .teardown 363 true) = true := by decide +kernel

theorem witness_PhaseTransitions :
    (∃ s : State, s.Inv ∧ s.running = true ∧ s.phase = .preamble) ∧ (∃ s : State, s.Inv ∧ s.running = true ∧ s.phase = .width) ∧
    (∃ s : State, s.Inv ∧ s.running = true ∧ s.phase = .padding) ∧
    (∃ s : State, s.Inv ∧ s.running = true ∧ s.phase = .address ∧ s.dir = .write) ∧
    (∃ s : State, s.Inv ∧ s.running = true ∧ s.phase = .address ∧ s.dir = .read) ∧
    (∃ s : State, s.Inv ∧ s.running = true ∧ s.phase = .data) ∧ (∃ s : State, s.Inv ∧ s.running = true ∧ s.phase = .awaitReady) ∧
    (∃ s : State, s.Inv ∧ s.running = true ∧ s.phase = .response) ∧ (∃ s : State, s.Inv ∧ s.running = true ∧ s.phase = .teardown) := by
  obtain ⟨-, a2, -, a4, a5, a6, a7, a8⟩ := due_write
  obtain ⟨b1, b2, -, -, -, b6, -, -⟩ := due_read
  exact ⟨⟨_, (inv_of_due a2).1, (inv_of_due a2).2, rfl⟩, ⟨_, (inv_of_due a4).1, (inv_of_due a4).2, rfl⟩,
    ⟨_, (inv_of_due a5).1, (inv_of_due a5).2, rfl⟩, ⟨_, (inv_of_due a6).1, (inv_of_due a6).2, rfl, rfl⟩,
    ⟨_, (inv_of_due b1).1, (inv_of_due b1).2, rfl, rfl⟩, ⟨_, (inv_of_due a7).1, (inv_of_due a7).2, rfl⟩,
    ⟨_, (inv_of_due b2).1, (inv_of_due b2).2, rfl⟩, ⟨_, (inv_of_due b6).1, (inv_of_due b6).2, rfl⟩,
    ⟨_, (inv_of_due a8).1, (inv_of_due a8).2, rfl⟩⟩

/-- The rows of the table that hang on a poll: one that reads 1 leads past the loop, one that reads 0 or, under Normalize, X, does not. -/
theorem witness_PhaseTransitions_polls :
    (∃ s : State, s.Inv ∧ s.running = true ∧
      s.microStep.executed = txCmd s.cfg .read s.width s.addr ++ tagged .awaitReady pollReady) ∧
    ∀ v ∈ [Tri.zero, .x], ∃ s : State, s.Inv ∧ s.running = true ∧ s.seq[s.pos]? = some (.awaitReady, .poll) ∧ s.pollcnt < s.cfg.pollMax ∧
      s.input .ready = v ∧ s.input .ready ≠ .one ∧ ¬(s.input .ready = .x ∧ s.cfg.xmode = .strict) := by
  refine ⟨⟨{ busyAt Config.ref rd .awaitReady 164 false with env := [quiet .zero .one] }, inv_of_check (by decide +kernel), rfl,
    by decide +kernel⟩, fun v hv => ?_⟩
  simp only [List.mem_cons, List.not_mem_nil, or_false] at hv
  rcases hv with rfl | rfl <;>
    exact ⟨{ busyAt Config.ref rd .awaitReady 164 false with pollcnt := 99, env := [quiet .zero _] }, inv_of_check (by decide +kernel),
      rfl, by decide +kernel, by decide, rfl, by decide +kernel, by decide +kernel⟩

/-- Ready with a settle delay (REF) and without (`tiny`). -/
theorem witness_WriteAccepted : (State.reset.Inv ∧ State.reset.ready = true ∧ 0 < State.reset.cfg.tCsSettle) ∧
    (State.resetWith tiny).Inv ∧ (State.resetWith tiny).ready = true ∧ ¬ 0 < (State.resetWith tiny).cfg.tCsSettle :=
  ⟨⟨inv_reset _ _ (by decide), rfl, by decide⟩, inv_reset _ _ (by decide), rfl, by decide⟩

theorem witness_ReadAccepted : (State.reset.Inv ∧ State.reset.ready = true ∧ 0 < State.reset.cfg.tCsSettle) ∧
    (State.resetWith tiny).Inv ∧ (State.resetWith tiny).ready = true ∧ ¬ 0 < (State.resetWith tiny).cfg.tCsSettle :=
  witness_WriteAccepted

/-- An engine in `Fault` after the timeout of a READ. -/
def faulted : State :=
  { busyAt Config.ref rd .fault 164 false with fault := true, faultCode := 1, faultPhase := .awaitReady, pollcnt := 100 }

theorem inv_faulted : faulted.Inv := inv_of_check (by decide +kernel)

/-- Not ready at the point of acceptance: waiting, and in `Fault`. -/
theorem witness_RequestIgnoredUnlessReady :
    (∃ s : State, s.Inv ∧ s.busy = true ∧ s.startTick.run.ready = false) ∧ faulted.Inv ∧ faulted.startTick.run.ready = false :=
  ⟨⟨{ busyAt Config.ref wr .width 9 false with waitcnt := 2 }, inv_of_check (by decide +kernel), rfl, by decide +kernel⟩,
    inv_faulted, by decide +kernel⟩

/-- The last tick of a WRITE and of a READ. -/
theorem witness_BackToBackAccepted :
    (∃ s : State, s.Inv ∧ s.busy = true ∧ s.startTick.run.ready = true ∧ s.dir = .write) ∧
    (∃ s : State, s.Inv ∧ s.busy = true ∧ s.startTick.run.ready = true ∧ s.dir = .read) :=
  ⟨⟨_, (inv_of_due due_write.2.2.2.2.2.2.2).1, rfl, by decide +kernel, rfl⟩,
    ⟨_, (inv_of_due due_read.2.2.2.2.2.2.2).1, rfl, by decide +kernel, rfl⟩⟩

/-- An outcome of which `nextIs` says something is a next state. -/
theorem next_of_nextIs {p : State → Bool} {o : Host.Outcome State Fault Refusal} (h : nextIs p o = true) :
    ∃ t, o = .next t ∧ p t = true := by
  cases o with
  | next t => exact ⟨t, rfl, h⟩
  | fault _ => simp [nextIs] at h
  | refused _ => simp [nextIs] at h

/-- A tick of a WRITE in flight, and the last tick of a READ, which writes `RDATA`. -/
theorem witness_ExecFrame :
    (∃ s t : State, s.Inv ∧ exec rd s = .next t ∧ s.busy = true ∧ t.done = false) ∧
    (∃ s t : State, s.Inv ∧ exec wr s = .next t ∧ t.rdata ≠ s.rdata) := by
  constructor
  · obtain ⟨t, h, ht⟩ := next_of_nextIs (p := fun t => !t.done) (o := exec rd (busyAt Config.ref wr .width 18 false)) (by decide +kernel)
    exact ⟨_, t, (inv_of_due due_write.2.2.2.1).1, h, rfl, by simpa using ht⟩
  · obtain ⟨t, h, ht⟩ := next_of_nextIs (p := fun t => decide (t.rdata ≠ 0))
      (o := exec wr { busyAt Config.ref rd .teardown 363 true with rxacc := 5 }) (by decide +kernel)
    exact ⟨_, t, inv_of_check (by decide +kernel), h, of_decide_eq_true ht⟩

/-- Accepted in `Idle`, and presented while another WRITE is in flight. -/
theorem witness_WriteFrame :
    (∃ t, State.reset.Inv ∧ State.reset.phase ≠ .fault ∧ (State.reset.busy = true → State.reset.dir = .write) ∧
      exec wr State.reset = .next t) ∧
    ∃ s t : State, s.Inv ∧ s.phase ≠ .fault ∧ s.busy = true ∧ s.dir = .write ∧ s.startTick.run.ready = false ∧ exec wr s = .next t := by
  constructor
  · obtain ⟨t, h, -⟩ := next_of_nextIs (p := fun _ => true) (o := exec wr State.reset) (by decide +kernel)
    exact ⟨t, inv_reset _ _ (by decide), by decide, fun _ => rfl, h⟩
  · obtain ⟨t, h, -⟩ := next_of_nextIs (p := fun _ => true) (o := exec wr (busyAt Config.ref wr .data 323 false)) (by decide +kernel)
    exact ⟨_, t, (inv_of_due due_write.2.2.2.2.2.2.1).1, by decide, rfl, rfl, by decide +kernel, h⟩

/-- A tick that raises a fault, and one that does not. -/
theorem witness_ReadFrame :
    (∃ s t : State, s.Inv ∧ s.startTick.run.ready = false ∧ exec rd s = .next t ∧ t.fault ≠ s.fault) ∧ ∃ s t : State, s.Inv ∧ exec rd s = .next t ∧ t.fault = s.fault := by
  constructor
  · obtain ⟨t, h, ht⟩ := next_of_nextIs (p := fun t => t.fault)
      (o := exec rd { busyAt Config.ref rd .awaitReady 164 false with pollcnt := 100 }) (by decide +kernel)
    exact ⟨_, t, (inv_of_due due_read.2.2.1).1, by decide +kernel, h, by rw [ht]; decide⟩
  · obtain ⟨t, h, ht⟩ := next_of_nextIs (p := fun t => !t.fault) (o := exec rd State.reset) (by decide +kernel)
    exact ⟨_, t, inv_reset _ _ (by decide), h, by simpa [State.reset, State.resetWith] using ht⟩

theorem witness_WriteNeverReadsInput : (State.reset.Inv ∧ (State.reset.busy = true → State.reset.dir = .write)) ∧
    ∃ s : State, s.Inv ∧ s.busy = true ∧ s.dir = .write ∧ s.startTick.run.ready = false :=
  ⟨⟨inv_reset _ _ (by decide), fun _ => rfl⟩, ⟨_, (inv_of_due due_write.2.2.2.1).1, rfl, rfl, by decide +kernel⟩⟩

theorem witness_IdleHolds : State.reset.Inv ∧ State.reset.ready = true := ⟨inv_reset _ _ (by decide), rfl⟩
theorem witness_ExecHasNextState : State.reset.Inv ∧ faulted.Inv := ⟨inv_reset _ _ (by decide), inv_faulted⟩

/-- A tick with a request, one without, one without a reset event, and two table words. -/
theorem witness_StepRunsPresented : (begins Config.ref wr (quiet .zero .zero)).presented = some wr ∧
    ({ State.reset with env := [quiet .zero .zero] } : State).presented = none ∧
    ({ State.reset with env := [quiet .zero .zero] } : State).tickInput.reset = false ∧
    decodeTableWord 64 (0xA000002A + 0xDEADBEEF * 2 ^ 32) = some wr ∧ decodeTableWord 32 0x4000003F = some rd := by decide +kernel

theorem witness_StepKeepsInvariant : State.reset.Inv ∧ faulted.Inv ∧ (busyAt Config.ref wr .width 18 false).Inv ∧
    (busyAt Config.ref rd .response 171 false).Inv :=
  ⟨inv_reset _ _ (by decide), inv_faulted, (inv_of_due due_write.2.2.2.1).1, (inv_of_due due_read.2.2.2.2.2.1).1⟩

theorem witness_ResetMeetsInvariant : Config.ref.Admissible ∧ tiny.Admissible := by decide

/-- Every clause: `Idle`, the phases with chip-select active, `Data`, `AwaitReady`, `Response`, `Fault`. -/
theorem witness_ChipSelectFramesTransaction : (State.reset.Inv ∧ State.reset.phase = .idle) ∧
    (∃ s : State, s.Inv ∧ s.phase = .width) ∧ (∃ s : State, s.Inv ∧ s.phase = .data) ∧
    (∃ s : State, s.Inv ∧ s.phase = .awaitReady) ∧ (∃ s : State, s.Inv ∧ s.phase = .response) ∧ faulted.Inv ∧ faulted.phase = .fault :=
  ⟨⟨inv_reset _ _ (by decide), rfl⟩, ⟨_, (inv_of_due due_write.2.2.2.1).1, rfl⟩, ⟨_, (inv_of_due due_write.2.2.2.2.2.2.1).1, rfl⟩,
    ⟨_, (inv_of_due due_read.2.1).1, rfl⟩, ⟨_, (inv_of_due due_read.2.2.2.2.2.1).1, rfl⟩, inv_faulted, rfl⟩

/-- A poll due at the bound: `POLL_MAX` of REF, and 0; the start of the polls with the bound 0. -/
theorem witness_TimeoutEntry :
    (∀ s, s = { busyAt Config.ref rd .awaitReady 164 false with pollcnt := 100 } → s.cfg.Admissible ∧ s.running = true ∧
      s.seq[s.pos]? = some (.awaitReady, .poll) ∧ s.pollcnt = s.cfg.pollMax) ∧
    (∀ s, s = busyAt { Config.ref with pollMax := 0 } rd .awaitReady 164 false → s.cfg.Admissible ∧ s.running = true ∧
      s.seq[s.pos]? = some (.awaitReady, .poll) ∧ s.pollcnt = s.cfg.pollMax) ∧
    ∀ s, s = busyAt { Config.ref with pollMax := 0 } rd .address 163 false → s.cfg.Admissible ∧ s.running = true ∧
      s.seq[s.pos]? = some (.awaitReady, .pollInit) ∧ s.cfg.pollMax = 0 := by
  refine ⟨fun s h => ?_, fun s h => ?_, fun s h => ?_⟩ <;> subst h <;> decide +kernel

/-- X at a poll, at a data sample and at the first poll that are due, under Strict and under Normalize. -/
theorem witness_UndefinedSampleEntry : ∀ cfg ∈ [Config.ref, strict],
    (∃ s : State, s.cfg = cfg ∧ s.Inv ∧ s.running = true ∧ s.seq[s.pos]? = some (.awaitReady, .poll) ∧ s.pollcnt < s.cfg.pollMax ∧
      s.input .ready = .x) ∧
    (∃ s : State, s.cfg = cfg ∧ s.Inv ∧ s.running = true ∧ s.seq[s.pos]? = some (.response, .sampleMiso) ∧ s.input .miso = .x) ∧
    ∃ s : State, s.cfg = cfg ∧ s.Inv ∧ s.running = true ∧ s.seq[s.pos]? = some (.awaitReady, .pollInit) ∧ 0 < s.cfg.pollMax ∧
      s.input .ready = .x := by
  intro cfg hc
  simp only [List.mem_cons, List.not_mem_nil, or_false] at hc
  rcases hc with rfl | rfl <;>
    exact ⟨⟨{ busyAt _ rd .awaitReady 164 false with pollcnt := 99, env := [quiet .zero .x] }, rfl, inv_of_check (by decide +kernel), rfl,
      by decide +kernel, by decide, rfl⟩, ⟨{ busyAt _ rd .response 171 false with env := [quiet .x .zero] }, rfl,
      inv_of_check (by decide +kernel), rfl, by decide +kernel, rfl⟩, { busyAt _ rd .address 163 false with env := [quiet .zero .x] }, rfl,
      inv_of_check (by decide +kernel), rfl, by decide +kernel, by decide, rfl⟩

/-- In `Fault`, with requests at every tick, and with a reset event. -/
theorem witness_FaultIsTerminal :
    (∀ n, ({ faulted with env := List.replicate 400 (asks wr) } : State).NoReset n) ∧
    ({ faulted with env := List.replicate 400 (asks wr) } : State).Inv ∧
    ({ faulted with env := [resets] } : State).Inv ∧ ({ faulted with env := [resets] } : State).phase = .fault ∧
    ({ faulted with env := [resets] } : State).tickInput.reset = true ∧ ({ faulted with env := [resets] } : State).presented = none := by
  refine ⟨fun n k _ => ?_, inv_of_check (by decide +kernel), inv_of_check (by decide +kernel), rfl, rfl, rfl⟩
  simp only [State.inputsAhead, List.getElem?_replicate]
  split <;> rfl

theorem witness_ResetEventResets : ∀ s, s = { faulted with env := [resets] } →
    s.cfg.Admissible ∧ s.tickInput.reset = true ∧ s.presented = none := by
  intro s h; subst h; exact ⟨by decide, rfl, rfl⟩

/-- A WRITE that begins, with a settle delay and without, and no request at the tick of `done`. -/
theorem witness_WriteRunsToDone : ∀ cfg ∈ [Config.ref, tiny], (begins cfg wr (quiet .x .x)).Begins wr (cfg.writeTicks + 1) ∧
    ((begins cfg wr (quiet .x .x)).inputsAhead cfg.writeTicks).req = none := by
  intro cfg hc
  simp only [List.mem_cons, List.not_mem_nil, or_false] at hc
  rcases hc with rfl | rfl <;> exact ⟨begins_begins _ _ _ (by decide) rfl rfl _, by decide +kernel⟩

theorem witness_WriteWaveform : ∀ cfg ∈ [Config.ref, tiny], (begins cfg wr (quiet .zero .one)).Begins wr cfg.writeTicks := by
  intro cfg hc
  simp only [List.mem_cons, List.not_mem_nil, or_false] at hc
  rcases hc with rfl | rfl <;> exact begins_begins _ _ _ (by decide) rfl rfl _

theorem witness_WriteFrameObservable : ∀ cfg ∈ [Config.ref, tiny], (begins cfg wr (quiet .zero .one)).Begins wr cfg.writeTicks :=
  witness_WriteWaveform

theorem begins_cfg (cfg : Config) (i : Instr) (later : TickInput) : (begins cfg i later).cfg = cfg := rfl

/-- What every tick of `begins` after the first reads. -/
theorem begins_input (cfg : Config) (i : Instr) (miso ready : Tri) (h0 : cfg.misoBit = 0) (h1 : cfg.readyBit = 1) (k : Nat)
    (hk : 0 < k) (hk2 : k ≤ 400) :
    (begins cfg i (quiet miso ready)).inputAhead k .ready = ready ∧ (begins cfg i (quiet miso ready)).inputAhead k .miso = miso := by
  obtain ⟨k, rfl⟩ : ∃ q, k = q + 1 := ⟨k - 1, by omega⟩
  simp only [State.inputAhead, State.inputsAhead, begins, List.getElem?_cons_succ, List.getElem?_replicate]
  rw [if_pos (by omega)]
  have hc : (State.resetWith cfg).cfg = cfg := rfl
  constructor
  · simp [TickInput.line, inIndex, quiet, hc, h1]
  · simp [TickInput.line, inIndex, quiet, hc, h0]

/-- REF with a bound of two polls and a settle of one tick. -/
def short : Config := { Config.ref with pollMax := 2, tReadySettle := 1 }

/-- The engine of `begins short rd` whose first poll reads 0 and whose second, the last one allowed, reads 1. -/
def lastPoll : State :=
  { State.resetWith short with env := asks rd :: (List.replicate 132 (quiet .x .zero) ++ List.replicate 268 (quiet .x .one)) }

theorem lastPoll_noReset (n : Nat) : lastPoll.NoReset n := by
  intro k _
  cases k with
  | zero => rfl
  | succ k =>
    simp only [State.inputsAhead, lastPoll, List.getElem?_cons_succ, List.getElem?_append, List.getElem?_replicate]
    split <;> split <;> rfl

/-- A READ of which the first poll succeeds (`k = 1`; REF, and Strict without settle delays), and one of which the last does
(`k = POLL_MAX`). -/
theorem witness_ReadReturnsResponse :
    (∀ cfg ∈ [Config.ref, tiny], (begins cfg rd (quiet .one .one)).Begins rd (cfg.readTicks 1 + 1) ∧
      (begins cfg rd (quiet .one .one)).PollSucceedsAt 1 ∧ (begins cfg rd (quiet .one .one)).SamplesClean 1 ∧
      ((begins cfg rd (quiet .one .one)).inputsAhead (cfg.readTicks 1)).req = none) ∧
    lastPoll.Begins rd (lastPoll.cfg.readTicks 2 + 1) ∧ lastPoll.PollSucceedsAt 2 ∧ lastPoll.SamplesClean 2 ∧
      (lastPoll.inputsAhead (lastPoll.cfg.readTicks 2)).req = none := by
  refine ⟨fun cfg hc => ?_, ⟨inv_of_check (by decide +kernel), rfl, rfl, lastPoll_noReset _⟩, ⟨by decide, by decide, by decide +kernel, ?_⟩,
    fun h => absurd h (by decide), by decide +kernel⟩
  · simp only [List.mem_cons, List.not_mem_nil, or_false] at hc
    rcases hc with rfl | rfl
    · refine ⟨begins_begins _ _ _ (by decide) rfl rfl _, ⟨by decide, by decide, by decide +kernel, ?_⟩, fun h => absurd h (by decide),
        by decide +kernel⟩
      intro i hi; omega
    · refine ⟨begins_begins _ _ _ (by decide) rfl rfl _, ⟨by decide, by decide, by decide +kernel, ?_⟩, fun _ => ⟨fun i hi => ?_, fun j hj => ?_⟩,
        by decide +kernel⟩
      · intro i hi; omega
      · rw [State.pollAhead, (begins_input tiny rd .one .one rfl rfl _ (by simp [Config.firstPoll, begins_cfg, tiny, Config.ref])
          (by simp [Config.firstPoll, begins_cfg, tiny, Config.ref]; omega)).1]
        decide
      · rw [State.dataAhead, (begins_input tiny rd .one .one rfl rfl _ (by
          simp [Config.sampleOffset, Config.firstEdge, Config.firstPoll, begins_cfg, tiny, Config.ref]) (by
          simp [Config.sampleOffset, Config.firstEdge, Config.firstPoll, begins_cfg, tiny, Config.ref]; omega)).2]
        decide
  · intro i hi
    obtain rfl : i = 0 := by omega
    decide +kernel

theorem witness_ReadWaveform : lastPoll.Begins rd (lastPoll.cfg.readTicks 2) ∧ lastPoll.PollSucceedsAt 2 ∧ lastPoll.SamplesClean 2 :=
  ⟨⟨inv_of_check (by decide +kernel), rfl, rfl, lastPoll_noReset _⟩, witness_ReadReturnsResponse.2.2.1, witness_ReadReturnsResponse.2.2.2.1⟩

theorem witness_ReadFrameObservable : lastPoll.Begins rd (lastPoll.cfg.readTicks 2) ∧ lastPoll.PollSucceedsAt 2 ∧
    lastPoll.SamplesClean 2 := witness_ReadWaveform

/-- A READ whose ready flag is 0 at every poll (REF), X at every poll under Normalize (REF), 0 under Strict (`tiny`), and one
without polls. -/
theorem witness_TimeoutExactlyAtBound : ∀ c ∈ [(Config.ref, Tri.zero), (Config.ref, Tri.x), (tiny, Tri.zero),
      ({ Config.ref with pollMax := 0 }, Tri.one)],
    (begins c.1 rd (quiet .zero c.2)).Begins rd (c.1.firstPoll + c.1.pollMax + 1) ∧
    (∀ i, i < c.1.pollMax → (begins c.1 rd (quiet .zero c.2)).pollAhead i ≠ .one) ∧
    (c.1.xmode = .strict → ∀ i, i < c.1.pollMax → (begins c.1 rd (quiet .zero c.2)).pollAhead i ≠ .x) := by
  intro c hc
  simp only [List.mem_cons, List.not_mem_nil, or_false] at hc
  rcases hc with rfl | rfl | rfl | rfl <;>
    refine ⟨begins_begins _ _ _ (by decide) rfl rfl _, fun i hi => ?_, fun hx i hi => ?_⟩ <;>
    first
    | exact absurd hx (by decide)
    | exact absurd hi (Nat.not_lt_zero i)
    | (rw [State.pollAhead, (begins_input _ rd _ _ rfl rfl _ (by simp [Config.firstPoll, begins_cfg, tiny, Config.ref])
        (by simp only [Config.firstPoll, begins_cfg, tiny, Config.ref] at hi ⊢; omega)).1]; decide)

/-- Strict REF, the bound of polls at `n`. -/
def strictTo (n : Nat) : Config := { strict with pollMax := n }

/-- The engine of `begins cfg rd` that sees the ready flag at 0 for `n` ticks and then at X. -/
def undefinedAfter (cfg : Config) (n : Nat) : State :=
  { State.resetWith cfg with env := asks rd :: (List.replicate n (quiet .zero .zero) ++ List.replicate 10 (quiet .zero .x)) }

theorem undefinedAfter_begins (cfg : Config) (h : cfg.Admissible) (n m : Nat) : (undefinedAfter cfg n).Begins rd m := by
  refine ⟨inv_reset cfg _ h, rfl, rfl, fun k _ => ?_⟩
  cases k with
  | zero => rfl
  | succ k =>
    simp only [State.inputsAhead, undefinedAfter, List.getElem?_cons_succ, List.getElem?_append, List.getElem?_replicate]
    split <;> split <;> rfl

/-- X at the first poll (`q = 0`, 95_test_vectors.md 2.3: 132), and at the last (`q = POLL_MAX - 1`). -/
theorem witness_UndefinedPollFaultsAtItsTick :
    (∀ s, s = undefinedAfter strict 131 → s.Begins rd (s.cfg.firstPoll + 0 + 1) ∧ s.cfg.xmode = .strict ∧ 0 < s.cfg.pollMax ∧
      s.pollAhead 0 = .x) ∧
    ∀ s, s = undefinedAfter (strictTo 2) 132 → s.Begins rd (s.cfg.firstPoll + 1 + 1) ∧ s.cfg.xmode = .strict ∧ 1 < s.cfg.pollMax ∧
      (∀ i, i < 1 → s.pollAhead i = .zero) ∧ s.pollAhead 1 = .x := by
  refine ⟨fun s h => ?_, fun s h => ?_⟩ <;> subst h
  · exact ⟨undefinedAfter_begins _ (by decide) _ _, by decide, by decide, by decide +kernel⟩
  · refine ⟨undefinedAfter_begins _ (by decide) _ _, by decide, by decide, fun i hi => ?_, by decide +kernel⟩
    obtain rfl : i = 0 := by omega
    decide +kernel

/-- The engine of `begins cfg rd` that sees both lines at 1 for `n` ticks and then data-in at X. -/
def undefinedDatum (cfg : Config) (n : Nat) : State :=
  { State.resetWith cfg with env := asks rd :: (List.replicate n (quiet .one .one) ++ List.replicate 10 (quiet .x .one)) }

theorem undefinedDatum_begins (cfg : Config) (h : cfg.Admissible) (n m : Nat) : (undefinedDatum cfg n).Begins rd m := by
  refine ⟨inv_reset cfg _ h, rfl, rfl, fun k _ => ?_⟩
  cases k with
  | zero => rfl
  | succ k =>
    simp only [State.inputsAhead, undefinedDatum, List.getElem?_cons_succ, List.getElem?_append, List.getElem?_replicate]
    split <;> split <;> rfl

/-- X at the first data sample, under either sampling point (R88: offset 132 + 5 + 4 with AfterPair in REF), and at the last. -/
theorem witness_UndefinedDataFaultsAtItsTick :
    (∀ s, s = undefinedDatum strict 140 ∨ s = undefinedDatum tiny 64 → (∀ m, s.Begins rd m) ∧ s.cfg.xmode = .strict ∧ s.PollSucceedsAt 1 ∧
      (∀ i, i < 1 → s.pollAhead i ≠ .x) ∧ s.dataAhead 1 0 = .x) ∧
    ∀ s, s = undefinedDatum tiny 126 → (∀ m, s.Begins rd m) ∧ s.cfg.xmode = .strict ∧ s.PollSucceedsAt 1 ∧
      (∀ i, i < 1 → s.pollAhead i ≠ .x) ∧ (∀ m, m < 31 → s.dataAhead 1 m ≠ .x) ∧ s.dataAhead 1 31 = .x := by
  refine ⟨fun s h => ?_, fun s h => ?_⟩
  · rcases h with rfl | rfl
    all_goals
      refine ⟨undefinedDatum_begins _ (by decide) _, by decide, ⟨by decide, by decide, by decide +kernel, ?_⟩, ?_, by decide +kernel⟩
      · intro i hi; omega
      · intro i hi
        obtain rfl : i = 0 := by omega
        decide +kernel
  · subst h
    refine ⟨undefinedDatum_begins _ (by decide) _, by decide, ⟨by decide, by decide, by decide +kernel, ?_⟩, ?_, by decide +kernel,
      by decide +kernel⟩
    · intro i hi; omega
    · intro i hi
      obtain rfl : i = 0 := by omega
      decide +kernel

/-- A request at rest, one at the tick of `done`, and one while the engine waits. -/
theorem witness_RequestTakenIffReady :
    (begins Config.ref wr (quiet .zero .zero)).Inv ∧ (begins Config.ref wr (quiet .zero .zero)).presented = some wr ∧
    (begins Config.ref wr (quiet .zero .zero)).atAccept.ready = true ∧
    (∀ s, s = { busyAt Config.ref rd .teardown 363 true with env := [asks wr] } → s.Inv ∧ s.presented = some wr ∧
      s.atAccept.ready = true ∧ s.busy = true ∧ s.tickInput.reset = false ∧ s.startTick.run.done = true) ∧
    ∀ s, s = { busyAt Config.ref wr .width 9 false with waitcnt := 2, env := [asks rd] } → s.Inv ∧ s.presented = some rd ∧
      s.atAccept.ready = false := by
  refine ⟨inv_reset _ _ (by decide), rfl, by decide +kernel, fun s h => ?_, fun s h => ?_⟩ <;> subst h
  · exact ⟨inv_of_check (by decide +kernel), rfl, by decide +kernel, rfl, rfl, by decide +kernel⟩
  · exact ⟨inv_of_check (by decide +kernel), rfl, by decide +kernel⟩

/-- A program of one tick that runs, and programs refused for each breach: a request for another operation and one that
repeats the operation in flight (R101), and a reset event. -/
theorem witness_DisciplinedProgramRuns :
    (∃ t, (begins Config.ref wr (quiet .zero .zero)).Inv ∧ programRun 1 (begins Config.ref wr (quiet .zero .zero)) = .ran t) ∧
    (∀ i ∈ [rd, wr], ∀ s, s = { busyAt Config.ref wr .width 9 false with waitcnt := 2, env := [asks i] } → s.Inv ∧
      programRun 2 s = .refused .requestWhileNotReady s) ∧
    ∀ s, s = { busyAt Config.ref wr .width 9 false with env := [resets] } → s.Inv ∧ programRun 2 s = .refused .resetWhileBusy s := by
  refine ⟨?_, fun i hi s h => ?_, fun s h => ?_⟩
  · obtain ⟨t, h, -⟩ := next_of_nextIs (p := fun _ => true) (o := step (begins Config.ref wr (quiet .zero .zero))) (by decide +kernel)
    exact ⟨t, inv_reset _ _ (by decide), by rw [programRun_next 0 (by decide +kernel) h]; rfl⟩
  · subst h
    simp only [List.mem_cons, List.not_mem_nil, or_false] at hi
    rcases hi with rfl | rfl <;> exact ⟨inv_of_check (by decide +kernel), programRun_refused 1 (by decide +kernel)⟩
  · subst h; exact ⟨inv_of_check (by decide +kernel), programRun_refused 1 (by decide +kernel)⟩

/-- A program that presents a WRITE to an engine after reset and nothing more, with a settle delay and without. -/
theorem witness_DisciplinedWriteIsDone : ∀ cfg ∈ [Config.ref, tiny], ∃ t, (begins cfg wr (quiet .x .x)).Inv ∧
    (begins cfg wr (quiet .x .x)).ready = true ∧ (begins cfg wr (quiet .x .x)).presented = some wr ∧
    programRun (cfg.writeTicks + 1) (begins cfg wr (quiet .x .x)) = .ran t := by
  intro cfg hc
  have key : cfg.Admissible → (begins cfg wr (quiet .x .x)).HostDisciplined →
      ∃ t, (begins cfg wr (quiet .x .x)).Inv ∧ (begins cfg wr (quiet .x .x)).ready = true ∧
        (begins cfg wr (quiet .x .x)).presented = some wr ∧ programRun (cfg.writeTicks + 1) (begins cfg wr (quiet .x .x)) = .ran t := by
    intro hA hd
    have hI : (begins cfg wr (quiet .x .x)).Inv := inv_reset _ _ hA
    obtain ⟨u, hu, huI, he⟩ := step_accepts (i := wr) hI rfl rfl rfl
    replace he : u.env = List.replicate 400 (quiet .x .x) := he
    have hq : ∀ k, (u.inputsAhead k).req = none ∧ (u.inputsAhead k).reset = false := by
      intro k
      rw [State.inputsAhead, he, List.getElem?_replicate]
      split <;> exact ⟨rfl, rfl⟩
    obtain ⟨t, ht⟩ := programRun_quiet cfg.writeTicks u huI (fun k _ => (hq k).1) fun k _ => (hq k).2
    exact ⟨t, hI, rfl, rfl, by rw [programRun_next _ hd hu]; exact ht⟩
  simp only [List.mem_cons, List.not_mem_nil, or_false] at hc
  rcases hc with rfl | rfl <;> exact key (by decide) (by decide +kernel)

/-- A peripheral that drives its two lines at constant levels. -/
def constant (miso ready : Tri) : Peripheral Unit where
  drives _ l := match l with
    | .miso => miso
    | .ready => ready
  tick _ _ _ := ()

/-- The ready flag always at 0, also under Strict, and always at X under Normalize; as many ticks as the timeout takes, and one fewer. -/
theorem witness_ReadCallObservesTimeout :
    (∀ cfg ∈ [Config.ref, strict], (State.resetWith cfg).Inv ∧ (State.resetWith cfg).ready = true ∧
      (∀ m, (constant .one .zero).drives m .ready ≠ .one) ∧
      (cfg.xmode = .strict → ∀ m, (constant .one .zero).drives m .ready ≠ .x) ∧
      cfg.firstPoll + cfg.pollMax ≤ 232 ∧ 231 < cfg.firstPoll + cfg.pollMax) ∧
    (∀ m, (constant .one .x).drives m .ready ≠ .one) ∧ Config.ref.xmode ≠ .strict := by
  refine ⟨fun cfg hc => ?_, fun _ => by simp [constant], by decide⟩
  simp only [List.mem_cons, List.not_mem_nil, or_false] at hc
  rcases hc with rfl | rfl <;>
    exact ⟨inv_reset _ _ (by decide), rfl, fun _ => by simp [constant], fun _ _ => by simp [constant], by decide, by decide⟩

/-- The least number of ticks: REF, and no poll allowed. -/
theorem witness_EveryCallEnds : ∀ cfg ∈ [Config.ref, tiny, { Config.ref with pollMax := 0 }], (State.resetWith cfg).Inv ∧
    (State.resetWith cfg).ready = true ∧ cfg.longest ≤ 371 := by
  intro cfg hc
  simp only [List.mem_cons, List.not_mem_nil, or_false] at hc
  rcases hc with rfl | rfl | rfl <;> exact ⟨inv_reset _ _ (by decide), rfl, by decide⟩

/-- The engine after reset and the fixture with a ready latency of 5 ticks (95_test_vectors.md, P1), at the least bound on the ticks of a
call, and the largest latency within the bound of polls. -/
theorem witness_MockPeripheralEchoes :
    Config.ref.longest ≤ 370 ∧
    AtRest (State.reset, Mock.init Config.ref (some 5) []) ∧ (State.reset, Mock.init Config.ref (some 5) []).1.cfg = Config.ref ∧
    AtRest (State.reset, Mock.init Config.ref (some 101) []) := by
  refine ⟨by decide, ⟨inv_reset _ _ (by decide), rfl, by decide, by decide, rfl, rfl, rfl, rfl, 5, rfl, by decide, by decide⟩, rfl,
    ⟨inv_reset _ _ (by decide), rfl, by decide, by decide, rfl, rfl, rfl, rfl, 101, rfl, by decide, by decide⟩⟩

end Sys2Proof.Tests
end

section
/-! The invariant over a whole tick, a reset event included (R31, R100, R127), and what a tick reads and writes of `WAITCNT`, `POLLCNT`,
`RDATA` and the event `done` (R21, R23, R24, R97). -/

namespace Sys2Proof.Machine
open Sys2Proof

/-! ### An engine at rest -/

/-- What the invariant asks of an engine at rest in `Idle`. -/
theorem inv_of_idle {s : State} (hA : s.cfg.Admissible) (hother : s.port.other.length = s.cfg.wOut)
    (hpoll : s.pollcnt ≤ s.cfg.pollMax) (hphase : s.phase = .idle) (hfault : s.fault = false) (hcode : s.faultCode = 0)
    (hwait : s.waitcnt = 0) (hcs : s.port.cs = s.cfg.csIdle) : s.Inv where
  admissible := hA
  otherLength := hother
  pollBound := hpoll
  faultPhaseIff := by simp [hfault, hphase]
  faultCodes := by simp [hfault, hcode]
  faultedIn := by simp [hfault]
  restWait _ := hwait
  cursor hb := absurd hphase ((busy_iff s).mp hb).1
  chipSelect := by rw [hphase]; exact hcs

theorem resetWith_inv {cfg : Config} (h : cfg.Admissible) : (State.resetWith cfg).Inv :=
  inv_of_idle h (List.length_replicate ..) (Nat.zero_le _) rfl rfl rfl rfl rfl

/-- A reset event gives the values of R31, whatever the state (R127). -/
theorem environment_of_reset {s : State} (h : s.tickInput.reset = true) :
    s.environment = State.resetEvent { s with port := { s.port with other := s.driven } } := by
  simp [State.environment, h]

/-- With or without a reset event, the environment's part of a tick keeps the invariant (R17, R127). -/
theorem environment_keeps_midInv {s : State} (h : s.Inv) : s.environment.MidInv := by
  cases hr : s.tickInput.reset with
  | false => exact environment_midInv h hr
  | true =>
    have hlen : s.driven.length = s.cfg.wOut := by simp [State.driven]
    rw [environment_of_reset hr]
    exact State.Inv.mid (inv_of_idle h.admissible hlen (Nat.zero_le _) rfl rfl rfl rfl rfl)

/-- The engine's tick with parameters in their domains (R100): the run loops with the acceptance between them, then the countdown. -/
theorem engineTick_of_admissible {s : State} (hA : s.cfg.Admissible) (acc : State → State) :
    engineTick acc s =
      if (s.runAccept acc).running then .fault .cursorLost else .next (s.runAccept acc).countdown := by
  simp only [engineTick]
  rw [if_pos hA]

/-- A tick whose run loops leave nothing to run has a next state: there the wait is counted down (R100 (d)). -/
theorem engineTick_of_stops {acc : State → State} {s : State} (hA : s.cfg.Admissible)
    (h : (s.runAccept acc).running = false) : engineTick acc s = .next (s.runAccept acc).countdown := by
  rw [engineTick_of_admissible hA, h]
  rfl

/-- An engine at rest passes a tick without a request: only the event `done` ends (R100). -/
theorem idleTick_of_ready {s : State} (hA : s.cfg.Admissible) (hr : s.ready = true) (hw : s.waitcnt = 0) :
    idleTick s = .next { s with done := false } := by
  have hstop : s.startTick.running = false := not_running_of_ready (s := s.startTick) hr
  have hra : s.runAccept id = s.startTick := by simp [State.runAccept, run_of_not_running hstop]
  rw [idleTick, engineTick_of_stops hA (hra ▸ hstop), hra]
  simp [State.countdown, State.startTick, hw]

/-! ### The tick and the invariant -/

/-- What acceptance does at a tick: nothing, or the acceptance of the operation presented (R94). -/
def acceptPresented : Option Instr → State → State
  | none => id
  | some i => acceptInstr i

/-- A step is the environment's part of the tick, the engine's tick with what is presented, and the advance of time (R100). -/
theorem step_eq_engineTick (s : State) :
    step s = mapNext State.nextTick (engineTick (acceptPresented s.presented) s.environment) := by
  rw [← environment_presented]
  simp only [step]
  cases s.environment.presented with
  | none => rfl
  | some i => rw [acceptPresented, ← exec_eq_acceptInstr]

theorem acceptPresented_midInv {s : State} (o : Option Instr) (h : s.MidInv) (hr : s.ready = true) :
    (acceptPresented o s).MidInv := by
  cases o with
  | none => exact h
  | some i => exact h.accept i hr

/-- The run loops of a tick, with the acceptance between them, keep the invariant and end with nothing left to run (R100). -/
theorem runAccept_midInv {s : State} (o : Option Instr) (h : s.MidInv) :
    (s.runAccept (acceptPresented o)).MidInv ∧ (s.runAccept (acceptPresented o)).running = false := by
  have h1 := h.startTick
  rcases runAccept_cases s (acceptPresented o) with ⟨hr, e⟩ | ⟨-, e⟩ <;> rw [e]
  · have h2 := acceptPresented_midInv o h1.run hr
    exact ⟨h2.run, h2.run_stops⟩
  · exact ⟨h1.run, h1.run_stops⟩

/-- Every step from a state of the invariant has a next state, and the invariant holds in it. -/
theorem step_keeps_inv {s : State} (h : s.Inv) : ∃ t, step s = .next t ∧ t.Inv := by
  have he := environment_keeps_midInv h
  obtain ⟨hm, hstop⟩ := runAccept_midInv s.presented he
  refine ⟨(s.environment.runAccept (acceptPresented s.presented)).endTick, ?_, endTick_inv hm hstop⟩
  rw [step_eq_engineTick, engineTick_of_stops he.admissible hstop]
  rfl

/-- A tick that has a next state ends the run loop there and counts the wait down (R100 (d)). -/
theorem engineTick_next {acc : State → State} {s t : State} (hA : s.cfg.Admissible) (h : engineTick acc s = .next t) :
    t = (s.runAccept acc).countdown := by
  rw [engineTick_of_admissible hA] at h
  split at h <;> cases h
  rfl

/-! ### What a micro-operation does to the event `done`, the phase and `RDATA` -/

/-- `Complete` alone writes `RDATA`, and no other micro-operation leaves its phase but by a fault (R97, R98, R113). -/
theorem exec_of_ne_complete {op : MicroOp} (s : State) (h : op ≠ .complete) :
    (op.exec s).rdata = s.rdata ∧ ((op.exec s).phase = s.phase ∨ (op.exec s).phase = .fault) := by
  cases op <;> simp only [MicroOp.exec]
  case poll => rw [pollRound_eq]; split <;> [skip; split] <;> simp
  case sampleMiso => rw [sampleData_eq]; split <;> simp
  case complete => exact absurd rfl h
  all_goals simp

/-- No micro-operation reads the event `done`, and `Complete` alone writes it, which sets it (R97). -/
theorem exec_with_done {op : MicroOp} {b : Bool} (s : State) (h : op = .complete → b = true) :
    op.exec { s with done := b } = { op.exec s with done := b } := by
  have hin : ∀ l, ({ s with done := b } : State).input l = s.input l := fun _ => rfl
  cases op <;> simp only [MicroOp.exec]
  case poll =>
    rw [pollRound_eq, pollRound_eq, hin]
    by_cases h1 : s.pollcnt = s.cfg.pollMax
    · rw [if_pos h1, if_pos h1]; rfl
    · by_cases h2 : s.input .ready = .x ∧ s.cfg.xmode = .strict
      · rw [if_neg h1, if_neg h1, if_pos h2, if_pos h2]; rfl
      · rw [if_neg h1, if_neg h1, if_neg h2, if_neg h2]
  case sampleMiso =>
    rw [sampleData_eq, sampleData_eq, hin]
    by_cases h2 : s.input .miso = .x ∧ s.cfg.xmode = .strict
    · rw [if_pos h2, if_pos h2]; rfl
    · rw [if_neg h2, if_neg h2]
  case complete => rw [h rfl]; rfl
  all_goals rfl

/-- `POLLCNT` belongs to the two micro-operations of the polling (R24, R84). -/
theorem exec_pollcnt {op : MicroOp} (s : State) (hp : op ≠ .poll) (hi : op ≠ .pollInit) :
    (op.exec s).pollcnt = s.pollcnt := by
  cases op <;> simp only [MicroOp.exec]
  case poll => exact absurd rfl hp
  case pollInit => exact absurd rfl hi
  case sampleMiso => rw [sampleData_eq]; split <;> rfl
  all_goals rfl

/-- One round of the run loop: nothing, or the micro-operation at the cursor in a phase of a transaction (R98, R100 (a)). -/
theorem microStep_cases (s : State) : s.microStep = s ∨
    ∃ (p : Phase) (op : MicroOp), Phase.busy p = true ∧ s.microStep = op.exec { s with phase := p } := by
  unfold State.microStep
  split
  · rename_i p op hg
    exact .inr ⟨p, op, phase_busy_of_mem (List.mem_of_getElem? hg), rfl⟩
  · exact .inl rfl

/-! ### What the run loop does to them -/

theorem microStep_with_done (s : State) :
    ({ s with done := true } : State).microStep = { s.microStep with done := true } := by
  simp only [State.microStep]
  rw [show ({ s with done := true } : State).seq = s.seq from rfl]
  cases s.seq[s.pos]? with
  | none => rfl
  | some o => exact exec_with_done { s with phase := o.1 } fun _ => rfl

theorem run_with_done (s : State) : ({ s with done := true } : State).run = { s.run with done := true } := by
  have key : ∀ (n : Nat) (s : State), ({ s with done := true } : State).runFor n = { s.runFor n with done := true } := by
    intro n
    induction n with
    | zero => exact fun _ => rfl
    | succ n ih =>
      intro s
      simp only [State.runFor]
      rw [show ({ s with done := true } : State).running = s.running from rfl, microStep_with_done]
      split
      · exact ih _
      · rfl
  exact key _ s

/-- The run loop comes to `Idle` by `Complete` alone, which gives the event `done` (R97). -/
theorem run_done_of_idle {s : State} (hb : s.busy = true) (hi : s.run.phase = .idle) : s.run.done = true := by
  have h : s.run.done = true ∨ s.run.phase ≠ .idle := by
    refine runFor_keeps (P := fun t => t.done = true ∨ t.phase ≠ .idle) ?_ _ s (.inr ((busy_iff s).mp hb).1)
    intro t _ ht
    rcases microStep_cases t with e | ⟨p, op, hp, e⟩ <;> rw [e]
    · exact ht
    by_cases hc : op = .complete
    · subst hc; exact .inl rfl
    · have hp' : p ≠ .idle := by rintro rfl; cases hp
      rcases (exec_of_ne_complete { t with phase := p } hc).2 with e | e <;> rw [e]
      · exact .inr hp'
      · exact .inr (by simp)
  exact h.resolve_right (not_not_intro hi)

/-- Without a READ in flight the run loop leaves `RDATA` alone (R21, R97). -/
theorem run_rdata_of_not_read {s : State} (hd : s.dir ≠ .read) : s.run.rdata = s.rdata := by
  refine (runFor_keeps (P := fun t => t.dir ≠ .read ∧ t.rdata = s.rdata) ?_ _ s ⟨hd, rfl⟩).2
  rintro t - ⟨hdt, ht⟩
  refine ⟨by rwa [(microStep_sameContext t).dir], ?_⟩
  rcases microStep_cases t with e | ⟨p, op, -, e⟩ <;> rw [e]
  · exact ht
  by_cases hc : op = .complete
  · subst hc; simp [MicroOp.exec, hdt, ht]
  · exact (exec_of_ne_complete { t with phase := p } hc).1.trans ht

/-! ### The waits (R23) -/

/-- A tick whose run loop leaves the engine in a wait: whatever is presented, only the countdown follows (R100 (d), R101). -/
theorem engineTick_of_wait {s m : State} (acc : State → State) (hA : s.cfg.Admissible) (hm : s.startTick.run = m)
    (hb : m.busy = true) (hw : 0 < m.waitcnt) : engineTick acc s = .next m.countdown := by
  subst hm
  exact engineTick_of_not_ready hA (not_running_of_wait hw) (not_ready_of_busy hb) acc

/-- The tick of a wait that goes on (R23). -/
theorem engineTick_of_waiting {s : State} {n : Nat} (acc : State → State) (hA : s.cfg.Admissible) (hb : s.busy = true)
    (hw : s.waitcnt = n + 1) : engineTick acc s = .next { s with waitcnt := n, done := false } := by
  have hpos : 0 < s.startTick.waitcnt := by simp [hw]
  rw [engineTick_of_wait acc hA (run_of_not_running (not_running_of_wait hpos)) hb hpos]
  simp [State.countdown, State.startTick, hw]

/-- The tick at which a wait begins (R23). -/
theorem engineTick_of_wait_due {s : State} {n : Nat} {p : Phase} (acc : State → State) (hA : s.cfg.Admissible)
    (hb : s.busy = true) (hw : s.waitcnt = 0) (hg : s.seq[s.pos]? = some (p, .wait (n + 1))) :
    engineTick acc s = .next { s with phase := p, pos := s.pos + 1, waitcnt := n, done := false } := by
  let m := MicroOp.exec (.wait (n + 1)) { s.startTick with phase := p }
  have hpos : 0 < m.waitcnt := Nat.succ_pos n
  have hm : s.startTick.run = m :=
    (run_at (m := s.startTick) hb hw hg).trans (run_of_not_running (not_running_of_wait hpos))
  have hp : p ≠ .idle ∧ p ≠ .fault := by simpa [Phase.busy] using phase_busy_of_mem (List.mem_of_getElem? hg)
  rw [engineTick_of_wait acc hA hm ((busy_iff m).mpr hp) hpos]
  rfl

/-- A tick whose micro-operation at the cursor is not `Complete` goes on as a tick from the state that it leaves (R100 (a)). -/
theorem engineTick_of_op {s : State} {p : Phase} {op : MicroOp} (acc : State → State) (hA : s.cfg.Admissible)
    (hb : s.busy = true) (hw : s.waitcnt = 0) (hg : s.seq[s.pos]? = some (p, op)) (hop : op ≠ .complete) :
    engineTick acc s = engineTick acc (op.exec { s with phase := p }) := by
  have hAm : (op.exec { s with phase := p }).cfg.Admissible := by
    rw [(exec_sameContext op { s with phase := p }).cfg]
    exact hA
  have hrun : s.startTick.run = (op.exec { s with phase := p }).startTick.run :=
    (run_at (m := s.startTick) hb hw hg).trans
      (congrArg State.run (exec_with_done { s with phase := p } fun h => absurd h hop))
  rw [engineTick_of_admissible hA, engineTick_of_admissible hAm, State.runAccept, hrun]
  rfl

/-- The tick of `Complete` is that of the completed state, with the event `done` (R97), if acceptance does not read the event. -/
theorem engineTick_of_complete {s : State} {p : Phase} {acc : State → State}
    (hacc : ∀ t, acc { t with done := true } = { acc t with done := true }) (hA : s.cfg.Admissible) (hb : s.busy = true)
    (hw : s.waitcnt = 0) (hg : s.seq[s.pos]? = some (p, .complete)) :
    engineTick acc s =
      mapNext (fun t => { t with done := true }) (engineTick acc (MicroOp.complete.exec { s with phase := p })) := by
  generalize hm : MicroOp.complete.exec { s with phase := p } = m
  have hAm : m.cfg.Admissible := by rw [← hm]; exact hA
  have hstop : m.running = false := by rw [← hm]; rfl
  have hs : s.startTick.run = { m.startTick with done := true } := by
    rw [run_at (m := s.startTick) hb hw hg, ← hm]
    exact run_of_not_running rfl
  have hra : s.runAccept acc = { m.runAccept acc with done := true } := by
    rw [State.runAccept, State.runAccept, hs, run_of_not_running (s := m.startTick) hstop, hacc, run_with_done]
    rw [show ({ m.startTick with done := true } : State).ready = m.startTick.ready from rfl]
    split <;> rfl
  rw [engineTick_of_admissible hA, engineTick_of_admissible hAm, hra]
  rw [show ({ m.runAccept acc with done := true } : State).running = (m.runAccept acc).running from rfl]
  split <;> rfl

/-! ### The frame of an operation -/

/-- Acceptance writes neither the parameters, the port, the inputs to come, the tick number nor the event `done` (R94). -/
theorem acceptInstr_frame (i : Instr) (s : State) : (acceptInstr i s).cfg = s.cfg ∧ (acceptInstr i s).port = s.port ∧
    (acceptInstr i s).env = s.env ∧ (acceptInstr i s).now = s.now ∧ (acceptInstr i s).done = s.done := by
  cases i <;> exact ⟨rfl, rfl, rfl, rfl, rfl⟩

/-- The micro-operations that execute at the tick of an acceptance do not complete (R94, R96). -/
theorem accept_run_rdata (i : Instr) {s : State} (hA : s.cfg.Admissible) : (acceptInstr i s).run.rdata = s.rdata := by
  rw [accept_run i s hA, accepted]
  cases i <;> simp only [acceptInstr] <;> split <;> rfl

/-- What no tick changes, accepting or not (R17, R27). -/
theorem runAccept_frame (i : Instr) (s : State) :
    (s.runAccept (acceptInstr i)).cfg = s.cfg ∧ (s.runAccept (acceptInstr i)).port.other = s.port.other ∧
    (s.runAccept (acceptInstr i)).env = s.env ∧ (s.runAccept (acceptInstr i)).now = s.now := by
  have h1 := run_sameContext s.startTick
  rcases runAccept_cases s (acceptInstr i) with ⟨-, e⟩ | ⟨-, e⟩ <;> rw [e]
  · obtain ⟨hcfg, hport, henv, hnow, -⟩ := acceptInstr_frame i s.startTick.run
    have h2 := run_sameContext (acceptInstr i s.startTick.run)
    exact ⟨h2.cfg.trans (hcfg.trans h1.cfg), h2.other.trans ((congrArg _ hport).trans h1.other),
      h2.env.trans (henv.trans h1.env), h2.now.trans (hnow.trans h1.now)⟩
  · exact ⟨h1.cfg, h1.other, h1.env, h1.now⟩

/-- A latch in flight is written only when the transaction is done and another is accepted at that tick (R46, R97). -/
theorem runAccept_latched {i : Instr} {s : State} (hb : s.busy = true) (hd : (s.runAccept (acceptInstr i)).done = false) :
    latchedInstr (s.runAccept (acceptInstr i)) = latchedInstr s := by
  rcases runAccept_cases s (acceptInstr i) with ⟨hr, e⟩ | ⟨-, e⟩ <;> rw [e] at hd ⊢
  · have h1 : s.startTick.run.done = true := run_done_of_idle (s := s.startTick) hb ((ready_iff _).mp hr).1
    have h2 : (acceptInstr i s.startTick.run).done = true := (acceptInstr_frame i _).2.2.2.2.trans h1
    rw [run_done _ (.inl h2)] at hd
    cases hd
  · exact fin_latched 0 s.startTick

/-- `RDATA` is written only when a READ is done at the tick (R21, R97). -/
theorem runAccept_rdata {i : Instr} {s : State} (hA : s.cfg.Admissible)
    (h : (s.runAccept (acceptInstr i)).rdata ≠ s.rdata) : s.dir = .read ∧ (s.runAccept (acceptInstr i)).done = true := by
  have hcfg := (run_sameContext s.startTick).cfg
  have key : s.startTick.run.rdata ≠ s.rdata → s.dir = .read ∧ s.startTick.run.done = true := fun hne =>
    ⟨by_contra fun hd => hne (run_rdata_of_not_read (s := s.startTick) hd), run_done s.startTick (.inr hne)⟩
  rcases runAccept_cases s (acceptInstr i) with ⟨-, e⟩ | ⟨-, e⟩ <;> rw [e] at h ⊢
  · rw [accept_run_rdata i (by rw [hcfg]; exact hA)] at h
    obtain ⟨hdir, hdone⟩ := key h
    exact ⟨hdir, run_done _ (.inl ((acceptInstr_frame i _).2.2.2.2.trans hdone))⟩
  · exact key h

/-! ### The statements -/

/-- Settles O29: the reset state is at rest in `Idle`, where the invariant asks for the values of R31. -/
theorem resetMeetsInvariant : Obligations.ResetMeetsInvariant :=
  ⟨fun _ h => resetWith_inv h, resetWith_inv (by decide)⟩

/-- Settles O34: the reset event gives the values at the start of its tick, and the tick of an engine at rest keeps them. -/
theorem resetEventResets : Obligations.ResetEventResets := by
  intro s hA hreset hreq
  have he := environment_of_reset hreset
  have hA' : s.environment.cfg.Admissible := by rw [he]; exact hA
  have hidle := idleTick_of_ready hA' (by rw [he]; rfl) (by rw [he]; rfl)
  refine ⟨State.nextTick { s.environment with done := false }, ?_, ?_⟩
  · rw [step_eq_engineTick, hreq]
    exact congrArg (mapNext State.nextTick) hidle
  · rw [he]
    exact ⟨rfl, rfl, rfl, rfl, rfl, rfl, rfl, rfl, rfl, rfl⟩

/-- Settles O13: one lemma for each kind of tick, whatever acceptance does at it. -/
theorem waitCountsTicks : Obligations.WaitCountsTicks := by
  refine ⟨fun _ _ => rfl, ?_, ?_, fun s p op hb hw hg => run_at hb hw hg, ?_⟩
  · intro s n p i hA hb hw hg
    rw [exec_eq_acceptInstr]
    exact ⟨engineTick_of_wait_due _ hA hb hw hg, engineTick_of_wait_due _ hA hb hw hg⟩
  · intro s n i hA hb hw
    rw [exec_eq_acceptInstr]
    exact ⟨engineTick_of_waiting _ hA hb hw, engineTick_of_waiting _ hA hb hw⟩
  · intro s p op i hA hb hw hg
    have hacc : ∀ t, acceptInstr i { t with done := true } = { acceptInstr i t with done := true } := by
      cases i <;> exact fun _ => rfl
    simp only [exec_eq_acceptInstr, idleTick]
    refine ⟨fun hop => ⟨engineTick_of_op _ hA hb hw hg hop, engineTick_of_op _ hA hb hw hg hop⟩, ?_⟩
    rintro rfl
    exact ⟨engineTick_of_complete hacc hA hb hw hg, engineTick_of_complete (fun _ => rfl) hA hb hw hg⟩

/-- Settles O14: the poll round in one equation, and the bound from the invariant that every step keeps. -/
theorem pollCountCountsPolls : Obligations.PollCountCountsPolls := by
  refine ⟨acceptRead_pollcnt, ?_, ?_, fun op s => exec_pollcnt s, ?_⟩
  · intro s hlt hx
    have hcnt : (MicroOp.poll.exec s).pollcnt = s.pollcnt + 1 := by
      rw [MicroOp.exec, pollRound_eq, if_neg (Nat.ne_of_lt hlt), if_neg hx]
    exact ⟨hcnt, hcnt ▸ hlt⟩
  · intro s hmax
    rw [MicroOp.exec, pollRound_eq, if_pos hmax]
  · intro s hI t ht
    obtain ⟨u, hu, hInv⟩ := step_keeps_inv hI
    cases hu.symm.trans ht
    exact hInv.pollBound

/-- Settles O21: the two run loops of the tick and the acceptance between them, part by part. -/
theorem execFrame : Obligations.ExecFrame := by
  intro i s t hI ht
  rw [exec_eq_acceptInstr] at ht
  rw [engineTick_next hI.admissible ht]
  obtain ⟨hcfg, hother, henv, hnow⟩ := runAccept_frame i s
  exact ⟨hcfg, hother, henv, hnow, runAccept_latched, runAccept_rdata hI.admissible⟩

end Sys2Proof.Machine
end

section
/-! The command word as a number (R52), a host call's reduction of its integers (R58), and the request signals of an operation
(R93). -/

namespace Sys2Proof.Machine
open Sys2Proof

/-! ### The command word -/

/-- Transmission of an appended vector: the high part first. -/
theorem bitsMsb_append {m n : Nat} (x : BitVec m) (y : BitVec n) : bitsMsb (x ++ y) = bitsMsb x ++ bitsMsb y := by
  apply List.ext_getElem
  · simp
  · intro k _ _
    by_cases h : k < m <;> simp [List.getElem_append, BitVec.getMsbD_append, h]

@[simp] theorem bitsMsb_ofBool (b : Bool) : bitsMsb (BitVec.ofBool b) = [b] := by
  cases b <;> rfl

theorem toNat_append_eq_add {m n : Nat} (x : BitVec m) (y : BitVec n) :
    (x ++ y).toNat = x.toNat * 2 ^ n + y.toNat := by
  rw [BitVec.toNat_append, ← Nat.shiftLeft_add_eq_or_of_lt y.isLt, Nat.shiftLeft_eq]

/-- The shifts of R52 put every field at its place in the frame: the command word is CMD, WIDTH, PAD and ADDR side by side
(R52, R64). -/
theorem commandWord_eq_append (cfg : Config) (dir : Dir) (w : BitVec 2) (a : BitVec 6) :
    commandWord cfg dir w a = BitVec.ofBool (cmdBit cfg dir) ++ w ++ 0#23 ++ a := by
  rw [← BitVec.setWidth_eq (BitVec.ofBool (cmdBit cfg dir) ++ w ++ 0#23 ++ a),
    BitVec.setWidth_append_append_append_eq_shiftLeft_setWidth_or]
  simp [commandWord]

@[simp] theorem bitsMsb_commandWord (cfg : Config) (dir : Dir) (w : BitVec 2) (a : BitVec 6) :
    bitsMsb (commandWord cfg dir w a) = encodeCmd cfg dir w a := by
  rw [commandWord_eq_append]
  simp only [bitsMsb_append, bitsMsb_ofBool, encodeCmd]

theorem commandWord_toNat (cfg : Config) (dir : Dir) (w : BitVec 2) (a : BitVec 6) :
    (commandWord cfg dir w a).toNat = (cmdBit cfg dir).toNat * 2 ^ 31 + w.toNat * 2 ^ 29 + a.toNat := by
  rw [commandWord_eq_append]
  simp only [toNat_append_eq_add, BitVec.toNat_ofBool, BitVec.toNat_ofNat]
  omega

/-- The words of an operation in order of transmission are its frame (R52, R57). -/
theorem flatMap_encodeWords (cfg : Config) (i : Instr) : (encodeWords cfg i).flatMap bitsMsb = encode cfg i := by
  cases i <;> simp [encodeWords, encode, encodeWrite, encodeRead]

/-- Settles O8: the word is the concatenation of its fields, whose bits are the frame and whose value is the sum. -/
theorem commandWordIsTheFrame : Obligations.CommandWordIsTheFrame :=
  ⟨fun cfg dir w a => ⟨bitsMsb_commandWord cfg dir w a, commandWord_toNat cfg dir w a⟩, flatMap_encodeWords⟩

/-! ### Host calls and request signals -/

theorem toCall_instrOfCall_write (a d w : Nat) :
    (instrOfCall (.write a d w)).toCall = .write (a % 64) (d % 2 ^ 32) (w % 4) := rfl

theorem toCall_instrOfCall_read (a w : Nat) : (instrOfCall (.read a w)).toCall = .read (a % 64) (w % 4) := rfl

theorem toCall_instrOfCall {c : Call} (h : c.wellFormed = true) : (instrOfCall c).toCall = c := by
  cases c with
  | write a d w =>
    simp only [Call.wellFormed, addressFits, dataFits, widthFits, Bool.and_eq_true, decide_eq_true_eq] at h
    obtain ⟨⟨ha, hd⟩, hw⟩ := h
    rw [toCall_instrOfCall_write, Nat.mod_eq_of_lt ha, Nat.mod_eq_of_lt hd, Nat.mod_eq_of_lt hw]
  | read a w =>
    simp only [Call.wellFormed, addressFits, widthFits, Bool.and_eq_true, decide_eq_true_eq] at h
    obtain ⟨ha, hw⟩ := h
    rw [toCall_instrOfCall_read, Nat.mod_eq_of_lt ha, Nat.mod_eq_of_lt hw]

@[simp] theorem instrOfCall_toCall (i : Instr) : instrOfCall i.toCall = i := by
  cases i <;> simp [Instr.toCall, instrOfCall]

@[simp] theorem instrOfRequest_requestOfInstr (i : Instr) : instrOfRequest (requestOfInstr i) = i := by
  cases i <;> rfl

/-- Settles O11: the two reductions, and the round trips of an operation through its call and its request signals. -/
theorem callTakesLowBits : Obligations.CallTakesLowBits :=
  ⟨toCall_instrOfCall_write, toCall_instrOfCall_read, fun _ => toCall_instrOfCall, fun i =>
    ⟨Laws.FrameShape.wellFormed_all i, instrOfCall_toCall i, instrOfRequest_requestOfInstr i⟩⟩

end Sys2Proof.Machine
end

section
/-! The frame codec (R64 to R69): the fields of a frame, what `DecodeFrame` and `decode` answer in one equivalence each, and the
value of a response. -/

namespace Sys2Proof
open Laws.FrameShape

/-! ### Fields of a bit sequence -/

theorem field_length {bs : List Bool} {p n : Nat} (h : p + n ≤ bs.length) : (field bs p n).length = n := by
  simp only [field, List.length_take, List.length_drop]
  omega

theorem getElem?_add_eq_field (bs : List Bool) {p n k : Nat} (hk : k < n) : bs[p + k]? = (field bs p n)[k]? := by
  rw [field, List.getElem?_take_of_lt hk, List.getElem?_drop]

/-- A sequence that is a field after a field is the longer field. -/
theorem field_append_field (bs : List Bool) (p m n : Nat) : field bs p m ++ field bs (p + m) n = field bs p (m + n) := by
  simp only [field, List.take_add, List.drop_drop]

/-- A field is the transmission of a value exactly when the bits at its places are those of the value (R13). -/
theorem field_eq_bitsMsb_iff {bs : List Bool} {p n : Nat} {v : BitVec n} :
    field bs p n = bitsMsb v ↔ ∀ k, k < n → bs[p + k]? = some (v.getMsbD k) := by
  constructor
  · intro h k hk
    rw [getElem?_add_eq_field bs hk, h, bitsMsb_getElem?, if_pos hk]
  · intro h
    apply List.ext_getElem?
    intro k
    rw [bitsMsb_getElem?]
    split
    · next hk => rw [← getElem?_add_eq_field bs hk, h k hk]
    · next hk => exact List.getElem?_eq_none ((List.length_take_le ..).trans (by omega))

/-- A field has the value that is read from it (R13, R67). -/
theorem field_eq_of_eq_ofBitsMsb {bs : List Bool} {p n : Nat} {v : BitVec n} (h : p + n ≤ bs.length)
    (hv : v = ofBitsMsb n (field bs p n)) : field bs p n = bitsMsb v := by
  rw [hv, bitsMsb_ofBitsMsb (field_length h)]

/-- `conforming` says that the PAD field is the field of the value 0 (R60, R67). -/
theorem padIsZero_iff_field {bs : List Bool} (h : 26 ≤ bs.length) : padIsZero bs = true ↔ field bs 3 23 = bitsMsb 0#23 := by
  have hlen : (field bs 3 23).length = 23 := field_length h
  rw [show bitsMsb 0#23 = List.replicate 23 false from rfl, List.eq_replicate_iff, padIsZero]
  simp [hlen]

theorem padIsZero_iff_getElem? {bs : List Bool} (h : 26 ≤ bs.length) :
    padIsZero bs = true ↔ ∀ k, 3 ≤ k → k ≤ 25 → bs[k]? = some false := by
  simp only [padIsZero_iff_field h, field_eq_bitsMsb_iff, BitVec.getMsbD_zero]
  constructor
  · intro hall k h3 h25
    obtain ⟨j, rfl⟩ := Nat.exists_eq_add_of_le h3
    exact hall j (by omega)
  · exact fun hall j hj => hall (3 + j) (by omega) (by omega)

/-! ### The fields of a frame (R64, R65) -/

section
variable (cfg : Config) (dir : Dir) (w : BitVec 2) (a : BitVec 6) (rest : List Bool)

@[simp] theorem headD_encodeCmd_append : (encodeCmd cfg dir w a ++ rest).headD false = cmdBit cfg dir := rfl

@[simp] theorem field_width_encodeCmd : field (encodeCmd cfg dir w a ++ rest) 1 2 = bitsMsb w := rfl

@[simp] theorem field_addr_encodeCmd : field (encodeCmd cfg dir w a ++ rest) 26 6 = bitsMsb a := rfl

@[simp] theorem field_data_encodeWrite (d : Word) : field (encodeWrite cfg w a d ++ rest) 32 32 = bitsMsb d := by
  rw [field, encodeWrite, List.append_assoc, List.drop_left' (encodeCmd_length cfg .write w a),
    List.take_left' (bitsMsb_length d)]

end

/-- The 32 bits of a command word are its four fields side by side (R64). -/
theorem take_eq_fields {bs : List Bool} (h : 32 ≤ bs.length) :
    bs.take 32 = [bs.headD false] ++ field bs 1 2 ++ field bs 3 23 ++ field bs 26 6 := by
  have h1 : [bs.headD false] = field bs 0 1 := by
    cases bs with
    | nil => simp at h
    | cons b bs => rfl
  rw [h1, field_append_field bs 0 1, field_append_field bs 0 3, field_append_field bs 0 26]
  rfl

/-- When the two CMD values differ, a bit is the CMD bit of a direction if it tells a WRITE from a READ (R53). -/
theorem eq_cmdBit_iff {cfg : Config} (h : cfg.cmdWrite ≠ cfg.cmdRead) {dir : Dir} {b : Bool} :
    b = cmdBit cfg dir ↔ (dir = .write ↔ b = cfg.cmdWrite) := by
  cases dir with
  | write => simp [cmdBit]
  | read => simp [cmdBit, Bool.eq_not_of_ne h]

/-! ### What `DecodeFrame` answers (R67) -/

theorem headD_eq_iff {bs : List Bool} {b : Bool} (h : 0 < bs.length) : bs.headD false = b ↔ bs[0]? = some b := by
  cases bs with
  | nil => simp at h
  | cons c bs => simp

/-- `DecodeFrame` answers a descriptor exactly when the frame of its direction is there, and the descriptor has the fields of the
sequence (R67). -/
theorem decodeFrame_eq_frame_iff {cfg : Config} {bs : List Bool} {i : Instr} {c : Bool} :
    decodeFrame cfg bs = .frame i c ↔
      frameLength i.dir ≤ bs.length ∧ (i.dir = .write ↔ bs.headD false = cfg.cmdWrite) ∧
      i.width = ofBitsMsb 2 (field bs 1 2) ∧ i.address = ofBitsMsb 6 (field bs 26 6) ∧
      (∀ a d w, i = .write a d w → d = ofBitsMsb 32 (field bs 32 32)) ∧ c = padIsZero bs := by
  unfold decodeFrame
  cases i with
  | write a d w => grind [Instr.dir, Instr.width, Instr.address, frameLength]
  | read a w => grind [Instr.dir, Instr.width, Instr.address, frameLength]

theorem decodeFrame_eq_incomplete_iff {cfg : Config} {bs : List Bool} :
    decodeFrame cfg bs = .incomplete ↔ bs.length < 32 ∨ (bs.headD false = cfg.cmdWrite ∧ bs.length < 64) := by
  unfold decodeFrame
  grind

/-- `decode` answers the descriptor of a conforming frame and the bits that follow it. -/
theorem decode_eq_ok_iff {cfg : Config} {bs rest : List Bool} {i : Instr} :
    decode cfg bs = .ok (i, rest) ↔ decodeFrame cfg bs = .frame i true ∧ rest = bs.drop (frameLength i.dir) := by
  unfold decode
  split <;> grind [frameLength, Instr.dir]

/-! ### Decoding is the inverse of encoding (R68) -/

theorem encode_length (cfg : Config) (i : Instr) : (encode cfg i).length = frameLength i.dir := by
  cases i with
  | write a d w => exact encodeWrite_length cfg w a d
  | read a w => exact encodeRead_length cfg w a

/-- The frame of an operation begins with its command word (R65, R66). -/
theorem encode_eq_encodeCmd_append (cfg : Config) (i : Instr) :
    ∃ l, encode cfg i = encodeCmd cfg i.dir i.width i.address ++ l := by
  cases i with
  | write a d w => exact ⟨bitsMsb d, rfl⟩
  | read a w => exact ⟨[], (List.append_nil _).symm⟩

theorem decodeFrame_encode_append {cfg : Config} (h : cfg.cmdWrite ≠ cfg.cmdRead) (i : Instr) (rest : List Bool) :
    decodeFrame cfg (encode cfg i ++ rest) = .frame i true := by
  have hdata : ∀ a d w, i = .write a d w → d = ofBitsMsb 32 (field (encode cfg i ++ rest) 32 32) := by
    rintro a d w rfl
    simp [encode]
  have hlen : frameLength i.dir ≤ (encode cfg i ++ rest).length := by simp [encode_length]
  obtain ⟨l, hl⟩ := encode_eq_encodeCmd_append cfg i
  rw [decodeFrame_eq_frame_iff]
  refine ⟨hlen, ?_, ?_, ?_, hdata, ?_⟩ <;> rw [hl, List.append_assoc]
  · exact (eq_cmdBit_iff h).mp (headD_encodeCmd_append ..)
  · simp
  · simp
  · exact (padIsZero_encodeCmd cfg i.dir i.width i.address _).symm

/-- A conforming frame is the frame of its descriptor. -/
theorem take_eq_encode_of_decodeFrame {cfg : Config} (h : cfg.cmdWrite ≠ cfg.cmdRead) {bs : List Bool} {i : Instr}
    (hd : decodeFrame cfg bs = .frame i true) : bs.take (frameLength i.dir) = encode cfg i := by
  obtain ⟨hlen, hdir, hw, ha, hdata, hpad⟩ := decodeFrame_eq_frame_iff.mp hd
  have h32 : 32 ≤ bs.length := le_trans (by cases i.dir <;> decide) hlen
  have hcmd : bs.take 32 = encodeCmd cfg i.dir i.width i.address := by
    rw [take_eq_fields h32, (eq_cmdBit_iff h).mpr hdir, (padIsZero_iff_field (by omega)).mp hpad.symm, encodeCmd,
      field_eq_of_eq_ofBitsMsb (by omega) hw, field_eq_of_eq_ofBitsMsb (by omega) ha]
  cases i with
  | write a d w =>
    have hd32 : field bs 32 32 = bitsMsb d := field_eq_of_eq_ofBitsMsb hlen (hdata a d w rfl)
    rw [encode, encodeWrite, ← hd32]
    exact List.take_add.trans (congrArg (· ++ field bs 32 32) hcmd)
  | read a w => exact hcmd

/-! ### The value of a response (R69) -/

theorem pushBit_toNat {n : Nat} (acc : BitVec n) (b : Bool) (h : 2 * acc.toNat + 1 < 2 ^ n) :
    (pushBit acc b).toNat = 2 * acc.toNat + b.toNat := by
  have hb := Bool.toNat_le b
  have hshift : acc.toNat <<< 1 = 2 * acc.toNat := by rw [Nat.shiftLeft_eq]; omega
  rw [pushBit, BitVec.toNat_or, BitVec.toNat_shiftLeft, BitVec.toNat_setWidth, BitVec.toNat_ofBool, hshift,
    Nat.mod_eq_of_lt (by omega), Nat.mod_eq_of_lt (by omega), ← hshift,
    Nat.shiftLeft_add_eq_or_of_lt (by omega)]

/-- The sum of the bits of a sequence at their places, the first bit most significant (R13). -/
def bitSum (q : List Bool) : Nat := ((List.range q.length).map fun j => (q.getD j false).toNat * 2 ^ (q.length - 1 - j)).sum

@[simp] theorem bitSum_nil : bitSum [] = 0 := rfl

@[simp] theorem bitSum_cons (b : Bool) (q : List Bool) : bitSum (b :: q) = b.toNat * 2 ^ q.length + bitSum q := by
  simp [bitSum, List.range_succ_eq_map, Function.comp_def, Nat.sub_sub, Nat.add_comm]

/-- The fold of R69 in numbers, as long as nothing is shifted out: what was there is moved up, and the bits are added at
their places. -/
theorem foldBits_toNat {n : Nat} (q : List Bool) (acc : BitVec n) (k : Nat) (hacc : acc.toNat < 2 ^ k) (hk : k + q.length ≤ n) :
    (q.foldl pushBit acc).toNat = acc.toNat * 2 ^ q.length + bitSum q := by
  induction q generalizing acc k with
  | nil => simp
  | cons b q ih =>
    have hk' : k + 1 + q.length ≤ n := by simpa [Nat.add_comm, Nat.add_left_comm] using hk
    have hlt : 2 * acc.toNat + 1 < 2 ^ (k + 1) := by rw [Nat.pow_succ]; omega
    have hpush := pushBit_toNat acc b (hlt.trans_le (Nat.pow_le_pow_right Nat.two_pos (by omega)))
    have hb := Bool.toNat_le b
    rw [List.foldl_cons, ih (pushBit acc b) (k + 1) (by omega) hk', hpush, bitSum_cons, List.length_cons]
    ring

theorem ofBitsMsb_toNat {n : Nat} {q : List Bool} (h : q.length ≤ n) : (ofBitsMsb n q).toNat = bitSum q := by
  rw [ofBitsMsb, foldBits_toNat q 0#n 0 (by simp) (by omega)]
  simp

/-! ### The statements -/

/-- Settles O4: `DecodeFrame` reads back the fields of the frame, and what follows has the frame's length before it. -/
theorem decodeOfEncode : Obligations.DecodeOfEncode := by
  intro cfg h i rest _
  have hframe := decodeFrame_encode_append h i rest
  exact ⟨decode_eq_ok_iff.mpr ⟨hframe, (List.drop_left' (encode_length cfg i)).symm⟩, hframe⟩

/-- Settles O5: the fields of a conforming frame, side by side, are the frame. -/
theorem encodeOfDecode : Obligations.EncodeOfDecode := by
  intro cfg h bits rest i hok
  obtain ⟨hframe, rfl⟩ := decode_eq_ok_iff.mp hok
  rw [← take_eq_encode_of_decodeFrame h hframe, List.take_append_drop]

/-- Settles O6: 64 bits hold either frame, so `DecodeFrame` answers a descriptor, whose fields are those of the sequence. -/
theorem decodeFrameReadsFields : Obligations.DecodeFrameReadsFields := by
  intro cfg bits hlen
  cases hres : decodeFrame cfg bits with
  | incomplete =>
    rw [decodeFrame_eq_incomplete_iff] at hres
    omega
  | frame i c =>
    obtain ⟨-, hdir, hw, ha, hdata, rfl⟩ := decodeFrame_eq_frame_iff.mp hres
    refine ⟨i, _, rfl, ?_, ?_, ?_, ?_, padIsZero_iff_getElem? (by omega)⟩
    · rw [hdir, headD_eq_iff (by omega)]
    · exact field_eq_bitsMsb_iff.mp (field_eq_of_eq_ofBitsMsb (by omega) hw)
    · exact field_eq_bitsMsb_iff.mp (field_eq_of_eq_ofBitsMsb (by omega) ha)
    · exact fun a d w hi => field_eq_bitsMsb_iff.mp (field_eq_of_eq_ofBitsMsb (by omega) (hdata a d w hi))

/-- Settles O9: the sum is the fold of R69 in numbers, and the fold undoes the transmission. -/
theorem responseIsMsbFirst : Obligations.ResponseIsMsbFirst := by
  refine ⟨fun q hq => ?_, fun v => ofBitsMsb_bitsMsb v⟩
  rw [decodeResponse, ofBitsMsb_toNat hq.le, bitSum, hq]

/-- Settles O1: each place of the command word is a place in one of its fields. -/
theorem encodeCmdBitByBit : Obligations.EncodeCmdBitByBit := by
  refine ⟨fun cfg dir w a => ⟨encodeCmd_length cfg dir w a, ?_, rfl, rfl, ?_, fun i hi => ?_⟩, fun cfg h => ?_⟩
  · cases dir <;> rfl
  · have hpad := padIsZero_encodeCmd cfg dir w a []
    rw [List.append_nil] at hpad
    exact (padIsZero_iff_getElem? (by simp)).mp hpad
  · have haddr := field_addr_encodeCmd cfg dir w a []
    have hi' : i < 6 := by omega
    rw [List.append_nil] at haddr
    rw [field_eq_bitsMsb_iff.mp haddr i hi']
    simp [BitVec.getMsbD, hi']
  · simp only [encodeCmd, cmdBit, h]
    decide

/-- Settles O2: the command word, then the datum as transmitted. -/
theorem encodeWriteBitByBit : Obligations.EncodeWriteBitByBit := by
  refine ⟨fun cfg w a d => ⟨encodeWrite_length cfg w a d, ?_, fun i hi => ?_⟩, fun cfg h => ?_⟩
  · exact List.take_left' (encodeCmd_length cfg .write w a)
  · have hdata := field_data_encodeWrite cfg w a [] d
    have hi' : i < 32 := by omega
    rw [List.append_nil] at hdata
    rw [field_eq_bitsMsb_iff.mp hdata i hi']
    simp [BitVec.getMsbD, hi']
  · simp only [encodeWrite, encodeCmd, cmdBit, h]
    decide

/-- Settles O3: the two frames of the same operands have the same bits after CMD, up to where DATA begins. -/
theorem encodeReadOmitsData : Obligations.EncodeReadOmitsData := by
  refine ⟨fun cfg w a d => ⟨rfl, ?_, encodeRead_length cfg w a⟩, fun cfg h => ?_⟩
  · rw [encodeWrite, List.take_left' (encodeCmd_length cfg .write w a)]
    rfl
  · simp only [encodeRead, encodeCmd, cmdBit, h]
    decide

/-- Settles O7: the two length tests of `DecodeFrame`. -/
theorem decodeFrameIncompleteIff : Obligations.DecodeFrameIncompleteIff := by
  intro cfg bits
  rw [decodeFrame_eq_incomplete_iff]
  by_cases h : bits.length < 32
  · simp [h]
  · rw [headD_eq_iff (by omega)]

end Sys2Proof

end

section
/-! Whole transactions on the wire (R81, R91), and the descriptor recovered from the output port alone (R70). -/

namespace Sys2Proof.Machine
open Sys2Proof

/-! ### Stretches of a transaction -/

/-- From the state `m` the engine comes in `T` ticks, with `ws` on the wire meanwhile, to the state `m'` with the micro-operations
`r` to go. -/
structure Leads (T : Nat) (ws : List Triple) (m m' : State) (r : MicroSeq) : Prop where
  fin_add : ∀ n, fin (T + n) m = fin n m'
  due : Due m' r
  wire : obs T m = ws.map inFlight

theorem Leads.trans {T T' : Nat} {ws ws' : List Triple} {m m' m'' : State} {r r' : MicroSeq} (h : Leads T ws m m' r)
    (h' : Leads T' ws' m' m'' r') : Leads (T + T') (ws ++ ws') m m'' r' where
  fin_add n := by rw [Nat.add_assoc, h.fin_add, h'.fin_add]
  due := h'.due
  wire := by rw [obs_add h.fin_add, h.wire, h'.wire, List.map_append]

@[simp] theorem stage_cfg (m : State) (n : Nat) (p : Phase) (i : Nat) (t : Triple) (o : List Bool) :
    (m.stage n p i t o).cfg = m.cfg := rfl
@[simp] theorem stage_port (m : State) (n : Nat) (p : Phase) (i : Nat) (t : Triple) (o : List Bool) :
    (m.stage n p i t o).port = ⟨t.1, t.2.1, t.2.2, o⟩ := rfl

theorem Due.leads_teardown {m : State} (h : Due m (Machine.teardown m.cfg)) (hcs : m.port.cs = m.cfg.csActive) :
    ∃ pos o, Leads (m.cfg.tCsSettle + m.cfg.extraEdges * m.cfg.tHalf) (closeWave m.cfg m.port.sck m.port.mosi) m
      (m.stage (m.cfg.tCsSettle + m.cfg.extraEdges * m.cfg.tHalf) .teardown pos
        (m.cfg.csIdle, restLevel m.cfg m.port.sck, m.port.mosi) o) [(.teardown, .complete)] := by
  rw [← List.append_nil (Machine.teardown m.cfg)] at h
  obtain ⟨o, hfin, hdue, hwire⟩ := h.teardown hcs
  exact ⟨_, o, hfin, hdue, hwire⟩

/-! ### A WRITE -/

/-- The last bit of a write frame is bit 0 of the datum (R65). -/
theorem encodeWrite_getLastD (cfg : Config) (a : BitVec 6) (d : Word) (w : BitVec 2) (b : Bool) :
    (encodeWrite cfg w a d).getLastD b = d.getLsbD 0 := by
  rw [encodeWrite, bitsMsb]
  simp [List.range_succ, BitVec.getMsbD]

/-- A WRITE from its acceptance to the tick at which only `Complete` is left (R80, R81). -/
theorem opened_write_leads {s : State} {a : BitVec 6} {d : Word} {w : BitVec 2} (hr : s.tickInput.reset = false)
    (hrd : s.ready = true) :
    ∃ pos o, Leads s.cfg.writeTicks (writeWave s.cfg s.port.sck s.port.mosi (encodeWrite s.cfg w a d) (d.getLsbD 0))
      (s.opened (.write a d w))
      ((s.opened (.write a d w)).stage s.cfg.writeTicks .teardown pos
        (s.cfg.csIdle, restLevel s.cfg s.port.sck, d.getLsbD 0) o) [(.teardown, .complete)] := by
  have hd := opened_due (i := .write a d w) hr hrd
  obtain ⟨hcfg, -, -, hport, -⟩ := opened_facts (i := .write a d w) hr hrd
  simp only [OutPort.triple, Prod.mk.injEq] at hport
  obtain ⟨-, hsck, hmosi⟩ := hport
  generalize s.opened (.write a d w) = m at *
  rw [show microSeq s.cfg (.write a d w) = writeSeq s.cfg a d w from rfl, writeSeq_eq, ← hcfg] at hd
  obtain ⟨o1, f1, d1, w1⟩ := Due.openFrame (m := m) rfl hd
  obtain ⟨o2, f2, d2, w2⟩ := Due.phasedBits (writePhased_busy _ _ _ _) d1 rfl
  obtain ⟨pos, o3, h3⟩ := d2.leads_teardown rfl
  have h := (Leads.mk f1 d1 w1).trans ((Leads.mk f2 d2 w2).trans h3)
  have hlen : m.cfg.writeTicks =
      m.cfg.tCsSettle + (2 * m.cfg.tHalf * 64 + (m.cfg.tCsSettle + m.cfg.extraEdges * m.cfg.tHalf)) := by
    simp only [Config.writeTicks]; ring
  simp only [stage_cfg, stage_port, writePhased_length, writePhased_snd, encodeWrite_getLastD, stage_stage,
    Nat.add_assoc] at h
  rw [← hcfg, ← hsck, ← hmosi, hlen, writeWave, List.append_assoc]
  exact ⟨pos, o3, h⟩

/-! ### A READ -/

/-- The offsets of the response samples are those in the bit periods that follow the first response edge (R87, R88). -/
theorem sampleOffset_eq (c : Config) (k j : Nat) : c.sampleOffset k j = c.firstEdge k + (2 * c.tHalf * j + recvOffset c) := by
  unfold Config.sampleOffset recvOffset
  cases c.rxSample with
  | afterPair => simp only; ring
  | betweenEdges => simp only; ring

/-- A READ from its acceptance to its first response edge, when poll `q + 1` succeeds (R80, R84, R86). -/
theorem opened_read_leads_response {s : State} {a : BitVec 6} {w : BitVec 2} {q : Nat} (hr : s.tickInput.reset = false)
    (hrd : s.ready = true) (hpoll : s.PollSucceedsAt (q + 1))
    (hx : s.cfg.xmode = .strict → ∀ i, i < q → s.pollAhead i ≠ .x) :
    ∃ o o', Leads (s.cfg.firstEdge (q + 1))
      (commandWave s.cfg s.port.sck s.port.mosi (encodeRead s.cfg w a) ++
        List.replicate (q + s.cfg.tReadySettle) (s.cfg.csActive, s.port.sck, a.getLsbD 0))
      (s.opened (.read a w))
      ((s.atFirstPoll a w o).atResponse q ((List.range q).map fun i => xCount (s.pollAhead i)).sum o')
      (tagged .response (recvWord s.cfg) ++ teardown s.cfg) := by
  obtain ⟨-, hmax, hone, hnot⟩ := hpoll
  obtain ⟨o, f1, d1, w1⟩ := opened_to_polls (a := a) (w := w) hr hrd
  have hcfg : (s.atFirstPoll a w o).cfg = s.cfg := (opened_facts (i := .read a w) hr hrd).1
  have hin : ∀ i, (s.atFirstPoll a w o).inputAhead i .ready = s.pollAhead i := fun i =>
    atFirstPoll_inputAhead o hr hrd i .ready
  have hbound : 0 + q < s.cfg.pollMax := by omega
  rw [← hcfg] at d1
  obtain ⟨o', f2, d2, w2⟩ := Due.pollsToResponse q rfl d1
    (by simpa only [hin, Nat.add_sub_cancel] using hnot) (by simpa only [hin, hcfg] using hx)
    ((hin q).trans hone) (hcfg ▸ hbound)
  have h := (Leads.mk f1 d1 w1).trans (Leads.mk f2 d2 w2)
  simp only [hin, hcfg] at h
  rw [Config.firstEdge, Nat.add_assoc]
  exact ⟨o, o', h⟩

/-- The inputs of a READ at its first response edge are those that lay the polls and the settle delay ahead at its first poll. -/
theorem atResponse_inputAhead (m : State) (q x : Nat) (o : List Bool) (n : Nat) (l : InLine) :
    (m.atResponse q x o).inputAhead n l = m.inputAhead (q + m.cfg.tReadySettle + n) l :=
  inputAhead_shift m _ n l _ rfl rfl rfl

/-- The word of the response and the end of the transaction (R78, R79, R88), of which `v j` is the `j`-th sample. -/
theorem Due.leads_response {m : State} (v : Nat → Tri)
    (hd : Due m (tagged .response (recvWord m.cfg) ++ Machine.teardown m.cfg))
    (hv : ∀ j, j < 32 → m.inputAhead (2 * m.cfg.tHalf * j + recvOffset m.cfg) .miso = v j)
    (hx : m.cfg.xmode = .strict → ∀ j, j < 32 → v j ≠ .x) (hcs : m.port.cs = m.cfg.csActive) :
    ∃ pos o o' b, Leads (2 * m.cfg.tHalf * 32 + (m.cfg.tCsSettle + m.cfg.extraEdges * m.cfg.tHalf))
      ((List.replicate 32 m.port.mosi).flatMap (bitWave m.cfg m.port.sck) ++ closeWave m.cfg m.port.sck m.port.mosi) m
      ((m.received (2 * m.cfg.tHalf * 32) (m.pos + 6 * 32) o
          (((List.range 32).map fun j => norm (v j)).foldl pushBit m.rxacc) b
          ((List.range 32).map fun j => xCount (v j)).sum).stage
        (m.cfg.tCsSettle + m.cfg.extraEdges * m.cfg.tHalf) .teardown pos
        (m.cfg.csIdle, restLevel m.cfg m.port.sck, m.port.mosi) o') [(.teardown, .complete)] := by
  obtain ⟨o1, b, f1, d1, w1⟩ := Due.recvBits 32 v (.inr (by decide)) hd hv hx hcs
  obtain ⟨pos, o2, h2⟩ := d1.leads_teardown hcs
  exact ⟨pos, o1, o2, b, (Leads.mk f1 d1 w1).trans h2⟩

/-- The wire of a READ whose poll `q + 1` succeeds (R91). -/
theorem obs_opened_read {s : State} {a : BitVec 6} {w : BitVec 2} {q : Nat} (hr : s.tickInput.reset = false)
    (hrd : s.ready = true) (hpoll : s.PollSucceedsAt (q + 1)) (hclean : s.SamplesClean (q + 1)) :
    obs (s.cfg.readTicks (q + 1)) (s.opened (.read a w)) =
      (readWave s.cfg (q + 1) s.port.sck s.port.mosi (encodeRead s.cfg w a) (a.getLsbD 0)).map inFlight := by
  obtain ⟨hpolls, hdata⟩ := forall_and.mp hclean
  obtain ⟨o, o', h1⟩ := opened_read_leads_response (a := a) (w := w) hr hrd hpoll fun hs i hi => hpolls hs i (by omega)
  have hcfg : (s.atFirstPoll a w o).cfg = s.cfg := (opened_facts (i := .read a w) hr hrd).1
  generalize hm : (s.atFirstPoll a w o).atResponse q _ o' = m at h1
  have hc : m.cfg = s.cfg := by rw [← hm]; exact hcfg
  have hport : m.port.triple = (s.cfg.csActive, s.port.sck, a.getLsbD 0) := by rw [← hm]; rfl
  have hv : ∀ n, m.inputAhead n .miso = s.inputAhead (s.cfg.firstEdge (q + 1) + n) .miso := fun n => by
    rw [← hm, atResponse_inputAhead, atFirstPoll_inputAhead o hr hrd, hcfg, Config.firstEdge]
    simp only [Nat.add_assoc, Nat.add_sub_cancel]
  simp only [OutPort.triple, Prod.mk.injEq] at hport
  obtain ⟨hcs, hsck, hmosi⟩ := hport
  have hd := h1.due
  rw [← hc] at hd hcs hdata
  obtain ⟨pos, o2, o3, b, h2⟩ := hd.leads_response (s.dataAhead (q + 1))
    (fun j _ => by rw [hv, hc, State.dataAhead, sampleOffset_eq]) hdata hcs
  have hlen : s.cfg.readTicks (q + 1) = s.cfg.firstEdge (q + 1) +
      (2 * s.cfg.tHalf * 32 + (s.cfg.tCsSettle + s.cfg.extraEdges * s.cfg.tHalf)) := by
    simp only [Config.readTicks, Config.writeTicks, Config.firstEdge, Config.firstPoll]; ring
  have h := (h1.trans h2).wire
  rw [hc, hsck, hmosi] at h
  rw [hlen, h, readWave, commandWave]
  simp only [List.append_assoc, Nat.add_sub_cancel]

/-! ### What is seen of it (R70) -/

/-- The wire at the ticks of a transaction that begins. -/
theorem trace_of_obs_opened {s : State} {i : Instr} {T : Nat} {ws : List Triple} (hT : 0 < T) (hB : s.Begins i T)
    (h : obs T (s.opened i) = ws.map inFlight) : (trace T s).map OutPort.triple = ws := by
  obtain ⟨n, rfl⟩ := Nat.exists_eq_succ_of_ne_zero hT.ne'
  exact flight_trace hB h

theorem begins_reset_of_pos {s : State} {i : Instr} {T : Nat} (hT : 0 < T) (hB : s.Begins i T) : s.tickInput.reset = false := by
  obtain ⟨n, rfl⟩ := Nat.exists_eq_succ_of_ne_zero hT.ne'
  exact begins_reset hB

theorem writeTicks_pos {c : Config} (h : c.Admissible) : 0 < c.writeTicks := by
  have := Nat.mul_le_mul (show 1 ≤ 128 + c.extraEdges by omega) h.1
  unfold Config.writeTicks
  omega

theorem readTicks_pos {c : Config} (h : c.Admissible) (k : Nat) : 0 < c.readTicks k := by
  have := writeTicks_pos h
  unfold Config.readTicks
  omega

/-- The waveform of a WRITE (R81). -/
theorem trace_write {s : State} {a : BitVec 6} {d : Word} {w : BitVec 2} (hB : s.Begins (.write a d w) s.cfg.writeTicks) :
    (trace s.cfg.writeTicks s).map OutPort.triple =
      writeWave s.cfg s.port.sck s.port.mosi (encodeWrite s.cfg w a d) (d.getLsbD 0) := by
  have hT := writeTicks_pos hB.1.admissible
  obtain ⟨_, _, h⟩ := opened_write_leads (a := a) (d := d) (w := w) (begins_reset_of_pos hT hB) hB.2.1
  exact trace_of_obs_opened hT hB h.wire

/-- The waveform of a READ whose poll `k` succeeds (R91). -/
theorem trace_read {s : State} {a : BitVec 6} {w : BitVec 2} {k : Nat} (hB : s.Begins (.read a w) (s.cfg.readTicks k))
    (hpoll : s.PollSucceedsAt k) (hclean : s.SamplesClean k) :
    (trace (s.cfg.readTicks k) s).map OutPort.triple =
      readWave s.cfg k s.port.sck s.port.mosi (encodeRead s.cfg w a) (a.getLsbD 0) := by
  have hT := readTicks_pos hB.1.admissible k
  obtain ⟨q, rfl⟩ := Nat.exists_eq_add_of_le' hpoll.1
  exact trace_of_obs_opened hT hB (obs_opened_read (begins_reset_of_pos hT hB) hB.2.1 hpoll hclean)

/-- A transaction whose wire begins with the opening of a frame and the bit periods of `f` shows `f`, then whatever follows (R70). -/
theorem wireObserve_of_frame {c : Config} (hH : 1 ≤ c.tHalf) {ports : List OutPort} {l0 m0 : Bool} {f : List Bool}
    {ws : List Triple} (h : ports.map OutPort.triple = commandWave c l0 m0 f ++ ws) :
    ∃ rest, wireObserve c l0 ports = f ++ rest := by
  rw [wireObserve, edgeBits_eq, h, commandWave, List.append_assoc, edgeTriples_still, edgeTriples_bits c hH,
    everyOther_doubled]
  exact ⟨_, rfl⟩

/-- A transaction whose wire begins with the frame of an operation shows the descriptor of that operation (R70). -/
theorem decodeFrame_wireObserve {c : Config} (hA : c.Admissible) {ports : List OutPort} {l0 m0 : Bool} {i : Instr}
    {ws : List Triple} (h : ports.map OutPort.triple = commandWave c l0 m0 (encode c i) ++ ws) :
    decodeFrame c (wireObserve c l0 ports) = .frame i true := by
  obtain ⟨hH, -, -, -, -, -, -, -, -, -, -, -, -, hcmd⟩ := hA
  obtain ⟨rest, hrest⟩ := wireObserve_of_frame hH h
  rw [hrest, decodeFrame_encode_append hcmd]

/-! ### The statements -/

/-- Settles O37: the waveform of a WRITE begins with its frame. -/
theorem writeFrameObservable : Obligations.WriteFrameObservable := by
  intro s a d w hB
  exact decodeFrame_wireObserve hB.1.admissible (i := .write a d w) (trace_write hB)

/-- Settles O40: the waveform of a READ begins with its frame; the polls, the response and the end follow it. -/
theorem readFrameObservable : Obligations.ReadFrameObservable := by
  intro s a w k hB hpoll hclean
  have h := trace_read hB hpoll hclean
  rw [readWave, List.append_assoc, List.append_assoc] at h
  exact decodeFrame_wireObserve hB.1.admissible (i := .read a w) h

end Sys2Proof.Machine

end

section
/-! The transmitter's lines: what writing one of them does to the output vector (R72), the levels of chip-select over a transaction
(R76, R77, R79, R113), and the port at every tick of a WRITE (R81). -/

namespace Sys2Proof.Machine
open Sys2Proof

/-! ### The output vector -/

/-- The engine's three positions in the output vector differ (R10). -/
theorem outIndex_injective {cfg : Config} (hA : cfg.Admissible) : Function.Injective (outIndex cfg) := by
  obtain ⟨-, -, -, -, -, -, -, hcs_sck, hcs_mosi, hsck_mosi, -⟩ := hA
  intro k l h
  match k, l, h with
  | .cs, .cs, _ | .sck, .sck, _ | .mosi, .mosi, _ => rfl
  | .cs, .sck, h => exact absurd h hcs_sck
  | .cs, .mosi, h => exact absurd h hcs_mosi
  | .sck, .mosi, h => exact absurd h hsck_mosi
  | .sck, .cs, h => exact absurd h.symm hcs_sck
  | .mosi, .cs, h => exact absurd h.symm hcs_mosi
  | .mosi, .sck, h => exact absurd h.symm hsck_mosi

theorem outIndex_lt_wOut {cfg : Config} (hA : cfg.Admissible) (l : OutLine) : outIndex cfg l < cfg.wOut := by
  obtain ⟨-, -, -, -, hcs, hsck, hmosi, -⟩ := hA
  cases l <;> assumption

theorem OutPort.get_set (p : OutPort) (k l : OutLine) (v : Bool) : (p.set l v).get k = if k = l then v else p.get k := by
  cases l <;> cases k <;> rfl

theorem OutPort.bit_outIndex {cfg : Config} (hA : cfg.Admissible) (p : OutPort) (l : OutLine) :
    p.bit cfg (outIndex cfg l) = p.get l := by
  obtain ⟨-, -, -, -, -, -, -, hcs_sck, hcs_mosi, hsck_mosi, -⟩ := hA
  cases l <;> simp [OutPort.bit, outIndex, OutPort.get, hcs_sck.symm, hcs_mosi.symm, hsck_mosi.symm]

/-- A position that is not the engine's shows what other drivers put there (R17). -/
theorem OutPort.bit_of_foreign {cfg : Config} (p : OutPort) {i : Nat} (h : ∀ l, i ≠ outIndex cfg l) :
    p.bit cfg i = p.other.getD i false := by
  have hcs : i ≠ cfg.csBit := h .cs
  have hsck : i ≠ cfg.sckBit := h .sck
  have hmosi : i ≠ cfg.mosiBit := h .mosi
  rw [OutPort.bit, if_neg hcs, if_neg hsck, if_neg hmosi]

/-- `Out[b] <- v` position by position (R72): a line's own position, another line's, or a foreign one. -/
theorem OutPort.bit_set {cfg : Config} (hA : cfg.Admissible) (p : OutPort) (l : OutLine) (v : Bool) (i : Nat) :
    (p.set l v).bit cfg i = if i = outIndex cfg l then v else p.bit cfg i := by
  by_cases h : ∃ k, i = outIndex cfg k
  · obtain ⟨k, rfl⟩ := h
    simp only [bit_outIndex hA, get_set, (outIndex_injective hA).eq_iff]
  · have hforeign : ∀ k, i ≠ outIndex cfg k := not_exists.mp h
    rw [bit_of_foreign _ hforeign, bit_of_foreign _ hforeign, set_other, if_neg (hforeign l)]

@[simp] theorem OutPort.vec_length (cfg : Config) (p : OutPort) : (p.vec cfg).length = cfg.wOut := by simp [OutPort.vec]

@[simp] theorem OutPort.vec_getElem (cfg : Config) (p : OutPort) (i : Nat) (h : i < (p.vec cfg).length) :
    (p.vec cfg)[i] = p.bit cfg i := by simp [OutPort.vec]

theorem OutPort.vec_set {cfg : Config} (hA : cfg.Admissible) (p : OutPort) (l : OutLine) (v : Bool) :
    (p.set l v).vec cfg = (p.vec cfg).set (outIndex cfg l) v := by
  refine List.ext_getElem (by simp) fun i _ _ => ?_
  rw [vec_getElem, bit_set hA, List.getElem_set, vec_getElem]
  simp only [eq_comm]

/-! ### Chip-select at every position of a transaction -/

theorem body_length (cfg : Config) (i : Instr) : (body cfg i).length = if i.dir = .write then 160 else 196 := by
  cases i <;> simp [body, txData, rxResponse, tagged, sendField_length, recvWord_length, pollReady, readySettle, Instr.dir]

/-- Chip-select is active once `CsAssert` has executed, up to the teardown (R77, R79). -/
theorem csLevel_after_csAssert {cfg : Config} {i : Instr} {n : Nat} (h1 : 3 ≤ n) (h2 : n ≤ 163 + (body cfg i).length) :
    csLevel ((microSeq cfg i).take n) = some cfg.csActive := by
  by_cases hn : 163 ≤ n
  · exact csLevel_in_body hn h2
  have hbits : ∀ o ∈ phasedBits cfg (cmdPhased cfg i.dir i.width i.address), ∀ v, o.2 ≠ .setOut .cs v := by
    rintro ⟨p, op⟩ h v
    rcases (mem_phasedBits h).2 with ⟨v, rfl⟩ | rfl | rfl <;> simp
  have hopen : (tagged .preamble (openFrame cfg ++ csAssert cfg)).length = 3 := rfl
  rw [microSeq_eq, List.take_append_of_le_length (by rw [txCmd_length]; omega), txCmd_eq, List.take_append,
    List.take_of_length_le (by omega), csLevel_append, csLevel_none fun o ho => hbits o (List.mem_of_mem_take ho)]
  rfl

/-- Behind a micro-operation of a phase other than `Preamble` and `Teardown`, where chip-select changes, it is active (R98). -/
theorem csLevel_of_phase {cfg : Config} {i : Instr} {n : Nat} {p : Phase}
    (h : ((microSeq cfg i)[n]?).map Prod.fst = some p) (hpre : p ≠ .preamble) (htear : p ≠ .teardown) :
    csLevel ((microSeq cfg i).take (n + 1)) = some cfg.csActive := by
  have hn : 3 ≤ n + 1 ∧ n + 1 ≤ 163 + (body cfg i).length := by
    have hat := phase_at h
    simp only [hpre, htear, false_and, false_or, or_false] at hat
    rw [body_length]
    rcases hat with ⟨-, hn⟩ | ⟨-, hn⟩ | ⟨-, hn⟩ | ⟨-, hd, hn⟩ | ⟨-, hd, hn⟩ | ⟨-, hd, hn⟩
    · split <;> omega
    · split <;> omega
    · split <;> omega
    · rw [if_pos hd]; omega
    · rw [hd, if_neg nofun]; omega
    · rw [hd, if_neg nofun]; omega
  exact csLevel_after_csAssert hn.1 hn.2

theorem State.Inv.cs_active_of_phase {s : State} (h : s.Inv) (hb : s.busy = true) (hpre : s.phase ≠ .preamble)
    (htear : s.phase ≠ .teardown) : s.port.cs = s.cfg.csActive := by
  obtain ⟨hpos, -, hphase⟩ := h.cursor hb
  have hlevel := csLevel_of_phase hphase hpre htear
  rw [Nat.sub_add_cancel hpos] at hlevel
  exact Option.some.inj ((h.mid.busyLevel hb hpos).symm.trans hlevel)

/-- `Data` is a phase of WRITE only (R98). -/
theorem dir_of_phase_data {cfg : Config} {i : Instr} {n : Nat} (h : ((microSeq cfg i)[n]?).map Prod.fst = some .data) :
    i.dir = .write := by
  have hat := phase_at h
  simp only [reduceCtorEq, false_and, false_or, or_false, true_and] at hat
  exact hat.1

/-- `AwaitReady` and `Response` are phases of READ only (R98). -/
theorem dir_of_phase_receiver {cfg : Config} {i : Instr} {n : Nat} {p : Phase}
    (h : ((microSeq cfg i)[n]?).map Prod.fst = some p) (hp : p = .awaitReady ∨ p = .response) : i.dir = .read := by
  have hat := phase_at h
  rcases hp with rfl | rfl <;> simp only [reduceCtorEq, false_and, false_or, or_false, true_and] at hat <;> exact hat.1

/-! ### The statements -/

/-- Settles O36: the opening, the bit periods of the frame, the extra toggle and the close lead from acceptance to `Complete`. -/
theorem writeWaveform : Obligations.WriteWaveform := by
  intro s a d w hB
  exact trace_write hB

/-- Settles O12: the output vector differs in the position of the line that is written. -/
theorem setOutChangesOneBit : Obligations.SetOutChangesOneBit := by
  intro cfg p l v hA
  have hl : outIndex cfg l < (p.vec cfg).length := by simpa using outIndex_lt_wOut hA l
  refine ⟨p.vec_set hA l v, p.vec_length cfg, ?_⟩
  rw [List.getElem?_eq_getElem hl, OutPort.vec_getElem, OutPort.bit_outIndex hA]

/-- Settles O30: from `Width` to `Response` the last write of chip-select left behind is that of `CsAssert`. -/
theorem chipSelectFramesTransaction : Obligations.ChipSelectFramesTransaction := by
  intro s h
  refine ⟨h.mid.idleLevel, fun hp => ?_, fun hp => ?_, fun hp => ?_⟩
  · by_cases hf : s.phase = .fault
    · exact h.mid.faultLevel hf
    · refine h.cs_active_of_phase ((busy_iff s).mpr ⟨?_, hf⟩) ?_ ?_ <;> intro hq <;> simp [hq] at hp
  · have hb : s.busy = true := (busy_iff s).mpr (by simp [hp])
    obtain ⟨-, -, hphase⟩ := h.cursor hb
    exact latched_dir s ▸ dir_of_phase_data (hp ▸ hphase)
  · have hb : s.busy = true := (busy_iff s).mpr (by rcases hp with hp | hp <;> simp [hp])
    obtain ⟨-, -, hphase⟩ := h.cursor hb
    exact latched_dir s ▸ dir_of_phase_receiver hphase hp

end Sys2Proof.Machine
end

section
/-! The accumulator of the response (R87) and the port at every tick of a READ (R91). -/

namespace Sys2Proof.Machine
open Sys2Proof

/-- Shifting a running value up by one bit is the library's `shiftConcat` (R69, R87). -/
theorem pushBit_eq_shiftConcat {n : Nat} (acc : BitVec n) (b : Bool) : pushBit acc b = acc.shiftConcat b := by
  ext i hi
  cases i with
  | zero => simp [pushBit]
  | succ i => simp [pushBit]

/-- The bit shifted out at the top is lost, at any width (R87). Where nothing is shifted out, `pushBit_toNat` has no modulus. -/
theorem pushBit_toNat_mod {n : Nat} (acc : BitVec n) (b : Bool) :
    (pushBit acc b).toNat = (2 * acc.toNat + b.toNat) % 2 ^ n := by
  rw [pushBit_eq_shiftConcat, BitVec.toNat_shiftConcat, Nat.shiftLeft_eq, pow_one, Nat.mul_comm]

/-- Settles O39: the command, the polls, the response and the close lead from acceptance to `Complete` (`trace_read`). -/
theorem readWaveform : Obligations.ReadWaveform := by
  intro s a w k hB hpoll hclean
  exact trace_read hB hpoll hclean

/-- Settles O15: the accumulate shifts the sampled bit into `RXACC`, and writes only that and the cursor. -/
theorem accumulateShiftsUp : Obligations.AccumulateShiftsUp := by
  intro s
  exact ⟨pushBit_toNat_mod s.rxacc s.rxbit, rfl⟩

end Sys2Proof.Machine
end

section
/-! Transactions from their acceptance to their end (R95 to R97): `Complete`, or a poll or a data sample that raises (R113). -/

namespace Sys2Proof.Machine
open Sys2Proof

/-! ### The end of a transaction -/

/-- From the state `m` the engine waits inside its transaction for `T` ticks, with `ws` on the wire meanwhile, and the run loop of the
tick after them ends in `m'`. -/
structure Ends (T : Nat) (ws : List Triple) (m m' : State) : Prop where
  fin_eq : fin T m = m'
  wire : obs T m = ws.map inFlight

theorem Leads.ends {T T' : Nat} {ws ws' : List Triple} {m m' m'' : State} {r : MicroSeq} (h : Leads T ws m m' r)
    (h' : Ends T' ws' m' m'') : Ends (T + T') (ws ++ ws') m m'' where
  fin_eq := (h.fin_add T').trans h'.fin_eq
  wire := by rw [obs_add h.fin_add, h.wire, h'.wire, List.map_append]

/-- A tick whose run loop ends the transaction at once. -/
theorem ends_of_fin_zero {m m' : State} (h : fin 0 m = m') : Ends 0 [] m m' := ⟨h, rfl⟩

/-- Where `Complete` leaves the engine (R97). -/
def State.completed (m : State) : State :=
  { m with phase := .idle, rdata := if m.dir = .read then m.rxacc else m.rdata, done := true, pos := m.pos + 1 }

theorem Leads.ends_complete {T : Nat} {ws : List Triple} {m m' : State} (h : Leads T ws m m' [(.teardown, .complete)]) :
    Ends T ws m m'.completed := by
  simpa [State.completed] using h.ends (ends_of_fin_zero (complete_end h.due))

/-- What the host sees of a transaction: until its end the engine is busy with the descriptor, without `done` or fault; then the tick
that ends it. -/
theorem Ends.ticks {s m' : State} {i : Instr} {T : Nat} {ws : List Triple} (h : Ends T ws (s.opened i) m')
    (hB : s.Begins i (T + 1)) (hstop : m'.running = false) (hreq : m'.ready = false ∨ (s.inputsAhead T).req = none) :
    (∀ n, 0 < n → n ≤ T → ∃ u, ticks n s = .next u ∧ u.busy = true ∧ u.done = false ∧ u.fault = false ∧
      latchedInstr u = i ∧ u.rdata = s.rdata) ∧
    ticks (T + 1) s = .next m'.endTick := by
  obtain ⟨hfin, hwire⟩ := h
  subst hfin
  obtain ⟨-, -, -, -, hlatch, -, -, hrdata, -⟩ := opened_facts (i := i) (begins_reset hB) hB.2.1
  have hticks := (flight hB hwire hstop hreq).1
  refine ⟨fun n h0 hn => ?_, hticks T le_rfl⟩
  obtain ⟨k, rfl⟩ := Nat.exists_eq_succ_of_ne_zero h0.ne'
  obtain ⟨hbusy, -, hdone, hfault⟩ := in_flight hwire hn
  refine ⟨_, hticks k (by omega), hbusy, hdone, hfault, (fin_latched k _).trans hlatch, ?_⟩
  exact (fin_rdata k _ fun j hj => (in_flight hwire (by omega : j < T)).2.2.1).trans hrdata

/-! ### What acceptance leaves -/

/-- What the acceptance of a WRITE leaves in the registers of the receiver: free values (R28). -/
theorem opened_write_registers {s : State} {a : BitVec 6} {d : Word} {w : BitVec 2} (hr : s.tickInput.reset = false) :
    (s.opened (.write a d w)).rxacc = (Config.freeAtAccept s.now).rxacc ∧
    (s.opened (.write a d w)).pollcnt = min (Config.freeAtAccept s.now).pollcnt s.cfg.pollMax := by
  rw [State.opened, environment_of_no_reset hr]
  exact ⟨rfl, rfl⟩

/-- What the acceptance of a READ leaves in the registers that it re-initialises (R28, R94). -/
theorem opened_read_registers {s : State} {a : BitVec 6} {w : BitVec 2} (hr : s.tickInput.reset = false) :
    (s.opened (.read a w)).rxacc = 0 ∧ (s.opened (.read a w)).wdata = (Config.freeAtAccept s.now).wdata := by
  rw [State.opened, environment_of_no_reset hr]
  exact ⟨rfl, rfl⟩

/-! ### WRITE -/

/-- Settles O35: the wire of a WRITE leads to `Complete` (`opened_write_leads`), and nothing of the receiver is written meanwhile. -/
theorem writeRunsToDone : Obligations.WriteRunsToDone := by
  intro s a d w hB hreq
  have hr := begins_reset hB
  obtain ⟨hcfg, -, -, -, -, -, hfault, hrdata, hxnorm, hcode⟩ := opened_facts (i := .write a d w) hr hB.2.1
  obtain ⟨hrxacc, hpollcnt⟩ := opened_write_registers (a := a) (d := d) (w := w) hr
  obtain ⟨pos, o, h⟩ := opened_write_leads (a := a) (d := d) (w := w) hr hB.2.1
  obtain ⟨hflight, hend⟩ := h.ends_complete.ticks hB rfl (.inr hreq)
  refine ⟨fun n h0 hn => ?_, _, hend, rfl, ?_, rfl, hrxacc, hpollcnt, hrdata, hxnorm, hcode⟩
  · obtain ⟨u, hu, hbusy, hdone, hfault, hlatch, -⟩ := hflight n h0 hn
    exact ⟨u, hu, hbusy, hdone, hfault, hlatch⟩
  · exact (ready_iff _).mpr ⟨rfl, hfault⟩

/-! ### READ, up to its polls -/

/-- The level of the wire while a READ polls: chip-select active, the clock at rest, data-out at the last bit of the address (R91). -/
abbrev pollTriple (s : State) (a : BitVec 6) : Triple := (s.cfg.csActive, s.port.sck, a.getLsbD 0)

/-- A READ from its acceptance to poll `q` (counted from 0) when the polls before it fail (R80, R84). -/
theorem opened_read_leads_poll {s : State} {a : BitVec 6} {w : BitVec 2} {q : Nat} (hr : s.tickInput.reset = false)
    (hrd : s.ready = true) (h1 : ∀ i, i < q → s.pollAhead i ≠ .one)
    (hx : s.cfg.xmode = .strict → ∀ i, i < q → s.pollAhead i ≠ .x) (hq : q ≤ s.cfg.pollMax) :
    ∃ o o', Leads (s.cfg.firstPoll + q)
      (commandWave s.cfg s.port.sck s.port.mosi (encodeRead s.cfg w a) ++ List.replicate q (pollTriple s a))
      (s.opened (.read a w))
      ((s.atFirstPoll a w o).polled q ((List.range q).map fun i => xCount (s.pollAhead i)).sum o')
      (pollLoop (afterLoop s.cfg)) := by
  obtain ⟨o, f1, d1, w1⟩ := opened_to_polls (a := a) (w := w) hr hrd
  have hcfg : (s.atFirstPoll a w o).cfg = s.cfg := (opened_facts (i := .read a w) hr hrd).1
  have hin : ∀ i, (s.atFirstPoll a w o).inputAhead i .ready = s.pollAhead i := fun i =>
    atFirstPoll_inputAhead o hr hrd i .ready
  have hbound : 0 + q ≤ s.cfg.pollMax := by omega
  obtain ⟨o', f2, d2, w2⟩ := d1.pollFails q rfl (by simpa only [hin] using h1) (by simpa only [hin, hcfg] using hx)
    (hcfg ▸ hbound)
  have h := (Leads.mk f1 d1 w1).trans (Leads.mk f2 d2 w2)
  simp only [hin] at h
  exact ⟨o, o', h⟩

/-- What is left of the READ's acceptance in every state in which only its polls have failed (R84, R113). -/
theorem polled_facts {s : State} {a : BitVec 6} {w : BitVec 2} (hr : s.tickInput.reset = false) (hrd : s.ready = true)
    (q x : Nat) (o o' : List Bool) :
    ((s.atFirstPoll a w o).polled q x o').pollcnt = q ∧ ((s.atFirstPoll a w o).polled q x o').rxacc = 0 ∧
    ((s.atFirstPoll a w o).polled q x o').rdata = s.rdata ∧
    ((s.atFirstPoll a w o).polled q x o').xnormCount = s.xnormCount + x ∧
    latchedInstr ((s.atFirstPoll a w o).polled q x o') = .read a w ∧
    ((s.atFirstPoll a w o).polled q x o').port.triple = pollTriple s a ∧
    ((s.atFirstPoll a w o).polled q x o').done = false := by
  obtain ⟨-, -, -, -, hlatch, hdone, -, hrdata, hxnorm, -⟩ := opened_facts (i := .read a w) hr hrd
  obtain ⟨hrxacc, -⟩ := opened_read_registers (a := a) (w := w) hr
  exact ⟨Nat.zero_add q, hrxacc, hrdata, congrArg (· + x) hxnorm, hlatch, rfl, hdone⟩

/-- A READ that raises at poll `q`, or at the bound in its place. -/
theorem opened_read_raises {s : State} {a : BitVec 6} {w : BitVec 2} {q : Nat} (k : FaultKind) (hr : s.tickInput.reset = false)
    (hrd : s.ready = true) (h1 : ∀ i, i < q → s.pollAhead i ≠ .one)
    (hx : s.cfg.xmode = .strict → ∀ i, i < q → s.pollAhead i ≠ .x) (hq : q ≤ s.cfg.pollMax)
    (hk : k = .protocolTimeout ∧ q = s.cfg.pollMax ∨
      k = .undefinedSample ∧ q < s.cfg.pollMax ∧ s.pollAhead q = .x ∧ s.cfg.xmode = .strict) :
    ∃ o o', Ends (s.cfg.firstPoll + q)
      (commandWave s.cfg s.port.sck s.port.mosi (encodeRead s.cfg w a) ++ List.replicate q (pollTriple s a))
      (s.opened (.read a w))
      (((s.atFirstPoll a w o).polled q ((List.range q).map fun i => xCount (s.pollAhead i)).sum o').raise k) := by
  obtain ⟨o, o', h⟩ := opened_read_leads_poll (a := a) (w := w) hr hrd h1 hx hq
  have hcfg : (s.atFirstPoll a w o).cfg = s.cfg := (opened_facts (i := .read a w) hr hrd).1
  generalize ((List.range q).map fun i => xCount (s.pollAhead i)).sum = x at h
  generalize hm : (s.atFirstPoll a w o).polled q x o' = m at h
  have hmcfg : m.cfg = s.cfg := hm ▸ hcfg
  have hcount : m.pollcnt = q := hm ▸ (polled_facts hr hrd q x o o').1
  have hin : m.input .ready = s.pollAhead q := by
    have hshift : m.inputAhead 0 .ready = (s.atFirstPoll a w o).inputAhead (q + 0) .ready :=
      inputAhead_shift _ q 0 .ready m (by rw [← hm]; rfl) (by rw [← hm]; rfl) (by rw [← hm]; rfl)
    rw [input_eq_inputAhead, hshift, atFirstPoll_inputAhead o hr hrd]
    rfl
  have hph : m.phase = .awaitReady := by rw [← hm]; rfl
  have hend : fin 0 m = m.raise k := by
    rcases hk with ⟨rfl, hmax⟩ | ⟨rfl, hlt, hundef, hstrict⟩
    · rw [h.due.pollTimeout (by rw [hcount, hmcfg, hmax]), State.raise, hph]; rfl
    · rw [h.due.pollUndefined (hin.trans hundef) (by rw [hmcfg, hstrict]) (by rw [hcount, hmcfg]; exact hlt), State.raise, hph]
      rfl
  refine ⟨o, o', ?_⟩
  rw [hm]
  simpa using h.ends (ends_of_fin_zero hend)

theorem xCount_of_ne_x {v : Tri} (h : v ≠ .x) : xCount v = 0 := if_neg h

/-- Samples none of which reads X count none (R83). -/
theorem sum_xCount_eq_zero {n : Nat} {v : Nat → Tri} (h : ∀ i, i < n → v i ≠ .x) :
    ((List.range n).map fun i => xCount (v i)).sum = 0 := by
  rw [List.sum_eq_zero_iff]
  intro y hy
  obtain ⟨i, hi, rfl⟩ := List.mem_map.mp hy
  exact xCount_of_ne_x (h i (List.mem_range.mp hi))

/-- Settles O43: the polls that read 0 lead to the one that reads X (`opened_read_raises`), and none of them counts an X. -/
theorem undefinedPollFaultsAtItsTick : Obligations.UndefinedPollFaultsAtItsTick := by
  intro s a w q hB hstrict hq hzero hundef
  have hr := begins_reset hB
  have hx : ∀ i, i < q → s.pollAhead i ≠ .x := fun i hi => by simp [hzero i hi]
  obtain ⟨o, o', h⟩ := opened_read_raises (a := a) (w := w) .undefinedSample hr hB.2.1 (fun i hi => by simp [hzero i hi])
    (fun _ => hx) hq.le (.inr ⟨rfl, hq, hundef, hstrict⟩)
  rw [sum_xCount_eq_zero hx] at h
  obtain ⟨hpollcnt, hrxacc, hrdata, hxnorm, hlatch, hport, hdone⟩ := polled_facts (a := a) (w := w) hr hB.2.1 q 0 o o'
  obtain ⟨hflight, hend⟩ := h.ticks hB rfl (.inl rfl)
  refine ⟨fun n h0 hn => ?_, _, hend, rfl, rfl, rfl, rfl, rfl, hpollcnt, hrxacc, hdone, hrdata, hxnorm, hlatch, hport⟩
  obtain ⟨u, hu, hbusy, hdone, hfault, -⟩ := hflight n h0 hn
  exact ⟨u, hu, hbusy, hfault, hdone⟩

/-! ### READ, in its response -/

/-- What is known of the engine of a READ at its first response edge, when poll `k` succeeded (R86). -/
structure State.AtFirstEdge (s : State) (a : BitVec 6) (w : BitVec 2) (k : Nat) (m : State) : Prop where
  cfg : m.cfg = s.cfg
  triple : m.port.triple = pollTriple s a
  latched : latchedInstr m = .read a w
  wdata : m.wdata = (Config.freeAtAccept s.now).wdata
  rxacc : m.rxacc = 0
  rdata : m.rdata = s.rdata
  pollcnt : m.pollcnt = k
  xnormCount : m.xnormCount = s.xnormCount + ((List.range k).map fun i => xCount (s.pollAhead i)).sum
  done : m.done = false
  fault : m.fault = false
  faultCode : m.faultCode = s.faultCode
  miso : ∀ n, m.inputAhead n .miso = s.inputAhead (s.cfg.firstEdge k + n) .miso

/-- A READ whose poll `k` succeeds comes to its first response edge (R84, R86). -/
theorem opened_read_leads_firstEdge {s : State} {a : BitVec 6} {w : BitVec 2} {k : Nat} (hr : s.tickInput.reset = false)
    (hrd : s.ready = true) (hpoll : s.PollSucceedsAt k)
    (hx : s.cfg.xmode = .strict → ∀ i, i < k → s.pollAhead i ≠ .x) :
    ∃ ws m, Leads (s.cfg.firstEdge k) ws (s.opened (.read a w)) m (tagged .response (recvWord s.cfg) ++ teardown s.cfg) ∧
      s.AtFirstEdge a w k m := by
  obtain ⟨q, rfl⟩ := Nat.exists_eq_add_of_le' hpoll.1
  obtain ⟨o, o', h⟩ := opened_read_leads_response (a := a) (w := w) hr hrd hpoll fun hs i hi => hx hs i (by omega)
  obtain ⟨hcfg, -, -, -, hlatch, hdone, hfault, hrdata, hxnorm, hcode⟩ := opened_facts (i := .read a w) hr hrd
  obtain ⟨hrxacc, hwdata⟩ := opened_read_registers (a := a) (w := w) hr
  have hsum : ((List.range (q + 1)).map fun i => xCount (s.pollAhead i)).sum =
      ((List.range q).map fun i => xCount (s.pollAhead i)).sum := by
    have hone : s.pollAhead q = .one := hpoll.2.2.1
    simp [List.range_succ, hone, xCount]
  refine ⟨_, _, h, hcfg, rfl, hlatch, hwdata, hrxacc, hrdata, ?_, ?_, hdone, hfault, hcode, fun n => ?_⟩
  · exact congrArg (· + 1) (Nat.zero_add q)
  · rw [hsum]; exact congrArg (· + _) hxnorm
  · rw [atResponse_inputAhead, atFirstPoll_inputAhead o hr hrd, show (s.atFirstPoll a w o).cfg = s.cfg from hcfg,
      Config.firstEdge]
    simp only [Nat.add_assoc, Nat.add_sub_cancel]

/-- The samples of the response, from the first response edge on (R88). -/
theorem State.AtFirstEdge.sample {s m : State} {a : BitVec 6} {w : BitVec 2} {k : Nat} (h : s.AtFirstEdge a w k m) (j : Nat) :
    m.inputAhead (2 * m.cfg.tHalf * j + recvOffset m.cfg) .miso = s.dataAhead k j := by
  rw [h.miso, h.cfg, State.dataAhead, sampleOffset_eq]

theorem State.AtFirstEdge.cs {s m : State} {a : BitVec 6} {w : BitVec 2} {k : Nat} (h : s.AtFirstEdge a w k m) :
    m.port.cs = m.cfg.csActive := h.cfg ▸ congrArg Prod.fst h.triple

/-- The fold of R87 over the response is the value of R69. -/
theorem foldl_pushBit_samples (s : State) (k n : Nat) (h : n ≤ 32) :
    ((List.range n).map fun j => norm (s.dataAhead k j)).foldl pushBit (0 : Word) = ofBitsMsb 32 ((s.dataBits k).take n) := by
  rw [State.dataBits, ← List.map_take, List.take_range, Nat.min_eq_left h]
  rfl

/-- Settles O38: the engine at the first response edge, the 32 bits of the response, the close and `Complete`. -/
theorem readReturnsResponse : Obligations.ReadReturnsResponse := by
  intro s a w k hB hpoll hclean hreq
  have hr := begins_reset hB
  obtain ⟨ws, m, h1, hm⟩ := opened_read_leads_firstEdge (a := a) (w := w) hr hB.2.1 hpoll fun hs => (hclean hs).1
  have hd := h1.due
  rw [← hm.cfg] at hd
  obtain ⟨pos, o, o', b, h2⟩ := hd.leads_response (s.dataAhead k) (fun j _ => hm.sample j)
    (fun hs => (hclean (hm.cfg ▸ hs)).2) hm.cs
  have h := (h1.trans h2).ends_complete
  have hlen : s.cfg.firstEdge k + (2 * m.cfg.tHalf * 32 + (m.cfg.tCsSettle + m.cfg.extraEdges * m.cfg.tHalf)) =
      s.cfg.readTicks k := by
    simp only [hm.cfg, Config.readTicks, Config.writeTicks, Config.firstEdge, Config.firstPoll]; ring
  rw [hlen] at h
  obtain ⟨hflight, hend⟩ := h.ticks hB rfl (.inr hreq)
  have hdir : m.dir = .read := by rw [← latched_dir, hm.latched]; rfl
  have htriple := hm.triple
  simp only [OutPort.triple, Prod.mk.injEq] at htriple
  obtain ⟨-, hsck, hmosi⟩ := htriple
  refine ⟨fun n h0 hn => ?_, _, hend, rfl, (ready_iff _).mpr ⟨rfl, hm.fault⟩, ?_, hm.pollcnt, ?_, ?_, hm.wdata, hm.faultCode⟩
  · obtain ⟨u, hu, hbusy, hdone, hfault, hlatch, hrdata⟩ := hflight n h0 hn
    exact ⟨u, hu, hbusy, hdone, hfault, hlatch, hrdata⟩
  · have hacc := foldl_pushBit_samples s k 32 le_rfl
    rw [List.take_of_length_le (by simp [State.dataBits])] at hacc
    rw [decodeResponse, ← hacc, ← hm.rxacc]
    exact if_pos hdir
  · rw [State.xSamples, ← Nat.add_assoc, ← hm.xnormCount]
    rfl
  · rw [← hm.cfg, ← hsck, ← hmosi]
    rfl

/-- A response of which data sample `j` is the first X, under Strict: the bits before it are received, and the fault is raised at its
tick (R87, R111). -/
theorem Due.recvWordUndefined {m : State} {r : MicroSeq} (v : Nat → Tri) {j : Nat} (hj : j < 32)
    (hd : Due m (tagged .response (recvWord m.cfg) ++ r))
    (hv : ∀ i, m.inputAhead (2 * m.cfg.tHalf * i + recvOffset m.cfg) .miso = v i) (hx : ∀ i, i < j → v i ≠ .x)
    (hundef : v j = .x) (hs : m.cfg.xmode = .strict) (hcs : m.port.cs = m.cfg.csActive) :
    ∃ ws o pos b, Ends (2 * m.cfg.tHalf * j + recvOffset m.cfg) ws m
      (State.raise { m.received (2 * m.cfg.tHalf * j + recvOffset m.cfg) pos o
          (((List.range j).map fun i => norm (v i)).foldl pushBit m.rxacc) b 0 with
        port := { m.port with sck := levelAtSample m.cfg m.port.sck, other := o } } .undefinedSample) := by
  obtain ⟨n, hn⟩ := Nat.exists_eq_add_of_lt hj
  have hsplit : tagged .response (recvWord m.cfg) ++ r =
      tagged .response (List.replicate j (Machine.recvBit m.cfg)).flatten ++
        (tagged .response (Machine.recvBit m.cfg) ++ (tagged .response (List.replicate n (Machine.recvBit m.cfg)).flatten ++ r)) := by
    rw [recvWord, hn, Nat.add_assoc, List.replicate_add, List.replicate_succ, List.flatten_append, List.flatten_cons]
    simp only [tagged_append, List.append_assoc]
  rw [hsplit] at hd
  have hlast := hv j
  rw [hundef] at hlast
  rcases Nat.eq_zero_or_pos j with rfl | hpos
  · obtain ⟨o, pos, ws, hfin, hwire⟩ := Due.recvBitUndefined hd (by simpa using hlast) hs
    refine ⟨ws, o, pos, m.rxbit, ?_, ?_⟩
    · rw [Nat.mul_zero, Nat.zero_add, hfin]; rfl
    · rwa [Nat.mul_zero, Nat.zero_add]
  · obtain ⟨o1, b, f1, d1, w1⟩ := hd.recvBits j v (.inr hpos) (fun i _ => hv i) (fun _ => hx) hcs
    rw [sum_xCount_eq_zero hx] at f1 d1
    generalize hm1 : m.received (2 * m.cfg.tHalf * j) (m.pos + 6 * j) o1
      (((List.range j).map fun i => norm (v i)).foldl pushBit m.rxacc) b 0 = m1 at f1 d1
    have hcfg : m1.cfg = m.cfg := by rw [← hm1]; rfl
    have hin : m1.inputAhead (recvOffset m1.cfg) .miso = .x := by
      refine (inputAhead_shift m (2 * m.cfg.tHalf * j) _ .miso m1 ?_ ?_ hcfg).trans (hcfg ▸ hlast) <;> rw [← hm1] <;> rfl
    rw [← hcfg] at d1
    obtain ⟨o, pos, ws, hfin, hwire⟩ := Due.recvBitUndefined d1 hin (hcfg ▸ hs)
    rw [hcfg] at hfin hwire
    refine ⟨_, o, pos, b, (f1 _).trans (hfin.trans ?_), by rw [obs_add f1, w1, hwire, ← List.map_append]⟩
    rw [← hm1]
    simp [State.received, State.raise, faultCodeOf, Nat.add_assoc]

/-- Settles O44: the engine at the first response edge, the bits before sample `j`, and the bit period that raises at its sample. -/
theorem undefinedDataFaultsAtItsTick : Obligations.UndefinedDataFaultsAtItsTick := by
  intro s a w k j hB hstrict hpoll hclean hj hdata hundef
  have hr := begins_reset hB
  obtain ⟨ws, m, h1, hm⟩ := opened_read_leads_firstEdge (a := a) (w := w) hr hB.2.1 hpoll fun _ => hclean
  have hd := h1.due
  rw [← hm.cfg] at hd
  obtain ⟨ws', o, pos, b, h2⟩ := hd.recvWordUndefined (s.dataAhead k) hj hm.sample hdata hundef (hm.cfg ▸ hstrict) hm.cs
  have h := h1.ends h2
  rw [hm.cfg, ← sampleOffset_eq] at h
  obtain ⟨hflight, hend⟩ := h.ticks hB rfl (.inl rfl)
  have htriple := hm.triple
  simp only [OutPort.triple, Prod.mk.injEq] at htriple
  obtain ⟨hcs, hsck, hmosi⟩ := htriple
  refine ⟨fun n h0 hn => ?_, _, hend, rfl, rfl, rfl, rfl, rfl, hm.pollcnt, ?_, hm.done, hm.rdata, ?_, hm.latched, ?_⟩
  · obtain ⟨u, hu, hbusy, hdone, hfault, -⟩ := hflight n h0 hn
    exact ⟨u, hu, hbusy, hfault, hdone⟩
  · rw [← foldl_pushBit_samples s k j hj.le, ← hm.rxacc]
    rfl
  · have hxnorm := hm.xnormCount
    rw [sum_xCount_eq_zero hclean] at hxnorm
    exact hxnorm
  · rw [← hcs, ← hsck, ← hmosi]
    rfl

end Sys2Proof.Machine
end

section
/-! The tick of an operation (R93 to R101): its two courses in one equation each, the frames of WRITE and READ, and what of its
surroundings a tick does not read. -/

namespace Sys2Proof.Machine
open Sys2Proof

/-! ### The two courses of a tick (R100 (b)) -/

/-- The countdown keeps the invariant once the run loop has ended (R100 (d)). -/
theorem countdown_inv {m : State} (h : m.MidInv) (hr : m.running = false) : m.countdown.Inv := by
  obtain ⟨g1, g2, g3, g4, g5, g6, g7, g8, g9⟩ := endTick_inv h hr
  exact ⟨g1, g2, g3, g4, g5, g6, g7, g8, g9⟩

/-- The invariant does not read the script (R30) nor the tick number. -/
theorem State.Inv.with_script {s : State} (h : s.Inv) (env : List TickInput) (now : Nat) :
    ({ s with env := env, now := now } : State).Inv :=
  ⟨h.admissible, h.otherLength, h.pollBound, h.faultPhaseIff, h.faultCodes, h.faultedIn, h.restWait, h.cursor, h.chipSelect⟩

theorem engineTick_keeps_inv (o : Option Instr) {s : State} (h : s.MidInv) :
    ∃ t, engineTick (acceptPresented o) s = .next t ∧ t.Inv := by
  obtain ⟨hm, hstop⟩ := runAccept_midInv o h
  exact ⟨_, engineTick_of_stops h.admissible hstop, countdown_inv hm hstop⟩

/-- Accepted: the tick is the run loop, the acceptance with what it starts, and the countdown (R94). -/
theorem exec_of_ready {s : State} (i : Instr) (h : s.MidInv) (hr : s.startTick.run.ready = true) :
    exec i s = .next (accepted i s.startTick.run).countdown := by
  have hm := h.startTick.run
  rw [exec_eq_acceptInstr, engineTick_of_ready h.admissible hr _ (hm.accept i hr).run_stops, accept_run i _ hm.admissible]

/-- Not accepted: the tick is the run loop and the countdown, whatever is presented (R94, R101). -/
theorem engineTick_unless_ready {s : State} (acc : State → State) (h : s.MidInv) (hr : s.startTick.run.ready = false) :
    engineTick acc s = .next s.startTick.run.countdown :=
  engineTick_of_not_ready h.admissible h.startTick.run_stops hr acc

theorem exec_unless_ready {s : State} (i : Instr) (h : s.MidInv) (hr : s.startTick.run.ready = false) :
    exec i s = .next s.startTick.run.countdown := by
  rw [exec_eq_acceptInstr, engineTick_unless_ready _ h hr]

/-- A ready engine has nothing to run before it accepts. -/
theorem startTick_run_of_ready {s : State} (hr : s.ready = true) : s.startTick.run = s.startTick :=
  run_of_not_running (not_running_of_ready (s := s.startTick) hr)

theorem exec_of_idle {s : State} (i : Instr) (h : s.MidInv) (hr : s.ready = true) :
    exec i s = .next (accepted i s.startTick).countdown := by
  have hrun := startTick_run_of_ready hr
  rw [exec_of_ready i h (by rw [hrun]; exact hr), hrun]

/-! ### The state after an acceptance -/

theorem accepted_of_settle {i : Instr} {q : State} (h : 0 < q.cfg.tCsSettle) : accepted i q = { acceptInstr i q with
    phase := .preamble, pos := 2, waitcnt := q.cfg.tCsSettle, port := { q.port with cs := q.cfg.csIdle } } := if_pos h

theorem accepted_of_no_settle {i : Instr} {q : State} (h : ¬0 < q.cfg.tCsSettle) : accepted i q = { acceptInstr i q with
    phase := .preamble, pos := 6, waitcnt := q.cfg.tHalf
    port := { q.port with cs := q.cfg.csActive, sck := !q.port.sck, mosi := cmdBit q.cfg i.dir } } := if_neg h

/-- What an acceptance leaves alone beside what `accepted` writes (R94). -/
theorem accepted_keeps (i : Instr) (q : State) : (accepted i q).cfg = q.cfg ∧ (accepted i q).done = q.done ∧
    (accepted i q).rdata = q.rdata ∧ (accepted i q).rxbit = q.rxbit ∧ (accepted i q).fault = q.fault ∧
    (accepted i q).faultCode = q.faultCode ∧ (accepted i q).faultPhase = q.faultPhase ∧
    (accepted i q).xnormCount = q.xnormCount := by
  unfold accepted
  cases i <;> simp only [acceptInstr] <;> split <;> exact ⟨rfl, rfl, rfl, rfl, rfl, rfl, rfl, rfl⟩

theorem accepted_surroundings (i : Instr) (q : State) : (accepted i q).port.other = q.port.other ∧
    (accepted i q).env = q.env ∧ (accepted i q).now = q.now := by
  unfold accepted
  cases i <;> simp only [acceptInstr] <;> split <;> exact ⟨rfl, rfl, rfl⟩

/-- After an acceptance the engine is in `Preamble` with the descriptor of the operation (R94). -/
theorem accepted_begins (i : Instr) (q : State) :
    (accepted i q).busy = true ∧ (accepted i q).phase = .preamble ∧ latchedInstr (accepted i q) = i := by
  unfold accepted
  cases i <;> simp only [acceptInstr] <;> split <;> exact ⟨rfl, rfl, rfl⟩

/-- Acceptance does not read the event `done`. -/
theorem accepted_with_done (i : Instr) (q : State) (b : Bool) :
    accepted i { q with done := b } = { accepted i q with done := b } := by
  unfold accepted
  cases i <;> simp only [acceptInstr] <;> split <;> rfl

/-- Settles O25: an engine at rest has nothing to run, and nothing is accepted. -/
theorem idleHolds : Obligations.IdleHolds := by
  intro s h hr
  exact idleTick_of_ready h.admissible hr (h.restWait (by simp [State.busy, ((ready_iff s).mp hr).1]))

/-- Settles O26: the tick keeps the invariant with and without a request. -/
theorem execHasNextState : Obligations.ExecHasNextState := by
  intro s h
  refine ⟨fun i => ?_, engineTick_keeps_inv none h.mid⟩
  rw [exec_eq_acceptInstr]
  exact engineTick_keeps_inv (some i) h.mid

/-- Settles O17: the tick of an acceptance (`exec_of_idle`), written out field by field. -/
theorem writeAccepted : Obligations.WriteAccepted := by
  intro s a d w h hr
  rw [exec_of_idle _ h.mid hr]
  by_cases hS : 0 < s.cfg.tCsSettle
  · rw [if_pos hS, accepted_of_settle (q := s.startTick) hS]
    rfl
  · rw [if_neg hS, accepted_of_no_settle (q := s.startTick) hS]
    rfl

/-- Settles O18: as for WRITE. -/
theorem readAccepted : Obligations.ReadAccepted := by
  intro s a w h hr
  rw [exec_of_idle _ h.mid hr]
  by_cases hS : 0 < s.cfg.tCsSettle
  · rw [if_pos hS, accepted_of_settle (q := s.startTick) hS]
    rfl
  · rw [if_neg hS, accepted_of_no_settle (q := s.startTick) hS]
    rfl

/-- Settles O19: either tick is the run loop and the countdown. -/
theorem requestIgnoredUnlessReady : Obligations.RequestIgnoredUnlessReady := by
  intro s i h hr
  have hidle : idleTick s = .next s.startTick.run.countdown := engineTick_unless_ready id h.mid hr
  exact ⟨(exec_unless_ready i h.mid hr).trans hidle.symm, _, hidle⟩

/-- Settles O20: the run loop that comes to `Idle` gives `done`, which acceptance carries to the end of the tick. -/
theorem backToBackAccepted : Obligations.BackToBackAccepted := by
  intro s i h hb hr
  have hdone : s.startTick.run.done = true := run_done_of_idle (s := s.startTick) hb ((ready_iff _).mp hr).1
  refine ⟨_, exec_of_idle i h.mid.startTick.run hr, ?_, hdone⟩
  rw [exec_of_ready i h.mid hr]
  generalize s.startTick.run = m at hdone ⊢
  have hm : m = { m.startTick with done := true } := by rw [← hdone]; rfl
  conv_lhs => rw [hm, accepted_with_done]
  rfl

/-- Settles O27: the definition of the step, and the request that `withFetchWord` puts on the request signals. -/
theorem stepRunsPresented : Obligations.StepRunsPresented := by
  have hstep : ∀ (s : State) (i : Instr), s.presented = some i → step s = mapNext State.nextTick (exec i s.environment) := by
    intro s i hp
    rw [step_eq_engineTick, hp, acceptPresented, exec_eq_acceptInstr]
  refine ⟨hstep, fun s hp => ?_, fun s => environment_of_no_reset, fun s nbits w i hw => ?_⟩
  · rw [step_eq_engineTick, hp]
    rfl
  · have hfetch : s.withFetchWord nbits w = s.present i := by simp only [State.withFetchWord, hw]
    have hpres : (s.present i).presented = some i := by cases i <;> rfl
    rw [hfetch, environment_of_no_reset (s := s.present i) rfl]
    refine ⟨rfl, ?_⟩
    rw [hstep _ i hpres, environment_of_no_reset (s := s.present i) rfl]

end Sys2Proof.Machine
end

section
/-! What a WRITE leaves alone and does not read (R18, R20 to R25, R95), and what a READ leaves alone (R113). -/

namespace Sys2Proof.Machine
open Sys2Proof

/-! ### The micro-operations of a WRITE -/

/-- A WRITE only drives its three lines, waits and completes (R95): it holds no poll, no sample and no accumulate. -/
theorem op_of_write {s : State} {p : Phase} {op : MicroOp} (hd : s.dir = .write) (hg : s.seq[s.pos]? = some (p, op)) :
    (∃ l v, op = .setOut l v) ∨ op = .sckInvert ∨ (∃ n, op = .wait n) ∨ op = .complete := by
  have hmem := List.mem_of_getElem? hg
  rw [show s.seq = microSeq s.cfg (.write s.addr s.wdata s.width) by simp [State.seq, latchedInstr, hd], microSeq_eq] at hmem
  simp only [List.mem_append] at hmem
  rcases hmem with h | h | h
  · rcases (mem_txCmd h).2 with h | h | h
    exacts [.inl h, .inr (.inl h), .inr (.inr (.inl h))]
  · rcases (mem_txData h).2 with h | h | h
    exacts [.inl ⟨_, h⟩, .inr (.inl h), .inr (.inr (.inl h))]
  · rcases (mem_teardown h).2 with h | h | h | h
    exacts [.inl ⟨_, h⟩, .inr (.inl h), .inr (.inr (.inl h)), .inr (.inr (.inr h))]

/-- What a WRITE leaves alone (R20, R21, R24, R25). -/
structure SameReceiver (s t : State) : Prop where
  rxacc : t.rxacc = s.rxacc
  pollcnt : t.pollcnt = s.pollcnt
  rdata : t.rdata = s.rdata
  rxbit : t.rxbit = s.rxbit
  fault : t.fault = s.fault
  faultCode : t.faultCode = s.faultCode
  faultPhase : t.faultPhase = s.faultPhase
  xnormCount : t.xnormCount = s.xnormCount

theorem SameReceiver.refl (s : State) : SameReceiver s s := ⟨rfl, rfl, rfl, rfl, rfl, rfl, rfl, rfl⟩

theorem SameReceiver.trans {s t u : State} (h : SameReceiver s t) (k : SameReceiver t u) : SameReceiver s u :=
  ⟨k.rxacc.trans h.rxacc, k.pollcnt.trans h.pollcnt, k.rdata.trans h.rdata, k.rxbit.trans h.rxbit, k.fault.trans h.fault,
    k.faultCode.trans h.faultCode, k.faultPhase.trans h.faultPhase, k.xnormCount.trans h.xnormCount⟩

theorem microStep_sameReceiver {s : State} (hd : s.dir = .write) : SameReceiver s s.microStep := by
  unfold State.microStep
  split
  · rename_i p op hg
    rcases op_of_write hd hg with ⟨l, v, rfl⟩ | rfl | ⟨n, rfl⟩ | rfl
    · exact ⟨rfl, rfl, rfl, rfl, rfl, rfl, rfl, rfl⟩
    · exact ⟨rfl, rfl, rfl, rfl, rfl, rfl, rfl, rfl⟩
    · exact ⟨rfl, rfl, rfl, rfl, rfl, rfl, rfl, rfl⟩
    · exact ⟨rfl, rfl, by simp [MicroOp.exec, hd], rfl, rfl, rfl, rfl, rfl⟩
  · exact .refl s

/-- The run loop of an engine that is in no READ. -/
theorem run_sameReceiver {s : State} (h : s.busy = true → s.dir = .write) : SameReceiver s s.run := by
  by_cases hr : s.running = true
  · refine (runFor_keeps (P := fun t => t.dir = .write ∧ SameReceiver s t) ?_ _ s
      ⟨h ((running_iff s).mp hr).1, .refl s⟩).2
    rintro t - ⟨hd, ht⟩
    exact ⟨(microStep_sameContext t).dir.trans hd, ht.trans (microStep_sameReceiver hd)⟩
  · rw [run_of_not_running (by simpa using hr)]
    exact .refl s

/-- Settles O22: the run loop of a WRITE leaves the receiver alone, and so does the acceptance of one, but for `RXACC` and `POLLCNT`. -/
theorem writeFrame : Obligations.WriteFrame := by
  intro s t a d w h _ hd ht
  have hpoll : t.pollcnt ≤ t.cfg.pollMax := by
    obtain ⟨u, hu, hI⟩ := engineTick_keeps_inv (some (.write a d w)) h.mid
    cases hu.symm.trans ht
    exact hI.pollBound
  obtain ⟨hrxacc, hpollcnt, hrdata, hrxbit, hfault, hcode, hphase, hxnorm⟩ := run_sameReceiver (s := s.startTick) hd
  cases hr : s.startTick.run.ready with
  | false =>
    cases (exec_unless_ready _ h.mid hr).symm.trans ht
    exact ⟨fun _ => ⟨hrxacc, hpollcnt⟩, hpoll, hrdata, hrxbit, hfault, hcode, hphase, hxnorm⟩
  | true =>
    cases (exec_of_ready _ h.mid hr).symm.trans ht
    obtain ⟨-, -, krdata, krxbit, kfault, kcode, kphase, kxnorm⟩ := accepted_keeps (.write a d w) s.startTick.run
    exact ⟨nofun, hpoll, krdata.trans hrdata, krxbit.trans hrxbit, kfault.trans hfault, kcode.trans hcode,
      kphase.trans hphase, kxnorm.trans hxnorm⟩

/-! ### The fault record of a READ -/

/-- From a state without a fault: the fault record is as it was, or the engine is in `Fault` (R113). -/
def RecordKept (s t : State) : Prop :=
  t.fault = s.fault ∧ t.faultCode = s.faultCode ∧ t.faultPhase = s.faultPhase ∨ t.fault = true ∧ t.phase = .fault

/-- `raise` enters `Fault`; every other micro-operation leaves the fault record alone and lowers no count (R83, R113). -/
theorem exec_record (op : MicroOp) (s : State) : s.xnormCount ≤ (op.exec s).xnormCount ∧ RecordKept s (op.exec s) := by
  cases op <;> simp only [MicroOp.exec]
  case poll =>
    rw [pollRound_eq]
    split
    · exact ⟨le_rfl, .inr ⟨rfl, rfl⟩⟩
    · split
      · exact ⟨le_rfl, .inr ⟨rfl, rfl⟩⟩
      · exact ⟨Nat.le_add_right _ _, .inl ⟨rfl, rfl, rfl⟩⟩
  case sampleMiso =>
    rw [sampleData_eq]
    split
    · exact ⟨le_rfl, .inr ⟨rfl, rfl⟩⟩
    · exact ⟨Nat.le_add_right _ _, .inl ⟨rfl, rfl, rfl⟩⟩
  all_goals exact ⟨le_rfl, .inl ⟨rfl, rfl, rfl⟩⟩

theorem run_record (s : State) : s.xnormCount ≤ s.run.xnormCount ∧ RecordKept s s.run := by
  refine runFor_keeps (P := fun t => s.xnormCount ≤ t.xnormCount ∧ RecordKept s t) ?_ _ s ⟨le_rfl, .inl ⟨rfl, rfl, rfl⟩⟩
  rintro t hr ⟨hx, ht⟩
  rcases ht with ⟨hf, hc, hp⟩ | ⟨-, hph⟩
  · rcases microStep_cases t with e | ⟨p, op, -, e⟩ <;> rw [e]
    · exact ⟨hx, .inl ⟨hf, hc, hp⟩⟩
    · obtain ⟨kx, kt⟩ := exec_record op { t with phase := p }
      exact ⟨hx.trans kx, kt.imp (fun ⟨kf, kc, kp⟩ => ⟨kf.trans hf, kc.trans hc, kp.trans hp⟩) id⟩
  · rw [(not_running_of_fault hph).1] at hr
    cases hr

/-- Settles O23: the run loop keeps the fault record or enters `Fault`, and a request is accepted only in `Idle`. -/
theorem readFrame : Obligations.ReadFrame := by
  intro s t a w h ht
  obtain ⟨hx, hrec⟩ := run_record s.startTick
  have hrecord : RecordKept s t → (s.fault = true → t = s.startTick.countdown) →
      (t.fault = s.fault → t.faultCode = s.faultCode ∧ t.faultPhase = s.faultPhase) ∧
        (t.fault ≠ s.fault → t.phase = .fault ∧ t.fault = true) := by
    rintro (⟨hf, hc, hp⟩ | ⟨hf, hph⟩) hstill
    · exact ⟨fun _ => ⟨hc, hp⟩, fun hne => absurd hf hne⟩
    · refine ⟨fun hsame => ?_, fun _ => ⟨hph, hf⟩⟩
      rw [hstill (hsame ▸ hf)]
      exact ⟨rfl, rfl⟩
  have hfaulted : s.fault = true → s.startTick.run = s.startTick := fun hf =>
    run_of_not_running (not_running_of_fault (s := s.startTick) (h.faultPhaseIff.mp hf)).1
  cases hr : s.startTick.run.ready with
  | false =>
    cases (exec_unless_ready _ h.mid hr).symm.trans ht
    exact ⟨fun _ => (run_sameContext s.startTick).wdata, hx, hrecord hrec fun hf => by rw [hfaulted hf]⟩
  | true =>
    cases (exec_of_ready _ h.mid hr).symm.trans ht
    obtain ⟨-, -, -, -, kfault, kcode, kphase, kxnorm⟩ := accepted_keeps (.read a w) s.startTick.run
    obtain ⟨hidle, hnofault⟩ := (ready_iff _).mp hr
    refine ⟨nofun, hx.trans kxnorm.ge, hrecord (.inl ?_) fun hf => ?_⟩
    · rcases hrec with ⟨hf, hc, hp⟩ | ⟨-, hph⟩
      · exact ⟨kfault.trans hf, kcode.trans hc, kphase.trans hp⟩
      · rw [hidle] at hph; cases hph
    · rw [hfaulted hf] at hnofault
      exact absurd hf (by simpa using hnofault)

/-! ### What a tick does not read -/

/-- The same engine with other drivers on the output port, another script and another tick number. -/
def State.elsewhere (s : State) (other : List Bool) (env : List TickInput) (now : Nat) : State :=
  { s with port := { s.port with other := other }, env := env, now := now }

/-- A micro-operation that samples nothing, or samples the same, does the same elsewhere (R12, R17). -/
theorem exec_elsewhere {op : MicroOp} {s : State} {other : List Bool} {env : List TickInput} {now : Nat}
    (h : op ≠ .poll ∧ op ≠ .sampleMiso ∨ ∀ l, (s.elsewhere other env now).input l = s.input l) :
    op.exec (s.elsewhere other env now) = (op.exec s).elsewhere other env now := by
  cases op <;> simp only [MicroOp.exec]
  case setOut l v => cases l <;> rfl
  case poll =>
    rw [pollRound_eq, pollRound_eq, h.resolve_left (by simp)]
    by_cases h1 : s.pollcnt = s.cfg.pollMax
    · rw [if_pos h1]; exact if_pos h1
    · by_cases h2 : s.input .ready = .x ∧ s.cfg.xmode = .strict
      · rw [if_neg h1, if_pos h2]; exact (if_neg h1).trans (if_pos h2)
      · rw [if_neg h1, if_neg h2]; exact (if_neg h1).trans (if_neg h2)
  case sampleMiso =>
    rw [sampleData_eq, sampleData_eq, h.resolve_left (by simp)]
    by_cases h2 : s.input .miso = .x ∧ s.cfg.xmode = .strict
    · rw [if_pos h2]; exact if_pos h2
    · rw [if_neg h2]; exact if_neg h2
  all_goals rfl

/-- So does the run loop of an engine that is in no READ, or that samples the same. -/
theorem run_elsewhere {s : State} {other : List Bool} {env : List TickInput} {now : Nat}
    (h : (s.busy = true → s.dir = .write) ∨ ∀ l, (s.elsewhere other env now).input l = s.input l) :
    (s.elsewhere other env now).run = s.run.elsewhere other env now := by
  have key : ∀ (n : Nat) (s : State), ((s.busy = true → s.dir = .write) ∨ ∀ l, (s.elsewhere other env now).input l = s.input l) →
      (s.elsewhere other env now).runFor n = (s.runFor n).elsewhere other env now := by
    intro n
    induction n with
    | zero => exact fun _ _ => rfl
    | succ n ih =>
      intro s h
      simp only [State.runFor]
      rw [show (s.elsewhere other env now).running = s.running from rfl]
      by_cases hr : s.running = true
      swap
      · rw [if_neg hr, if_neg hr]
      rw [if_pos hr, if_pos hr]
      replace h := h.imp_left fun hd => hd ((running_iff s).mp hr).1
      have hm : (s.elsewhere other env now).microStep = s.microStep.elsewhere other env now := by
        simp only [State.microStep, show (s.elsewhere other env now).seq = s.seq from rfl,
          show (s.elsewhere other env now).pos = s.pos from rfl]
        cases hg : s.seq[s.pos]? with
        | none => rfl
        | some o =>
          refine exec_elsewhere (s := { s with phase := o.1 }) (h.imp_left fun hd => ?_)
          rcases op_of_write hd hg with ⟨l, v, e⟩ | e | ⟨n, e⟩ | e <;> simp [e]
      have hc := microStep_sameContext s
      rw [hm]
      refine ih _ (h.imp (fun hd _ => hc.dir.trans hd) fun hin l => ?_)
      rw [hc.input, ← hin]
      simp only [State.input, State.tickInput, State.elsewhere, hc.cfg]
  exact key _ s h

/-- An acceptance elsewhere leaves the same but for its free values (R28). -/
theorem accepted_elsewhere (i : Instr) (q : State) (other : List Bool) (env : List TickInput) (now : Nat) :
    accepted i (q.elsewhere other env now) = { (accepted i q).elsewhere other env now with
      wdata := (accepted i (q.elsewhere other env now)).wdata
      rxacc := (accepted i (q.elsewhere other env now)).rxacc
      pollcnt := (accepted i (q.elsewhere other env now)).pollcnt } := by
  by_cases hS : 0 < q.cfg.tCsSettle
  · rw [accepted_of_settle (q := q.elsewhere other env now) hS, accepted_of_settle hS]
    cases i <;> rfl
  · rw [accepted_of_no_settle (q := q.elsewhere other env now) hS, accepted_of_no_settle hS]
    cases i <;> rfl

/-- At the same tick number the free values are the same too. -/
theorem accepted_elsewhere_same_now (i : Instr) (q : State) (other : List Bool) (env : List TickInput) :
    accepted i (q.elsewhere other env q.now) = (accepted i q).elsewhere other env q.now := by
  by_cases hS : 0 < q.cfg.tCsSettle
  · rw [accepted_of_settle (q := q.elsewhere other env q.now) hS, accepted_of_settle hS]
    cases i <;> rfl
  · rw [accepted_of_no_settle (q := q.elsewhere other env q.now) hS, accepted_of_no_settle hS]
    cases i <;> rfl

/-- Settles O24: the run loop of a WRITE and the acceptance do the same elsewhere, the latter but for its free values. -/
theorem writeNeverReadsInput : Obligations.WriteNeverReadsInput := by
  intro i s env now h hd
  have hmid : ∀ now', ({ s with env := env, now := now' } : State).MidInv := fun now' => (h.with_script env now').mid
  have hother : s.startTick.run.port.other = s.port.other := (run_sameContext s.startTick).other
  have hnow : s.startTick.run.now = s.now := (run_sameContext s.startTick).now
  have hrun : ∀ now', ({ s with env := env, now := now' } : State).startTick.run =
      s.startTick.run.elsewhere s.port.other env now' := fun now' => run_elsewhere (s := s.startTick) (.inl hd)
  cases hr : s.startTick.run.ready with
  | false =>
    have hexec : ∀ now', exec i { s with env := env, now := now' } =
        .next { s.startTick.run.countdown with env := env, now := now' } := fun now' => by
      rw [exec_unless_ready i (hmid now') (by rw [hrun]; exact hr), hrun, ← hother]
      rfl
    rw [exec_unless_ready i h.mid hr, hexec now]
    refine ⟨?_, fun _ => rfl, _, _, rfl, rfl, rfl⟩
    rw [hexec s.now, ← hnow]
    rfl
  | true =>
    obtain ⟨kother, -, know⟩ := accepted_surroundings i s.startTick.run
    have hexec : ∀ now', exec i { s with env := env, now := now' } =
        .next (accepted i (s.startTick.run.elsewhere s.port.other env now')).countdown := fun now' => by
      rw [exec_of_ready i (hmid now') (by rw [hrun]; exact hr), hrun]
    rw [exec_of_ready i h.mid hr, hexec now]
    refine ⟨?_, nofun, _, _, rfl, rfl, ?_⟩
    · rw [hexec s.now, ← hnow, accepted_elsewhere_same_now, ← hother, ← kother, ← know]
      rfl
    · conv_lhs => rw [accepted_elsewhere]
      rw [← hother, ← kother]
      rfl

end Sys2Proof.Machine
end

section
/-! The transitions of the phases (R98, R99): where in a sequence the phase changes, and what has executed there. -/

namespace Sys2Proof.Machine
open Sys2Proof

/-! ### Places in the sequences -/

/-- The sequence of the transaction in flight, in terms of the descriptor latch (R46, R80). -/
theorem seq_eq (s : State) :
    s.seq = txCmd s.cfg s.dir s.width s.addr ++ (body s.cfg (latchedInstr s) ++ teardown s.cfg) := by
  rw [State.seq, microSeq_eq]
  cases hd : s.dir <;> simp [latchedInstr, hd, Instr.dir, Instr.width, Instr.address]

theorem executed_of_prefix {s : State} {l r : MicroSeq} (h : s.seq = l ++ r) (hl : l.length = s.pos) : s.executed = l := by
  rw [State.executed, h, ← hl, List.take_left']
  rfl

theorem microSeq_length (cfg : Config) (i : Instr) :
    (microSeq cfg i).length = 163 + (body cfg i).length + (2 * cfg.extraEdges + 3) := by
  rw [microSeq_eq, List.length_append, List.length_append, txCmd_length, teardown_length, Nat.add_assoc]

/-- Where the phase changes from one micro-operation to the next (R98). -/
theorem phase_boundary {cfg : Config} {i : Instr} {n : Nat} {p q : Phase} (h0 : 0 < n)
    (hq : ((microSeq cfg i)[n - 1]?).map Prod.fst = some q) (hp : ((microSeq cfg i)[n]?).map Prod.fst = some p) (hne : p ≠ q) :
    (q = .preamble ∧ p = .width ∧ n = 8) ∨ (q = .width ∧ p = .padding ∧ n = 18) ∨ (q = .padding ∧ p = .address ∧ n = 133) ∨
    (q = .address ∧ p = .data ∧ i.dir = .write ∧ n = 163) ∨ (q = .address ∧ p = .awaitReady ∧ i.dir = .read ∧ n = 163) ∨
    (q = .awaitReady ∧ p = .response ∧ i.dir = .read ∧ n = 167) ∨ (q = .data ∧ p = .teardown ∧ i.dir = .write ∧ n = 323) ∨
    (q = .response ∧ p = .teardown ∧ i.dir = .read ∧ n = 359) := by
  have hp := phase_at hp
  rcases phase_at hq with ⟨rfl, hq⟩ | ⟨rfl, hq⟩ | ⟨rfl, hq⟩ | ⟨rfl, hq⟩ | ⟨rfl, hd, hq⟩ | ⟨rfl, hd, hq⟩ | ⟨rfl, hd, hq⟩ |
    ⟨rfl, hd, hq⟩ | ⟨rfl, hd, hq⟩ <;> grind

/-- A READ from its polls to its first response edge (R84, R86, R87). -/
theorem readSeq_from_polls (cfg : Config) (a : BitVec 6) (w : BitVec 2) : ∃ r, (microSeq cfg (.read a w)).drop 163 =
    (.awaitReady, .pollInit) :: (.awaitReady, .poll) :: (.awaitReady, .pollWait) ::
      (.awaitReady, .wait cfg.tReadySettle) :: (.response, .sckInvert) :: r := by
  rw [readSeq_poll, afterPoll, recvWord, List.replicate_succ, List.flatten_cons, recvBit]
  cases cfg.rxSample <;> exact ⟨_, rfl⟩

theorem readSeq_getElem? {cfg : Config} {a : BitVec 6} {w : BitVec 2} (k : Nat) :
    (microSeq cfg (.read a w))[163 + k]? = ((microSeq cfg (.read a w)).drop 163)[k]? := by
  rw [List.getElem?_drop]

/-- The samples of data-in stand behind the first response edge, in `Response` (R87, R98). -/
theorem sampleMiso_pos {cfg : Config} {i : Instr} {n : Nat} {p : Phase} (h : (microSeq cfg i)[n]? = some (p, .sampleMiso)) :
    p = .response ∧ i.dir = .read ∧ 168 ≤ n := by
  obtain ⟨hdir, hn, -, hp⟩ := sample_pos h (.inr rfl)
  cases i with
  | write a d w => cases hdir
  | read a w =>
    obtain ⟨k, rfl⟩ := Nat.exists_eq_add_of_le hn
    obtain ⟨r, hr⟩ := readSeq_from_polls cfg a w
    have hk : 5 ≤ k := by
      by_contra hlt
      rw [readSeq_getElem?, hr] at h
      interval_cases k <;> simp at h
    have hphase := phase_at (congrArg (Option.map Prod.fst) h)
    refine ⟨hp.resolve_left ?_, rfl, by omega⟩
    rintro rfl
    simp only [reduceCtorEq, false_and, false_or, or_false] at hphase
    omega

/-- What stands behind the body of a sequence is `Teardown` (R98). -/
theorem teardown_of_pos {cfg : Config} {i : Instr} {n : Nat} {p : Phase} (h : ((microSeq cfg i)[n]?).map Prod.fst = some p)
    (hn : 163 + (body cfg i).length ≤ n) : p = .teardown := by
  obtain ⟨⟨q, op⟩, hg, rfl⟩ := Option.map_eq_some_iff.mp h
  rw [microSeq_eq, List.getElem?_append_right (by rw [txCmd_length]; omega), txCmd_length,
    List.getElem?_append_right (by omega)] at hg
  exact (mem_teardown (List.mem_of_getElem? hg)).1

/-- `Complete` stands behind a micro-operation of `Teardown` (R98). -/
theorem complete_pos {cfg : Config} {i : Instr} {n : Nat} {p q : Phase} (h : (microSeq cfg i)[n]? = some (p, .complete))
    (hq : ((microSeq cfg i)[n - 1]?).map Prod.fst = some q) : p = .teardown ∧ q = .teardown := by
  have hlen := (complete_iff_last h).mp rfl
  rw [microSeq_length] at hlen
  exact ⟨teardown_of_pos (congrArg (Option.map Prod.fst) h) (by omega), teardown_of_pos hq (by omega)⟩

/-! ### What a micro-operation does to the phase and the cursor -/

/-- The two micro-operations that raise, and when (R110, R111). -/
theorem exec_raises {op : MicroOp} {s : State} (h0 : s.phase ≠ .fault) (h : (op.exec s).phase = .fault) :
    op = .poll ∧ (s.pollcnt = s.cfg.pollMax ∧ (op.exec s).faultCode = 1 ∨
      s.pollcnt ≠ s.cfg.pollMax ∧ s.input .ready = .x ∧ s.cfg.xmode = .strict ∧ (op.exec s).faultCode = 2) ∨
    op = .sampleMiso ∧ s.input .miso = .x ∧ s.cfg.xmode = .strict ∧ (op.exec s).faultCode = 2 := by
  cases op with
  | poll =>
    simp only [MicroOp.exec, pollRound_eq] at h ⊢
    by_cases h1 : s.pollcnt = s.cfg.pollMax
    · rw [if_pos h1]; exact .inl ⟨trivial, .inl ⟨h1, rfl⟩⟩
    · by_cases h2 : s.input .ready = .x ∧ s.cfg.xmode = .strict
      · rw [if_neg h1, if_pos h2]; exact .inl ⟨trivial, .inr ⟨h1, h2.1, h2.2, rfl⟩⟩
      · rw [if_neg h1, if_neg h2] at h; exact absurd h h0
  | sampleMiso =>
    simp only [MicroOp.exec, sampleData_eq] at h ⊢
    by_cases h2 : s.input .miso = .x ∧ s.cfg.xmode = .strict
    · rw [if_pos h2]; exact .inr ⟨trivial, h2.1, h2.2, rfl⟩
    · rw [if_neg h2] at h; exact absurd h h0
  | complete => cases h
  | _ => exact absurd h h0

theorem norm_eq_true {v : Tri} (h : norm v = true) : v = .one := by
  cases v with
  | one => rfl
  | _ => cases h

/-- A poll that neither times out nor raises, written out (R84). -/
theorem exec_poll_of_defined {s : State} (hlt : s.pollcnt < s.cfg.pollMax) (hx : ¬(s.input .ready = .x ∧ s.cfg.xmode = .strict)) :
    MicroOp.poll.exec s = { s with
      xnormCount := s.xnormCount + xCount (s.input .ready), pollcnt := s.pollcnt + 1
      pos := s.pos + if norm (s.input .ready) then 2 else 1 } := by
  rw [MicroOp.exec, pollRound_eq, if_neg (Nat.ne_of_lt hlt), if_neg hx]

/-- The micro-operation that leads past the poll loop is a poll that reads 1 (R84). -/
theorem exec_past_polls {cfg : Config} {a : BitVec 6} {w : BitVec 2} {p : Phase} {op : MicroOp} {s : State}
    (hg : (microSeq cfg (.read a w))[s.pos]? = some (p, op)) (hbound : s.pollcnt ≤ s.cfg.pollMax)
    (h : (op.exec s).pos = 166) :
    p = .awaitReady ∧ op = .poll ∧ s.pollcnt < s.cfg.pollMax ∧ s.input .ready = .one := by
  obtain ⟨r, hr⟩ := readSeq_from_polls cfg a w
  have hnot : s.pos = 165 → op = .pollWait := by
    intro hpos
    rw [hpos, show 165 = 163 + 2 from rfl, readSeq_getElem?, hr] at hg
    cases hg
    rfl
  cases op with
  | poll =>
    obtain ⟨_, _, -, rfl, hpos⟩ := poll_pos hg (.inr (.inl rfl))
    replace hpos : s.pos = 164 := by simpa using hpos
    have hmax : s.pollcnt ≠ s.cfg.pollMax := by
      intro hmax
      rw [MicroOp.exec, pollRound_eq, if_pos hmax, State.raise_pos, hpos] at h
      omega
    have hx : ¬(s.input .ready = .x ∧ s.cfg.xmode = .strict) := by
      intro hx
      rw [MicroOp.exec, pollRound_eq, if_neg hmax, if_pos hx, State.raise_pos, hpos] at h
      omega
    have hlt := Nat.lt_of_le_of_ne hbound hmax
    rw [exec_poll_of_defined hlt hx] at h
    refine ⟨rfl, rfl, hlt, norm_eq_true ?_⟩
    by_contra hn
    simp [hpos, hn] at h
  | pollWait =>
    obtain ⟨_, _, -, -, hpos⟩ := poll_pos hg (.inr (.inr rfl))
    replace hpos : s.pos = 165 := by simpa using hpos
    simp [MicroOp.exec, hpos] at h
  | sampleMiso =>
    obtain ⟨-, -, hpos⟩ := sampleMiso_pos hg
    rw [MicroOp.exec, sampleData_eq] at h
    split at h
    · rw [State.raise_pos] at h; omega
    · replace h : s.pos + 1 = 166 := h
      omega
  | _ => exact absurd (hnot (Nat.succ.inj h)) (by simp)

/-! ### What has executed where the phase changes (R99) -/

section
variable {s : State}

theorem executed_at_width (hn : s.pos = 8) :
    s.executed = tagged .preamble (openFrame s.cfg ++ csAssert s.cfg ++ sendBit s.cfg (cmdBit s.cfg s.dir)) :=
  executed_of_prefix (by rw [seq_eq, txCmd]; simp only [List.append_assoc]; rfl) hn.symm

theorem executed_at_padding (hn : s.pos = 18) :
    s.executed = tagged .preamble (openFrame s.cfg ++ csAssert s.cfg ++ sendBit s.cfg (cmdBit s.cfg s.dir)) ++
      tagged .width (sendField s.cfg s.width) :=
  executed_of_prefix (by rw [seq_eq, txCmd]; simp only [List.append_assoc]; rfl) (by
    simp [tagged, openFrame, csAssert, sendBit, sendField_length, hn])

theorem executed_at_address (hn : s.pos = 133) :
    s.executed = tagged .preamble (openFrame s.cfg ++ csAssert s.cfg ++ sendBit s.cfg (cmdBit s.cfg s.dir)) ++
      tagged .width (sendField s.cfg s.width) ++ tagged .padding (sendField s.cfg (0#23)) :=
  executed_of_prefix (by rw [seq_eq, txCmd]; simp only [List.append_assoc]; rfl) (by
    simp [tagged, openFrame, csAssert, sendBit, sendField_length, hn])

theorem executed_after_command (hn : s.pos = 163) : s.executed = txCmd s.cfg s.dir s.width s.addr :=
  executed_of_prefix (seq_eq s) (by rw [txCmd_length, hn])

theorem seq_of_write (hd : s.dir = .write) :
    s.seq = txCmd s.cfg .write s.width s.addr ++ txData s.cfg s.wdata ++ teardown s.cfg := by
  rw [State.seq, latchedInstr, hd]
  rfl

theorem seq_of_read (hd : s.dir = .read) :
    s.seq = txCmd s.cfg .read s.width s.addr ++ rxResponse s.cfg ++ teardown s.cfg := by
  rw [State.seq, latchedInstr, hd]
  rfl

theorem executed_after_data (hd : s.dir = .write) (hn : s.pos = 323) :
    s.executed = txCmd s.cfg .write s.width s.addr ++ txData s.cfg s.wdata :=
  executed_of_prefix (seq_of_write hd) (by simp [txCmd_length, txData, tagged, sendField_length, hn])

theorem executed_after_response (hd : s.dir = .read) (hn : s.pos = 359) :
    s.executed = txCmd s.cfg .read s.width s.addr ++ rxResponse s.cfg :=
  executed_of_prefix (seq_of_read hd) (by
    simp [txCmd_length, rxResponse, tagged, pollReady, readySettle, recvWord_length, hn])

theorem executed_at_response (hd : s.dir = .read) (hn : s.pos = 167) :
    s.executed = txCmd s.cfg .read s.width s.addr ++ tagged .awaitReady (pollReady ++ readySettle s.cfg) :=
  executed_of_prefix (r := tagged .response (recvWord s.cfg) ++ teardown s.cfg)
    (by rw [seq_of_read hd, rxResponse]; simp only [List.append_assoc])
    (by simp [txCmd_length, tagged, pollReady, readySettle, hn])

end

/-- The poll stands behind the start of the polling, in `AwaitReady` (R84, R98). -/
theorem poll_after {cfg : Config} {i : Instr} {n : Nat} {p q : Phase} (h : (microSeq cfg i)[n]? = some (p, .poll))
    (hq : ((microSeq cfg i)[n - 1]?).map Prod.fst = some q) : p = .awaitReady ∧ q = .awaitReady := by
  obtain ⟨a, w, rfl, rfl, hn⟩ := poll_pos h (.inr (.inl rfl))
  obtain rfl : n = 164 := by simpa using hn
  obtain ⟨r, hr⟩ := readSeq_from_polls cfg a w
  rw [show 164 - 1 = 163 + 0 from rfl, readSeq_getElem?, hr] at hq
  exact ⟨rfl, (Option.some.inj hq).symm⟩

/-- A sample of data-in stands behind a micro-operation of `Response` (R87, R98). -/
theorem sampleMiso_after {cfg : Config} {i : Instr} {n : Nat} {p q : Phase} (h : (microSeq cfg i)[n]? = some (p, .sampleMiso))
    (hq : ((microSeq cfg i)[n - 1]?).map Prod.fst = some q) : p = .response ∧ q = .response := by
  obtain ⟨rfl, hd, hn⟩ := sampleMiso_pos h
  by_contra hne
  have hb := phase_boundary (by omega) hq (congrArg (Option.map Prod.fst) h) fun he => hne ⟨rfl, he.symm⟩
  simp only [reduceCtorEq, false_and, and_false, false_or, or_false] at hb
  omega

/-! ### The statement -/

/-- A micro-operation that leaves its phase makes a transition of the table (R99). -/
theorem transition_of_op {s : State} {p : Phase} {op : MicroOp} (h : s.Inv) (hr : s.running = true)
    (hg : s.seq[s.pos]? = some (p, op)) (hm : s.microStep = op.exec { s with phase := p }) :
    s.microStep.phase = s.phase ∨ s.Transition s.microStep := by
  have hbusy := ((running_iff s).mp hr).1
  obtain ⟨hpos, -, hprev⟩ := h.cursor hbusy
  have hcur : (s.seq[s.pos]?).map Prod.fst = some p := congrArg (Option.map Prod.fst) hg
  have hp : p ≠ .fault := by
    have := phase_busy_of_mem (List.mem_of_getElem? hg)
    rintro rfl
    cases this
  by_cases hc : op = .complete
  · subst hc
    obtain ⟨rfl, hq⟩ := complete_pos hg hprev
    have ht : s.microStep.phase = .idle := by rw [hm]; rfl
    right
    unfold State.Transition
    rw [hq, ht]
    exact ⟨hg, by rw [hm]; rfl⟩
  rcases (exec_of_ne_complete { s with phase := p } hc).2 with e | e <;> rw [← hm] at e
  · by_cases hsame : p = s.phase
    · exact .inl (e.trans hsame)
    right
    have hcase := phase_boundary hpos hprev hcur hsame
    rw [latched_dir] at hcase
    unfold State.Transition
    rw [e]
    rcases hcase with ⟨hq, rfl, hn⟩ | ⟨hq, rfl, hn⟩ | ⟨hq, rfl, hn⟩ | ⟨hq, rfl, hd, hn⟩ | ⟨hq, rfl, hd, hn⟩ |
      ⟨hq, rfl, hd, hn⟩ | ⟨hq, rfl, hd, hn⟩ | ⟨hq, rfl, hd, hn⟩ <;> rw [hq]
    · exact executed_at_width hn
    · exact executed_at_padding hn
    · exact executed_at_address hn
    · exact ⟨hd, hd ▸ executed_after_command hn⟩
    · exact ⟨hd, hd ▸ executed_after_command hn⟩
    · exact executed_at_response hd hn
    · exact executed_after_data hd hn
    · exact executed_after_response hd hn
  · right
    unfold State.Transition
    rw [e]
    rcases exec_raises (s := { s with phase := p }) hp (hm ▸ e) with ⟨rfl, hcase⟩ | ⟨rfl, hx, hs, hcode⟩
    · obtain ⟨rfl, hq⟩ := poll_after hg hprev
      rw [hq]
      refine ⟨hg, hcase.imp ?_ ?_⟩
      · rintro ⟨hmax, hcode⟩
        exact ⟨hmax, hm ▸ hcode⟩
      · rintro ⟨hmax, hx, hs, hcode⟩
        exact ⟨Nat.lt_of_le_of_ne h.pollBound hmax, hx, hs, hm ▸ hcode⟩
    · obtain ⟨rfl, hq⟩ := sampleMiso_after hg hprev
      rw [hq]
      exact ⟨hg, hx, hs, hm ▸ hcode⟩

/-- Settles O16: the transition by the micro-operation at the cursor, and the poll that reads 1 or another value. -/
theorem phaseTransitions : Obligations.PhaseTransitions := by
  intro s h hr
  obtain ⟨hbusy, hwait⟩ := (running_iff s).mp hr
  obtain ⟨-, hlt, -⟩ := h.cursor hbusy
  obtain ⟨⟨p, op⟩, hg⟩ : ∃ o, s.seq[s.pos]? = some o := ⟨_, List.getElem?_eq_getElem hlt⟩
  have hm : s.microStep = op.exec { s with phase := p } := by simp [State.microStep, hg]
  refine ⟨transition_of_op h hr hg hm, fun hex => ?_, fun hpoll hmax hne hx => ?_⟩
  · rw [State.executed, (microStep_sameContext s).seq] at hex
    have hlen := congrArg List.length hex
    have hinit : s.seq[163]? = some (.awaitReady, .pollInit) := by
      have hget := congrArg (fun l => l[163]?) hex
      rw [List.getElem?_append_right (by rw [txCmd_length]), txCmd_length] at hget
      rw [List.getElem?_take] at hget
      split at hget
      · exact hget
      · cases hget
    obtain ⟨a, w, hi, -⟩ := poll_pos (i := latchedInstr s) hinit (.inl rfl)
    have hs : s.seq = microSeq s.cfg (.read a w) := by rw [← hi]; rfl
    have hpos : s.microStep.pos = 166 := by
      rw [hs, List.length_take, microSeq_length, body_length] at hlen
      simp [txCmd_length, tagged, pollReady, Instr.dir] at hlen
      omega
    obtain ⟨rfl, rfl, hlt, hone⟩ := exec_past_polls (s := { s with phase := p }) (hs ▸ hg) h.pollBound (hm ▸ hpos)
    exact ⟨hg, hlt, hone⟩
  · cases hg.symm.trans hpoll
    obtain ⟨a, w, hi, -, hn⟩ := poll_pos (i := latchedInstr s) hpoll (.inr (.inl rfl))
    replace hn : s.pos = 164 := by simpa using hn
    have hnorm : norm (s.input .ready) = false := by
      by_contra hone
      exact hne (norm_eq_true (by simpa using hone))
    have hwaits : s.seq[165]? = some (.awaitReady, .pollWait) := by
      obtain ⟨r, hr⟩ := readSeq_from_polls s.cfg a w
      rw [State.seq, hi, show 165 = 163 + 2 from rfl, readSeq_getElem?, hr]
      rfl
    have ht : s.microStep = { s with
        phase := .awaitReady, xnormCount := s.xnormCount + xCount (s.input .ready), pollcnt := s.pollcnt + 1, pos := 165 } := by
      rw [hm, exec_poll_of_defined (s := { s with phase := .awaitReady }) hmax hx]
      simp only [input_phase, hnorm]
      simp [hn]
    have hagain : s.microStep.microStep = MicroOp.pollWait.exec s.microStep := by
      have hseq : s.microStep.seq[s.microStep.pos]? = some (.awaitReady, .pollWait) := by rw [ht]; exact hwaits
      have hphase : s.microStep.phase = .awaitReady := by rw [ht]
      conv_lhs => rw [State.microStep, hseq]
      rw [← hphase]
    refine ⟨by rw [ht], (running_iff _).mpr ?_, ?_, ?_, ?_⟩
    · rw [ht]; exact ⟨rfl, hwait⟩
    · rw [hagain, ht]; rfl
    · rw [hagain]; rfl
    · rw [hagain, ht, hn]; rfl

end Sys2Proof.Machine
end

section
/-! The host's duty (R101, R112, R122, R128): when a request is taken, when a host program runs and when it is refused, and what becomes of
a WRITE in a program that runs. -/

namespace Sys2Proof.Machine
open Sys2Proof

/-! ### The step at the point of acceptance -/

@[simp] theorem endTick_done (m : State) : m.endTick.done = m.done := rfl
@[simp] theorem endTick_fault (m : State) : m.endTick.fault = m.fault := rfl
@[simp] theorem endTick_busy (m : State) : m.endTick.busy = m.busy := rfl
@[simp] theorem endTick_phase (m : State) : m.endTick.phase = m.phase := rfl
@[simp] theorem endTick_latched (m : State) : latchedInstr m.endTick = latchedInstr m := rfl

theorem atAccept_stops {s : State} (h : s.Inv) : s.atAccept.running = false := (environment_keeps_midInv h).startTick.run_stops

/-- A step with a request that finds the engine ready (R94, R100). -/
theorem step_of_taken {s : State} {i : Instr} (h : s.Inv) (hp : s.presented = some i) (hr : s.atAccept.ready = true) :
    step s = .next (accepted i s.atAccept).endTick := by
  rw [stepRunsPresented.1 s i hp, exec_of_ready i (environment_keeps_midInv h) hr]
  rfl

/-- A step without a request, or with one that does not find the engine ready (R94, R101). -/
theorem step_of_not_taken {s : State} (h : s.Inv) (hn : s.presented = none ∨ s.atAccept.ready = false) :
    step s = .next s.atAccept.endTick := by
  have hmid := environment_keeps_midInv h
  rw [step_eq_engineTick]
  cases hr : s.atAccept.ready with
  | false => rw [engineTick_unless_ready _ hmid hr]; rfl
  | true =>
    have hstop := atAccept_stops h
    have hidle : s.atAccept.run = s.atAccept := run_of_not_running hstop
    rw [hn.resolve_right (by simp [hr]), acceptPresented]
    rw [engineTick_of_ready hmid.admissible hr id (by rw [id]; exact hidle ▸ hstop)]
    exact congrArg (fun m : State => Host.Outcome.next m.endTick) hidle

/-- Acceptance and what follows it leave the event `done` and the fault of the point of acceptance (R94, R100). -/
theorem step_done_fault {s t : State} (h : s.Inv) (ht : step s = .next t) :
    t.done = s.atAccept.done ∧ t.fault = s.atAccept.fault := by
  by_cases hn : s.presented = none ∨ s.atAccept.ready = false
  · cases (step_of_not_taken h hn).symm.trans ht
    exact ⟨endTick_done _, endTick_fault _⟩
  · obtain ⟨hp, hr⟩ := not_or.mp hn
    obtain ⟨i, hi⟩ := Option.ne_none_iff_exists'.mp hp
    cases (step_of_taken h hi (by simpa using hr)).symm.trans ht
    obtain ⟨-, hdone, -, -, hfault, -⟩ := accepted_keeps i s.atAccept
    exact ⟨(endTick_done _).trans hdone, (endTick_fault _).trans hfault⟩

/-- A micro-operation other than `Complete` leaves the event `done` alone (R97). -/
theorem exec_done {op : MicroOp} (s : State) (h : op ≠ .complete) : (op.exec s).done = s.done := by
  have := exec_with_done (b := s.done) s fun hc => absurd hc h
  rw [show ({ s with done := s.done } : State) = s from rfl] at this
  rw [this]

/-- The run loop gives `done` only by coming to `Idle` (R97). -/
theorem run_idle_of_done {s : State} (h0 : s.done = false) (h : s.run.done = true) : s.run.phase = .idle := by
  refine runFor_keeps (P := fun t => t.done = true → t.phase = .idle) ?_ _ s (by simp [h0]) h
  intro t hr ht
  have hbusy := (busy_iff t).mp ((running_iff t).mp hr).1
  rcases microStep_cases t with e | ⟨p, op, -, e⟩ <;> rw [e]
  · exact ht
  by_cases hc : op = .complete
  · subst hc; exact fun _ => rfl
  · rw [exec_done _ hc]
    exact fun hd => absurd (ht hd) hbusy.1

/-- The engine at the point of acceptance is as ready as without the other drivers of the output port (R17). -/
theorem atAccept_ready_eq {s : State} (hr : s.tickInput.reset = false) : s.atAccept.ready = s.startTick.run.ready := by
  have he : s.environment.startTick = s.startTick.elsewhere s.driven s.env s.now := by
    rw [environment_of_no_reset hr]; rfl
  have hrun : (s.startTick.elsewhere s.driven s.env s.now).run = s.startTick.run.elsewhere s.driven s.env s.now :=
    run_elsewhere (.inr fun _ => rfl)
  rw [State.atAccept, he, hrun]
  rfl

/-- Settles O45: the step with the request is that of an acceptance, or that of the tick without it; and the run loop that gives `done`
leaves the engine ready. -/
theorem requestTakenIffReady : Obligations.RequestTakenIffReady := by
  refine ⟨fun s i h hp => ⟨fun hr => ?_, fun hr => ?_⟩, fun s h hb hreset hdone => ?_⟩
  · obtain ⟨hbusy, hphase, hlatch⟩ := accepted_begins i s.atAccept
    obtain ⟨-, hdone, -⟩ := accepted_keeps i s.atAccept
    exact ⟨_, step_of_taken h hp hr, (endTick_busy _).trans hbusy, (endTick_phase _).trans hphase,
      (endTick_latched _).trans hlatch, (endTick_done _).trans hdone⟩
  · have hI : s.withoutRequest.Inv := h.with_script s.withoutRequest.env s.now
    rw [step_of_not_taken h (.inr hr), step_of_not_taken hI (.inl rfl), withoutRequest_atAccept]
    have henv : s.atAccept.env = s.env := by
      rw [State.atAccept, (run_sameContext _).env]
      simp only [State.environment]
      split <;> rfl
    simp [State.endTick, State.countdown, State.nextTick, henv, State.withoutRequest]
  · have hidle : s.startTick.run.phase = .idle := run_idle_of_done rfl hdone
    have hfault : s.startTick.run.fault = false := by
      simpa [hidle] using h.mid.startTick.run.faultPhaseIff
    rw [hostDisciplined_iff, atAccept_ready_eq hreset]
    exact ⟨by simp [hreset], fun _ => (ready_iff _).mpr ⟨hidle, hfault⟩⟩

/-! ### Runs of ticks -/

theorem ticks_succ {s t : State} (h : step s = .next t) (n : Nat) : ticks (n + 1) s = ticks n t := by
  simp only [ticks, h]

/-- The last of a run of ticks is a step from where the ticks before it lead. -/
theorem ticks_last {s u : State} {n : Nat} (h : ticks n s = .next u) : ticks (n + 1) s = step u := by
  induction n generalizing s with
  | zero =>
    cases h
    simp only [ticks]
    cases step u <;> rfl
  | succ n ih =>
    simp only [ticks] at h
    cases hs : step s with
    | next t => rw [hs] at h; rw [ticks_succ hs, ih h]
    | fault _ => rw [hs] at h; cases h
    | refused _ => rw [hs] at h; cases h

/-- Every run of ticks from a state of the invariant leads to one. -/
theorem ticks_keep_inv {s : State} (h : s.Inv) (n : Nat) : ∃ t, ticks n s = .next t ∧ t.Inv := by
  induction n generalizing s with
  | zero => exact ⟨s, rfl, h⟩
  | succ n ih =>
    obtain ⟨u, hu, hI⟩ := step_keeps_inv h
    rw [ticks_succ hu]
    exact ih hI

theorem ticks_context {s t : State} {n : Nat} (h : ticks n s = .next t) :
    t.cfg = s.cfg ∧ t.env = s.env.drop n ∧ t.now = s.now + n := by
  induction n generalizing s with
  | zero => cases h; exact ⟨rfl, rfl, rfl⟩
  | succ n ih =>
    simp only [ticks] at h
    cases hs : step s with
    | next u =>
      rw [hs] at h
      obtain ⟨hcfg, henv, hnow⟩ := ih h
      obtain ⟨kcfg, kenv, know⟩ := step_context hs
      exact ⟨hcfg.trans kcfg, by rw [henv, kenv, List.drop_tail], by omega⟩
    | fault _ => rw [hs] at h; cases h
    | refused _ => rw [hs] at h; cases h

/-- The inputs of the tick that a run of ticks comes to. -/
theorem ticks_tickInput {s t : State} {n : Nat} (h : ticks n s = .next t) : t.tickInput = s.inputsAhead n := by
  rw [State.tickInput, (ticks_context h).2.1, State.inputsAhead, List.headD_eq_head?_getD, List.head?_drop]

/-! ### Host programs -/

/-- At a tick with a reset event the engine is ready at the point of acceptance (R127; log entry 8). -/
theorem atAccept_ready_of_reset {s : State} (h : s.tickInput.reset = true) : s.atAccept.ready = true := by
  rw [State.atAccept, environment_of_reset h, startTick_run_of_ready rfl]
  rfl

/-- The two breaches, which exclude each other. -/
theorem hostBreach_eq_some {s : State} {b : HostBreach} : s.hostBreach = some b ↔
    b = .resetWhileBusy ∧ s.tickInput.reset = true ∧ s.busy = true ∨
      b = .requestWhileNotReady ∧ s.presented.isSome = true ∧ s.atAccept.ready = false := by
  unfold State.hostBreach
  by_cases h1 : s.tickInput.reset = true ∧ s.busy = true
  · have hready := atAccept_ready_of_reset h1.1
    rw [if_pos h1, Option.some.injEq, eq_comm]
    exact ⟨fun hb => .inl ⟨hb, h1⟩, fun h => h.elim And.left fun h => absurd h.2.2 (by simp [hready])⟩
  rw [if_neg h1]
  by_cases h2 : s.presented.isSome = true ∧ s.atAccept.ready = false
  · rw [if_pos h2, Option.some.injEq, eq_comm]
    exact ⟨fun hb => .inr ⟨hb, h2⟩, fun h => h.elim (fun h => absurd h.2 h1) And.left⟩
  · rw [if_neg h2]
    exact ⟨nofun, fun h => h.elim (fun h => absurd h.2 h1) fun h => absurd h.2 h2⟩

theorem exists_hostBreach_of_not_disciplined {s : State} (h : ¬s.HostDisciplined) : ∃ b, s.hostBreach = some b :=
  Option.ne_none_iff_exists'.mp h

/-- The host keeps its duty at each of the next `n` ticks. -/
def State.Disciplined (s : State) (n : Nat) : Prop := ∀ k u, k < n → ticks k s = .next u → u.HostDisciplined

theorem disciplined_succ {s t : State} (ht : step s = .next t) (n : Nat) :
    s.Disciplined (n + 1) ↔ s.HostDisciplined ∧ t.Disciplined n := by
  refine ⟨fun h => ⟨h 0 s n.succ_pos rfl, fun k u hk hu => h (k + 1) u (Nat.succ_lt_succ hk) ((ticks_succ ht k).trans hu)⟩, ?_⟩
  rintro ⟨h0, h⟩ (_ | k) u hk hu
  · cases hu; exact h0
  · exact h k u (Nat.lt_of_succ_lt_succ hk) ((ticks_succ ht k).symm.trans hu)

/-- A program runs exactly if the host keeps its duty at each of its ticks, and is then the run of the machine (R101). -/
theorem programRun_ran_iff {s : State} (h : s.Inv) (n : Nat) (t : State) :
    programRun n s = .ran t ↔ ticks n s = .next t ∧ s.Disciplined n := by
  induction n generalizing s with
  | zero => simp [programRun, ticks, State.Disciplined]
  | succ n ih =>
    obtain ⟨v, hv, hI⟩ := step_keeps_inv h
    rw [ticks_succ hv, disciplined_succ hv]
    by_cases hd : s.HostDisciplined
    · rw [programRun_next n hd hv, ih hI]
      exact and_congr_right fun _ => (and_iff_right hd).symm
    · obtain ⟨b, hb⟩ := exists_hostBreach_of_not_disciplined hd
      simp [programRun_refused n hb, hd]

/-- A program is refused exactly at the first tick at which the host breaks its duty (R101). -/
theorem programRun_refused_iff {s : State} (h : s.Inv) (n : Nat) (b : HostBreach) (t : State) :
    programRun n s = .refused b t ↔ ∃ k, k < n ∧ ticks k s = .next t ∧ s.Disciplined k ∧ t.hostBreach = some b := by
  induction n generalizing s with
  | zero => simp [programRun]
  | succ n ih =>
    obtain ⟨v, hv, hI⟩ := step_keeps_inv h
    by_cases hd : s.HostDisciplined
    · rw [programRun_next n hd hv, ih hI]
      constructor
      · rintro ⟨k, hk, hu, hD, hb⟩
        exact ⟨k + 1, Nat.succ_lt_succ hk, (ticks_succ hv k).trans hu, (disciplined_succ hv k).mpr ⟨hd, hD⟩, hb⟩
      · rintro ⟨_ | k, hk, hu, hD, hb⟩
        · cases hu; exact absurd (hd.symm.trans hb) nofun
        · exact ⟨k, Nat.lt_of_succ_lt_succ hk, (ticks_succ hv k).symm.trans hu, ((disciplined_succ hv k).mp hD).2, hb⟩
    · obtain ⟨c, hc⟩ := exists_hostBreach_of_not_disciplined hd
      rw [programRun_refused n hc]
      constructor
      · rintro ⟨⟩
        exact ⟨0, n.succ_pos, rfl, fun k u hk => absurd hk (Nat.not_lt_zero k), hc⟩
      · rintro ⟨_ | k, hk, hu, hD, hb⟩
        · cases hu
          rw [Option.some.inj (hc.symm.trans hb)]
        · exact absurd ((disciplined_succ hv k).mp hD).1 hd

/-- A program from a state of the invariant runs or is refused: no tick of it is without a next state. -/
theorem programRun_ne_stopped {s : State} (h : s.Inv) (n : Nat) : programRun n s ≠ .stopped := by
  induction n generalizing s with
  | zero => simp [programRun]
  | succ n ih =>
    obtain ⟨v, hv, hI⟩ := step_keeps_inv h
    by_cases hd : s.HostDisciplined
    · rw [programRun_next n hd hv]; exact ih hI
    · obtain ⟨b, hb⟩ := exists_hostBreach_of_not_disciplined hd
      simp [programRun_refused n hb]

/-- Settles O46: the two equivalences by induction on the ticks of the program, and each request taken as RequestTakenIffReady says. -/
theorem disciplinedProgramRuns : Obligations.DisciplinedProgramRuns := by
  intro n s h kept
  have hkept : ∀ k, s.Disciplined k ↔ ∀ j u, j < k → ticks j s = .next u → kept u := fun k =>
    forall_congr' fun j => forall_congr' fun u => imp_congr_right fun _ => imp_congr_right fun _ =>
      (hostDisciplined_iff u).trans and_comm
  refine ⟨fun t => by rw [programRun_ran_iff h, hkept], fun b t => ?_, programRun_ne_stopped h n, fun t ht k hk => ?_⟩
  · simp only [programRun_refused_iff h, hkept, hostBreach_eq_some]
  · obtain ⟨-, hD⟩ := (programRun_ran_iff h n t).mp ht
    obtain ⟨u, hu, hI⟩ := ticks_keep_inv h k
    obtain ⟨v, hv, -⟩ := step_keeps_inv hI
    refine ⟨u, v, hu, hv, fun i hi => ?_⟩
    have hready := ((hostDisciplined_iff u).mp (hD k u hk hu)).2 (by simp [hi])
    obtain ⟨v', hv', hbusy, hphase, hlatch, -⟩ := (requestTakenIffReady.1 u i hI hi).1 hready
    cases hv'.symm.trans hv
    exact ⟨hready, hbusy, hphase, hlatch⟩

/-! ### A WRITE in a host program -/

/-- The point of acceptance of a tick in a transaction is the end of its run loop in the calculus of ticks. -/
theorem endTick_atAccept {m : State} {n : Nat} (hr : (m.inputsAhead (n + 1)).reset = false) :
    (fin n m).endTick.atAccept = fin (n + 1) m := by
  induction n generalizing m with
  | zero => exact congrArg State.run (enterNext_eq hr)
  | succ n ih =>
    refine ih (m := m.enterNext) ?_
    rw [State.enterNext, elapse_inputsAhead, State.inputsAhead, (run_sameContext m).env, Nat.add_comm 1]
    exact hr

theorem obs_take {T k : Nat} {m : State} {ws : List Triple} (h : obs T m = ws.map inFlight) (hk : k ≤ T) :
    obs k m = (ws.take k).map inFlight := by
  rw [List.map_take, ← h, obs, obs, ← List.map_take, List.take_range, Nat.min_eq_left hk]

/-- In a program that keeps to its duty nothing resets the engine in a transaction, and each tick of it comes to its point of acceptance as
the calculus of ticks says. -/
theorem disciplined_flight {s : State} {i : Instr} {T : Nat} {ws : List Triple} (h : s.Inv) (hrd : s.ready = true)
    (hp : s.presented = some i) (hr : s.tickInput.reset = false) (hwire : obs T (s.opened i) = ws.map inFlight)
    (hkept : ∀ k u, 0 < k → k ≤ T → ticks k s = .next u → u.HostDisciplined) {k : Nat} (hk : k < T) :
    s.NoReset (k + 2) ∧ ∃ u, ticks (k + 1) s = .next u ∧ u.atAccept = fin (k + 1) (s.opened i) := by
  have henv := (opened_facts (i := i) hr hrd).2.1
  have hstart : s.NoReset 1 := fun j hj => by
    obtain rfl : j = 0 := by omega
    rwa [State.inputsAhead, ← List.head?_eq_getElem?, ← List.headD_eq_head?_getD]
  have hnext : ∀ k, k < T → s.NoReset (k + 1) → s.NoReset (k + 2) ∧
      ticks (k + 1) s = .next (fin k (s.opened i)).endTick := by
    intro k hk hno
    obtain ⟨hbusy, hwait, -⟩ := in_flight hwire hk
    have hu := (flight (i := i) ⟨h, hrd, hp, hno⟩ (obs_take hwire hk.le) (not_running_of_wait hwait)
      (.inl (not_ready_of_busy hbusy))).1 k le_rfl
    have hd : _ → (fin k (s.opened i)).busy = false := ((hostDisciplined_iff _).mp (hkept (k + 1) _ k.succ_pos hk hu)).1
    rw [ticks_tickInput hu] at hd
    refine ⟨fun j hj => ?_, hu⟩
    rcases Nat.lt_succ_iff_lt_or_eq.mp hj with hj | rfl
    · exact hno j hj
    · by_contra hreset
      exact absurd hbusy (by simpa using hd (by simpa using hreset))
  have hall : ∀ k, k ≤ T → s.NoReset (k + 1) := by
    intro k
    induction k with
    | zero => exact fun _ => hstart
    | succ k ih => exact fun hk => (hnext k hk (ih (by omega))).1
  obtain ⟨hno, hu⟩ := hnext k hk (hall k hk.le)
  refine ⟨hno, _, hu, endTick_atAccept ?_⟩
  rw [State.inputsAhead, henv]
  exact hno (k + 1) (by omega)

/-- The tick about to run with its reset event, if it has one, over: the engine as the environment's part of the tick leaves it. -/
def State.afterReset (s : State) : State :=
  { s.environment with env := { s.tickInput with reset := false } :: s.env.tail }

theorem environment_context (s : State) : s.environment.cfg = s.cfg ∧ s.environment.env = s.env ∧ s.environment.now = s.now ∧
    s.environment.port.other = s.driven := by
  simp only [State.environment]
  split <;> exact ⟨rfl, rfl, rfl, rfl⟩

theorem afterReset_environment (s : State) : s.afterReset.environment =
    s.environment.elsewhere s.driven ({ s.tickInput with reset := false } :: s.env.tail) s.environment.now := by
  have hdriven : s.afterReset.driven = s.driven := by
    obtain ⟨hcfg, -, hnow, -⟩ := environment_context s
    simp only [State.driven, State.afterReset, State.tickInput, hcfg, hnow]
    rfl
  rw [environment_of_no_reset (s := s.afterReset) rfl, hdriven]
  rfl

/-- A ready engine, or one that a reset event makes ready, begins its transaction as if the reset event were over. -/
theorem step_afterReset {s : State} {i : Instr} (h : s.Inv) (hrd : s.environment.ready = true) (hp : s.presented = some i) :
    s.afterReset.Inv ∧ s.afterReset.ready = true ∧ s.afterReset.presented = some i ∧ step s.afterReset = step s := by
  have hI : s.afterReset.Inv :=
    ((environment_keeps_midInv h).inv (not_running_of_ready hrd)).with_script s.afterReset.env s.environment.now
  have hp' : s.afterReset.presented = some i := hp
  have hrd' : s.afterReset.environment.ready = true := by rw [afterReset_environment]; exact hrd
  have hat : s.atAccept = s.environment.startTick := startTick_run_of_ready hrd
  have hat' : s.afterReset.atAccept = s.afterReset.environment.startTick := startTick_run_of_ready hrd'
  refine ⟨hI, hrd, hp', ?_⟩
  rw [step_of_taken h hp (hat ▸ hrd), step_of_taken hI hp' (hat' ▸ hrd'), hat, hat', afterReset_environment]
  obtain ⟨-, henv, -, hother⟩ := environment_context s
  obtain ⟨kother, kenv, know⟩ := accepted_surroundings i s.environment.startTick
  have he := accepted_elsewhere_same_now i s.environment.startTick s.driven ({ s.tickInput with reset := false } :: s.env.tail)
  refine congrArg Host.Outcome.next ((congrArg State.endTick he).trans ?_)
  rw [← henv, show s.environment.env = _ from kenv.symm, show s.driven = _ from (kother.trans hother).symm, ← know]
  rfl

/-- Settles O47: in a program that keeps to its duty the WRITE meets no reset event (`disciplined_flight`), and comes to `Complete` where
the calculus of ticks says; a request in between would not find the engine ready. -/
theorem disciplinedWriteIsDone : Obligations.DisciplinedWriteIsDone := by
  intro s t a d w h hrd hp hrun
  obtain ⟨hlast, hD⟩ := (programRun_ran_iff h _ t).mp hrun
  have hrd' : s.environment.ready = true := by
    cases hreset : s.tickInput.reset with
    | true => rw [environment_of_reset hreset]; rfl
    | false => rw [environment_of_no_reset hreset]; exact hrd
  obtain ⟨hI, hready, hpres, hstep⟩ := step_afterReset h hrd' hp
  have hticks : ∀ k, 0 < k → ticks k s.afterReset = ticks k s := by
    intro k hk
    obtain ⟨k, rfl⟩ := Nat.exists_eq_succ_of_ne_zero hk.ne'
    simp only [ticks, hstep]
  have hcfg : s.afterReset.cfg = s.cfg := (environment_context s).1
  have hin : ∀ k, 0 < k → s.afterReset.inputsAhead k = s.inputsAhead k := by
    intro k hk
    obtain ⟨k, rfl⟩ := Nat.exists_eq_succ_of_ne_zero hk.ne'
    cases henv : s.env <;> simp [State.inputsAhead, State.afterReset, henv]
  have hkept : ∀ k u, 0 < k → k ≤ s.cfg.writeTicks → ticks k s.afterReset = .next u → u.HostDisciplined :=
    fun k u h0 hk hu => hD k u (Nat.lt_succ_of_le hk) ((hticks k h0).symm.trans hu)
  obtain ⟨pos, o, hleads⟩ := opened_write_leads (s := s.afterReset) (a := a) (d := d) (w := w) rfl hready
  rw [hcfg] at hleads
  obtain ⟨hend, hwire⟩ := hleads.ends_complete
  obtain ⟨-, -, -, -, -, -, hfault, -⟩ := opened_facts (s := s.afterReset) (i := .write a d w) rfl hready
  have hflight : ∀ k, 0 < k → k ≤ s.cfg.writeTicks → (s.inputsAhead k).reset = false ∧
      ∃ u, ticks k s = .next u ∧ u.atAccept = fin k (s.afterReset.opened (.write a d w)) := by
    intro k h0 hk
    obtain ⟨k, rfl⟩ := Nat.exists_eq_succ_of_ne_zero h0.ne'
    obtain ⟨hno, u, hu, hat⟩ := disciplined_flight hI hready hpres rfl hwire hkept hk
    exact ⟨hin _ h0 ▸ hno _ (by omega), u, (hticks _ h0).symm.trans hu, hat⟩
  have hpos := writeTicks_pos h.admissible
  obtain ⟨-, u, hu, hat⟩ := hflight _ hpos le_rfl
  obtain ⟨v, hv, huI⟩ := ticks_keep_inv h s.cfg.writeTicks
  cases hv.symm.trans hu
  obtain ⟨hdone, hnofault⟩ := step_done_fault huI ((ticks_last hu).symm.trans hlast)
  rw [hat, hend] at hdone hnofault
  refine ⟨hdone, hnofault.trans hfault, fun k h0 hk => ?_⟩
  obtain ⟨hno, u, hu, hat⟩ := hflight k h0 hk
  refine ⟨hno, fun hlt => ?_⟩
  have hnot : u.atAccept.ready = false := hat ▸ not_ready_of_busy (in_flight hwire hlt).1
  have hduty := ((hostDisciplined_iff u).mp (hD k u (by omega) hu)).2
  rw [hnot, State.presented, ticks_tickInput hu] at hduty
  simpa using hduty

end Sys2Proof.Machine
end

section
/-! The blocking calls of the host (R93): the engine runs with a peripheral as it does on the script of what the peripheral turns out to
give, so a call ends where the transaction on that script ends. -/

namespace Sys2Proof.Machine
open Sys2Proof

/-! ### The script of a call -/

section
variable {σ : Type} {P : Peripheral σ} {i : Instr} {c : State × σ}

/-- A tick of an engine of the invariant with a peripheral has a next state. -/
theorem coupledTick_of_inv (h : c.1.Inv) (r : Option Request) : ∃ d, coupledTick P c r = some d ∧ d.1.Inv := by
  have hI : (coupledState P c r).Inv := h.with_script _ c.1.now
  obtain ⟨t, ht, hT⟩ := step_keeps_inv hI
  exact ⟨(t, P.tick c.2 c.1.now t.port), by simp [coupledTick, ht], hT⟩

theorem coupledScript_length (h : c.1.Inv) (n : Nat) (r : Option Request) : (coupledScript P n c r).length = n := by
  induction n generalizing c r with
  | zero => rfl
  | succ n ih =>
    obtain ⟨d, hd, hI⟩ := coupledTick_of_inv (P := P) h r
    simp [coupledScript, hd, ih hI]

/-- The engine about to be called, on the inputs that the peripheral turns out to give at its next `n` ticks. -/
def onScript (P : Peripheral σ) (n : Nat) (i : Instr) (c : State × σ) : State :=
  { c.1 with env := coupledScript P n c (some (requestOfInstr i)) }

/-- No reset event and no further request occurs in a call. -/
theorem onScript_inputs (h : c.1.Inv) (n k : Nat) :
    ((onScript P n i c).inputsAhead k).reset = false ∧ (0 < k → ((onScript P n i c).inputsAhead k).req = none) := by
  unfold State.inputsAhead
  cases hk : (onScript P n i c).env[k]? with
  | none => exact ⟨rfl, fun _ => rfl⟩
  | some t =>
    obtain ⟨hreset, hreq, -⟩ := coupledScript_at P k n c _ t h.admissible hk
    exact ⟨hreset, fun h0 => by simpa [h0.ne'] using hreq⟩

/-- What the script gives on an input line is what the peripheral drives there. -/
theorem onScript_inputAhead (h : c.1.Inv) {n k : Nat} (hk : k < n) (l : InLine) :
    ∃ d, coupledTicks P k c (some (requestOfInstr i)) = some d ∧ (onScript P n i c).inputAhead k l = P.drives d.2 l := by
  have hlen := coupledScript_length (P := P) h n (some (requestOfInstr i))
  have hget := List.getElem?_eq_getElem (hlen.symm ▸ hk)
  obtain ⟨-, -, d, hd, hline⟩ := coupledScript_at P k n c _ _ h.admissible hget
  refine ⟨d, hd, ?_⟩
  rw [← hline ((onScript P n i c).now + k) l, State.inputAhead, State.inputsAhead, onScript, hget]
  rfl

theorem onScript_begins (h : c.1.Inv) (hr : c.1.ready = true) (n k : Nat) : (onScript P (n + 1) i c).Begins i k :=
  ⟨h.with_script _ c.1.now, hr, congrArg some (instrOfRequest_requestOfInstr i), fun j _ => (onScript_inputs h _ j).1⟩

end

/-! ### The end of a call -/

/-- For `T` ticks the host sees a busy engine without `done` and without a fault; after the tick that follows it is in `t`. -/
structure State.Awaits (s : State) (T : Nat) (t : State) : Prop where
  before : ∀ n, 0 < n → n ≤ T → ∃ u, ticks n s = .next u ∧ u.busy = true ∧ u.done = false ∧ u.fault = false
  last : ticks (T + 1) s = .next t

section
variable {σ : Type} {P : Peripheral σ} {i : Instr} {c : State × σ} {N T : Nat} {t : State}

/-- In a transaction the call goes on. -/
theorem State.Awaits.goes_on (h : (onScript P N i c).Awaits T t) (hN : T < N) {n : Nat} (h0 : 0 < n) (hn : n ≤ T) :
    ∃ d, coupledTicks P n c (some (requestOfInstr i)) = some d ∧ d.1.busy = true ∧ callEnds i d = none := by
  obtain ⟨v, hv, hbusy, hdone, hfault⟩ := h.before n h0 hn
  obtain ⟨u, m, hd, rfl⟩ := coupled_ticks P n N c _ v (by omega) hv
  exact ⟨_, hd, hbusy, (callEnds_eq_none i _).mpr ⟨hdone, fun _ => hfault⟩⟩

/-- A call that is allowed the ticks of its transaction ends with it. -/
theorem State.Awaits.hostCall_ends (h : (onScript P N i c).Awaits T t) (h0 : 0 < T) (hN : T < N) {n : Nat} (hn : T ≤ n) :
    ∃ u m, coupledTicks P (T + 1) c (some (requestOfInstr i)) = some (u, m) ∧ t = { u with env := t.env } ∧
      u.now = c.1.now + (T + 1) ∧ ∀ r, callEnds i (u, m) = some r → hostCall P n i c = r := by
  obtain ⟨u, m, hd, ht⟩ := coupled_ticks P (T + 1) N c _ t hN h.last
  obtain ⟨j, rfl⟩ := Nat.exists_eq_succ_of_ne_zero h0.ne'
  refine ⟨u, m, hd, by rw [ht], (coupledTicks_context P _ _ _ _ hd).2, fun r hr => ?_⟩
  refine Machine.hostCall_ends (by omega) (fun k hk => ?_) hd hr
  obtain ⟨d, hd, -, hnone⟩ := h.goes_on hN (Nat.succ_pos (k + 1)) (by omega)
  exact ⟨d, hd, hnone⟩

/-- A call that is allowed fewer ticks is still waiting. -/
theorem State.Awaits.hostCall_waits (h : (onScript P N i c).Awaits T t) (hN : T < N) {n : Nat} (hn : n < T) :
    ∃ d, hostCall P n i c = .waiting d ∧ d.1.busy = true := by
  obtain ⟨d, hd, hbusy, -⟩ := h.goes_on hN n.succ_pos hn
  refine ⟨d, Machine.hostCall_waits hd fun k hk => ?_, hbusy⟩
  obtain ⟨e, he, -, hnone⟩ := h.goes_on hN (Nat.succ_pos (k + 1)) (by omega)
  exact ⟨e, he, hnone⟩

end

theorem callEnds_of_done {σ : Type} {i : Instr} {c : State × σ} (h : c.1.done = true) :
    callEnds i c = some (.returned (returnValue i c.1) c) := if_pos h

theorem callEnds_of_fault {σ : Type} {a : BitVec 6} {w : BitVec 2} {c : State × σ} (hd : c.1.done = false)
    (hf : c.1.fault = true) : callEnds (.read a w) c = some (.failed c.1.faultCode c) := by
  simp [callEnds, hd, hf, Instr.dir]

/-! ### Durations (R131, R143) -/

theorem recvOffset_le (c : Config) : recvOffset c ≤ 2 * c.tHalf := by
  unfold recvOffset
  split <;> omega

theorem firstPoll_pos {c : Config} (h : c.Admissible) : 0 < c.firstPoll := by
  have := h.1
  unfold Config.firstPoll
  omega

theorem firstPoll_le_longest {c : Config} (h : c.Admissible) : c.firstPoll + c.pollMax ≤ c.longest := by
  have := h.1
  simp only [Config.longest, Config.writeTicks, Config.firstPoll, Nat.add_mul]
  omega

theorem readTicks_le_longest {c : Config} {k : Nat} (h : k ≤ c.pollMax) : c.readTicks k ≤ c.longest := by
  simp only [Config.readTicks, Config.longest]
  omega

theorem firstPoll_le_sampleOffset (c : Config) (k j : Nat) : c.firstPoll ≤ c.sampleOffset k j := by
  rw [sampleOffset_eq, Config.firstEdge]
  omega

theorem sampleOffset_le_readTicks (c : Config) (k : Nat) {j : Nat} (h : j < 32) : c.sampleOffset k j ≤ c.readTicks k := by
  have hsample : 2 * c.tHalf * j + recvOffset c ≤ 2 * c.tHalf * 32 :=
    calc 2 * c.tHalf * j + recvOffset c ≤ 2 * c.tHalf * j + 2 * c.tHalf := by gcongr; exact recvOffset_le c
      _ = 2 * c.tHalf * (j + 1) := (Nat.mul_succ _ _).symm
      _ ≤ 2 * c.tHalf * 32 := Nat.mul_le_mul_left _ h
  simp only [sampleOffset_eq, Config.firstEdge, Config.readTicks, Config.writeTicks, Config.firstPoll, Nat.add_mul]
  omega

/-! ### The transactions of a call -/

section
variable {s : State} {a : BitVec 6} {d : Word} {w : BitVec 2}

theorem write_awaits (hB : ∀ n, s.Begins (.write a d w) n) (hreq : ∀ k, 0 < k → (s.inputsAhead k).req = none) :
    ∃ t, s.Awaits s.cfg.writeTicks t ∧ t.done = true ∧ t.ready = true ∧
      t.port.triple = (s.cfg.csIdle, restLevel s.cfg s.port.sck, d.getLsbD 0) := by
  obtain ⟨hbefore, t, hlast, hdone, hready, hport, -⟩ :=
    writeRunsToDone s a d w (hB _) (hreq _ (writeTicks_pos (hB 0).1.admissible))
  refine ⟨t, ⟨fun n h0 hn => ?_, hlast⟩, hdone, hready, hport⟩
  obtain ⟨u, hu, hbusy, hnd, hnf, -⟩ := hbefore n h0 hn
  exact ⟨u, hu, hbusy, hnd, hnf⟩

/-- A READ whose poll `k` succeeds, with no undefined sample under Strict (R91). -/
theorem read_awaits_response {k : Nat} (hB : ∀ n, s.Begins (.read a w) n)
    (hreq : ∀ k, 0 < k → (s.inputsAhead k).req = none) (hk : s.PollSucceedsAt k) (hclean : s.SamplesClean k) :
    ∃ t, s.Awaits (s.cfg.readTicks k) t ∧ t.done = true ∧ t.ready = true ∧ t.rdata = decodeResponse (s.dataBits k) ∧
      t.port.triple = (s.cfg.csIdle, restLevel s.cfg s.port.sck, a.getLsbD 0) := by
  obtain ⟨hbefore, t, hlast, hdone, hready, hrdata, -, -, hport, -⟩ :=
    readReturnsResponse s a w k (hB _) hk hclean (hreq _ (readTicks_pos (hB 0).1.admissible k))
  refine ⟨t, ⟨fun n h0 hn => ?_, hlast⟩, hdone, hready, hrdata, hport⟩
  obtain ⟨u, hu, hbusy, hnd, hnf, -⟩ := hbefore n h0 hn
  exact ⟨u, hu, hbusy, hnd, hnf⟩

/-- A READ whose polls all fail times out (R85). -/
theorem read_awaits_timeout (hB : ∀ n, s.Begins (.read a w) n) (h1 : ∀ i, i < s.cfg.pollMax → s.pollAhead i ≠ .one)
    (hx : s.cfg.xmode = .strict → ∀ i, i < s.cfg.pollMax → s.pollAhead i ≠ .x) :
    ∃ t, s.Awaits (s.cfg.firstPoll + s.cfg.pollMax) t ∧ t.done = false ∧ t.fault = true ∧ t.faultCode = 1 ∧
      t.phase = .fault ∧ t.pollcnt = s.cfg.pollMax ∧ t.rdata = s.rdata := by
  have hr := begins_reset (hB 1)
  obtain ⟨-, hrd, -⟩ := hB 0
  obtain ⟨o, o', h⟩ := opened_read_raises (a := a) (w := w) .protocolTimeout hr hrd h1 hx le_rfl (.inl ⟨rfl, rfl⟩)
  obtain ⟨hpollcnt, -, hrdata, -, -, -, hdone⟩ := polled_facts (a := a) (w := w) hr hrd s.cfg.pollMax
    ((List.range s.cfg.pollMax).map fun i => xCount (s.pollAhead i)).sum o o'
  obtain ⟨hbefore, hlast⟩ := h.ticks (hB _) rfl (.inl rfl)
  refine ⟨_, ⟨fun n h0 hn => ?_, hlast⟩, hdone, rfl, rfl, rfl, hpollcnt, hrdata⟩
  obtain ⟨u, hu, hbusy, hnd, hnf, -⟩ := hbefore n h0 hn
  exact ⟨u, hu, hbusy, hnd, hnf⟩

/-- How a READ can end. -/
def State.ReadEnd (s t : State) : Prop :=
  t.done = true ∧ t.ready = true ∨
    t.done = false ∧ t.fault = true ∧ t.phase = .fault ∧ (t.faultCode = 1 ∨ t.faultCode = 2 ∧ s.cfg.xmode = .strict)

/-- A READ whose poll `k` succeeds, with no undefined poll under Strict, ends within `readTicks k`. -/
theorem read_awaits_of_poll {k : Nat} (hB : ∀ n, s.Begins (.read a w) n) (hreq : ∀ k, 0 < k → (s.inputsAhead k).req = none)
    (hk : s.PollSucceedsAt k) (hx : s.cfg.xmode = .strict → ∀ i, i < k → s.pollAhead i ≠ .x) :
    ∃ T t, 0 < T ∧ T ≤ s.cfg.readTicks k ∧ s.Awaits T t ∧ s.ReadEnd t := by
  have hA := (hB 0).1.admissible
  by_cases hdata : s.cfg.xmode = .strict ∧ ∃ j, j < 32 ∧ s.dataAhead k j = .x
  · obtain ⟨hs, hj⟩ := hdata
    obtain ⟨hlt, hundef⟩ := Nat.find_spec hj
    have hfirst : ∀ m, m < Nat.find hj → s.dataAhead k m ≠ .x := fun m hm hmx => Nat.find_min hj hm ⟨by omega, hmx⟩
    generalize Nat.find hj = j at hlt hundef hfirst
    obtain ⟨hbefore, t, hlast, hfault, hcode, -, hphase, -, -, -, hdone, -⟩ :=
      undefinedDataFaultsAtItsTick s a w k j (hB _) hs hk (hx hs) hlt hfirst hundef
    have hpos := (firstPoll_pos hA).trans_le (firstPoll_le_sampleOffset s.cfg k j)
    refine ⟨_, t, hpos, sampleOffset_le_readTicks s.cfg k hlt, ⟨fun n h0 hn => ?_, hlast⟩,
      .inr ⟨hdone, hfault, hphase, .inr ⟨hcode, hs⟩⟩⟩
    obtain ⟨u, hu, hbusy, hnf, hnd⟩ := hbefore n h0 hn
    exact ⟨u, hu, hbusy, hnd, hnf⟩
  · have hclean : s.SamplesClean k := fun hs => ⟨hx hs, fun j hj hjx => hdata ⟨hs, j, hj, hjx⟩⟩
    obtain ⟨t, h, hdone, hready, -⟩ := read_awaits_response hB hreq hk hclean
    exact ⟨_, t, readTicks_pos hA k, le_rfl, h, .inl ⟨hdone, hready⟩⟩

/-- Every READ ends within the longest transaction: its first poll that reads 1, or is undefined under Strict, decides (R131). -/
theorem read_awaits (hB : ∀ n, s.Begins (.read a w) n) (hreq : ∀ k, 0 < k → (s.inputsAhead k).req = none) :
    ∃ T t, 0 < T ∧ T ≤ s.cfg.longest ∧ s.Awaits T t ∧ s.ReadEnd t := by
  have hA := (hB 0).1.admissible
  have hpos := firstPoll_pos hA
  have hlong := firstPoll_le_longest hA
  by_cases hex : ∃ q, q < s.cfg.pollMax ∧ (s.pollAhead q = .one ∨ s.cfg.xmode = .strict ∧ s.pollAhead q = .x)
  · obtain ⟨hlt, hq⟩ := Nat.find_spec hex
    have hfirst : ∀ i, i < Nat.find hex → s.pollAhead i ≠ .one ∧ (s.cfg.xmode = .strict → s.pollAhead i ≠ .x) :=
      fun i hi => not_or.mp (fun h => Nat.find_min hex hi ⟨by omega, h⟩) |>.imp id not_and.mp
    generalize Nat.find hex = q at hlt hq hfirst
    rcases hq with hone | ⟨hs, hundef⟩
    · obtain ⟨T, t, h0, hT, h⟩ := read_awaits_of_poll (k := q + 1) hB hreq ⟨by omega, hlt, hone, fun i hi => (hfirst i hi).1⟩ (by
        intro hs i hi
        rcases Nat.lt_succ_iff_lt_or_eq.mp hi with hi | rfl
        · exact (hfirst i hi).2 hs
        · simp [hone])
      exact ⟨T, t, h0, hT.trans (readTicks_le_longest hlt), h⟩
    · have hzero : ∀ i, i < q → s.pollAhead i = .zero := fun i hi => by
        have := hfirst i hi
        cases hp : s.pollAhead i
        · rfl
        · exact absurd hp this.1
        · exact absurd hp (this.2 hs)
      obtain ⟨hbefore, t, hlast, hfault, hcode, -, hphase, -, -, -, hdone, -⟩ :=
        undefinedPollFaultsAtItsTick s a w q (hB _) hs hlt hzero hundef
      refine ⟨_, t, by omega, by omega, ⟨fun n h0 hn => ?_, hlast⟩, .inr ⟨hdone, hfault, hphase, .inr ⟨hcode, hs⟩⟩⟩
      obtain ⟨u, hu, hbusy, hnf, hnd⟩ := hbefore n h0 hn
      exact ⟨u, hu, hbusy, hnd, hnf⟩
  · simp only [not_exists, not_and, not_or] at hex
    obtain ⟨t, h, hdone, hfault, hcode, hphase, -⟩ := read_awaits_timeout hB (fun i hi => (hex i hi).1)
      fun hs i hi => (hex i hi).2 hs
    exact ⟨_, t, by omega, hlong, h, .inr ⟨hdone, hfault, hphase, .inl hcode⟩⟩

end

/-! ### The statements -/

/-- Settles O48: the polls of the call are what the peripheral drives, so all of them fail (`read_awaits_timeout`). -/
theorem readCallObservesTimeout : Obligations.ReadCallObservesTimeout := by
  intro σ P c a w n hI hr hone hx
  have hB := onScript_begins (P := P) (i := .read a w) hI hr (c.1.cfg.firstPoll + c.1.cfg.pollMax)
  have hpoll : ∀ q, q < c.1.cfg.pollMax →
      ∃ m, (onScript P (c.1.cfg.firstPoll + c.1.cfg.pollMax + 1) (.read a w) c).pollAhead q = P.drives m .ready := fun q hq =>
    (onScript_inputAhead (k := c.1.cfg.firstPoll + q) hI (by omega) .ready).imp' Prod.snd fun _ h => h.2
  have hpos : 0 < c.1.cfg.firstPoll + c.1.cfg.pollMax := Nat.add_pos_left (firstPoll_pos hI.admissible) _
  obtain ⟨t, h, hdone, hfault, hcode, hphase, hpollcnt, hrdata⟩ := read_awaits_timeout hB
    (fun q hq => (hpoll q hq).elim fun m hm => hm ▸ hone m)
    (fun hs q hq => (hpoll q hq).elim fun m hm => hm ▸ hx hs m)
  refine ⟨fun hn => ?_, fun hn => ?_⟩
  · obtain ⟨u, m, -, ht, hnow, hcall⟩ := h.hostCall_ends hpos (Nat.lt_succ_self _) hn
    rw [ht] at hdone hfault hcode hphase hpollcnt hrdata
    have hassoc : c.1.now + (c.1.cfg.firstPoll + c.1.cfg.pollMax + 1) = c.1.now + c.1.cfg.firstPoll + c.1.cfg.pollMax + 1 := by omega
    refine ⟨(u, m), ?_, hnow.trans hassoc, hpollcnt, hrdata, ?_⟩
    · rw [hcall _ (callEnds_of_fault hdone hfault), hcode]
    · simpa [State.ready] using fun _ => hfault
  · exact h.hostCall_waits (Nat.lt_succ_self _) hn

/-- Settles O49: the transaction on the script of the call ends (`write_awaits`, `read_awaits`), and the call with it. -/
theorem everyCallEnds : Obligations.EveryCallEnds := by
  intro σ P c n hI hr hn
  refine ⟨fun a d w => ?_, fun a w => ?_⟩
  · obtain ⟨t, h, hdone, hready, -⟩ := write_awaits (onScript_begins (P := P) (i := .write a d w) hI hr c.1.cfg.longest)
      fun k => (onScript_inputs hI _ k).2
    have hle : c.1.cfg.writeTicks ≤ c.1.cfg.longest := by unfold Config.longest; omega
    obtain ⟨u, m, -, ht, hnow, hcall⟩ := h.hostCall_ends (writeTicks_pos hI.admissible) (Nat.lt_succ_of_le hle) (hle.trans hn)
    rw [ht] at hdone hready
    exact ⟨(u, m), hcall _ (callEnds_of_done hdone), hready, hnow⟩
  · obtain ⟨T, t, h0, hT, h, hend⟩ := read_awaits (onScript_begins (P := P) (i := .read a w) hI hr c.1.cfg.longest)
      fun k => (onScript_inputs hI _ k).2
    replace hT : T ≤ c.1.cfg.longest := hT
    obtain ⟨u, m, -, ht, hnow, hcall⟩ := h.hostCall_ends h0 (Nat.lt_succ_of_le hT) (hT.trans hn)
    rw [ht] at hend
    refine ⟨(u, m), by simp only [hnow]; omega, ?_⟩
    rcases hend with ⟨hdone, hready⟩ | ⟨hdone, hfault, hphase, hcode | ⟨hcode, hs⟩⟩
    · exact .inl ⟨hcall _ (callEnds_of_done hdone), hready⟩
    · exact .inr (.inl ⟨hcode ▸ hcall _ (callEnds_of_fault hdone hfault), hphase⟩)
    · exact .inr (.inr ⟨hcode ▸ hcall _ (callEnds_of_fault hdone hfault), hphase, hs⟩)

end Sys2Proof.Machine
end

section
/-! The fixture `M` on a wire (95_test_vectors.md section 4): what it is after the levels of a WRITE and of a READ, by the numbers of the
clock inversions. -/

namespace Sys2Proof.Machine
open Sys2Proof

/-! ### `M` and the levels of the wire -/

/-- One tick of `M`, which reads the three lines of the engine alone. -/
def Mock.see (m : Mock) (t : Nat) (p : Triple) : Mock := m.tick t ⟨p.1, p.2.1, p.2.2, []⟩

theorem Mock.tick_eq_see (m : Mock) (t : Nat) (out : OutPort) : m.tick t out = m.see t out.triple := rfl

/-- `M` on a wire that begins at tick `t`. -/
def Mock.watch : Mock → Nat → List Triple → Mock
  | m, _, [] => m
  | m, t, p :: ps => (m.see t p).watch (t + 1) ps

theorem Mock.watch_append (m : Mock) (t : Nat) (xs ys : List Triple) :
    m.watch t (xs ++ ys) = (m.watch t xs).watch (t + xs.length) ys := by
  induction xs generalizing m t with
  | nil => rfl
  | cons p ps ih =>
    rw [List.cons_append, Mock.watch, ih, List.length_cons, Nat.add_assoc, Nat.add_comm 1]
    rfl

/-- The ready flag at tick `t`, when it is due at `flagAt`. -/
def flagLevel (flagAt : Option Nat) (t : Nat) : Tri :=
  match flagAt with
  | some tr => if tr ≤ t then .one else .zero
  | none => .zero

/-- `M` with its ready flag as at tick `t`, and the clock last seen at `l`. -/
def Mock.upTo (m : Mock) (t : Nat) (l : Bool) : Mock := { m with ready := flagLevel m.flagAt t, prevSck := l }

/-- `M` after a tick at which chip-select is idle, but for the flag and the clock. -/
def Mock.cleared (m : Mock) : Mock := { m with edges := 0, frame := [], flagAt := none, reading := false, miso := .zero }

section
variable {m : Mock} {t : Nat} {p : Triple}

theorem Mock.see_idle (h : p.1 = m.csIdle) : m.see t p = m.cleared.upTo (t + 1) p.2.1 := by
  simp only [Mock.see, Mock.tick, h, if_true]
  rfl

theorem Mock.see_still (h : p.1 ≠ m.csIdle) (hl : p.2.1 = m.prevSck) : m.see t p = m.upTo (t + 1) p.2.1 := by
  simp only [Mock.see, Mock.tick, h, hl, if_false, ne_eq, not_true_eq_false]
  rfl

theorem Mock.see_edge (h : p.1 ≠ m.csIdle) (hl : p.2.1 ≠ m.prevSck) :
    m.see t p = (m.edge t p.2.2).upTo (t + 1) p.2.1 := by
  simp only [Mock.see, Mock.tick, h, hl, if_false, if_true, ne_eq, not_false_eq_true]
  rfl

/-! ### Lines that do not change -/

theorem Mock.watch_still (n : Nat) (h : p.1 ≠ m.csIdle) :
    (m.upTo t p.2.1).watch t (List.replicate n p) = m.upTo (t + n) p.2.1 := by
  induction n generalizing t with
  | zero => rfl
  | succ n ih =>
    rw [List.replicate_succ, Mock.watch, Mock.see_still (m := m.upTo t p.2.1) h rfl]
    exact (ih (t := t + 1)).trans (by rw [Nat.add_assoc, Nat.add_comm 1])

theorem Mock.watch_idle {n : Nat} (h : p.1 = m.csIdle) (hn : 0 < n) :
    m.watch t (List.replicate n p) = m.cleared.upTo (t + n) p.2.1 := by
  obtain ⟨n, rfl⟩ := Nat.exists_eq_succ_of_ne_zero hn.ne'
  rw [List.replicate_succ, Mock.watch, Mock.see_idle h]
  clear hn
  induction n generalizing t with
  | zero => rfl
  | succ n ih =>
    rw [List.replicate_succ, Mock.watch, Mock.see_idle (m := m.cleared.upTo (t + 1) p.2.1) h]
    exact (ih (t := t + 1)).trans (by rw [Nat.add_assoc, Nat.add_comm 1])

/-- Half a bit period that begins with a clock inversion. -/
theorem Mock.watch_half {n : Nat} (h : p.1 ≠ m.csIdle) (hl : p.2.1 ≠ m.prevSck) (he : (m.edge t p.2.2).csIdle = m.csIdle)
    (hn : 0 < n) : m.watch t (List.replicate n p) = (m.edge t p.2.2).upTo (t + n) p.2.1 := by
  obtain ⟨n, rfl⟩ := Nat.exists_eq_succ_of_ne_zero hn.ne'
  rw [List.replicate_succ, Mock.watch, Mock.see_edge h hl, Mock.watch_still n (by rwa [he]), Nat.add_assoc, Nat.add_comm 1]

end

/-! ### The clock inversions of a frame, by their numbers -/

section
variable {m : Mock} {t : Nat} {b : Bool}

/-- The parameters of `M`. -/
def Mock.params (m : Mock) : Option Nat × List Nat × Bool × Bool := (m.latency, m.xPositions, m.csIdle, m.cmdRead)

/-- What of `M` an inversion can change only by presenting a bit, and its parameters. -/
def Mock.held (m : Mock) : (Option Nat × List Nat × Bool × Bool) × Tri := (m.params, m.miso)

theorem Mock.takeBit_held (m : Mock) (b : Bool) : (m.takeBit b).held = m.held := by unfold Mock.takeBit; split <;> rfl

theorem Mock.readHeader_held (m : Mock) : m.readHeader.held = m.held := by unfold Mock.readHeader; split <;> rfl

theorem Mock.answer_held (m : Mock) (t : Nat) : (m.answer t).held = m.held := by unfold Mock.answer; split <;> rfl

theorem Mock.store_held (m : Mock) : m.store.held = m.held := by unfold Mock.store; split <;> rfl

theorem Mock.edge_eq_presentBit (m : Mock) (t : Nat) (b : Bool) : ∃ m' : Mock, m.edge t b = m'.presentBit ∧ m'.held = m.held :=
  ⟨_, rfl, by rw [store_held, answer_held, readHeader_held, takeBit_held]; rfl⟩

theorem Mock.presentBit_params (m : Mock) : m.presentBit.params = m.params := by unfold Mock.presentBit; split <;> rfl

theorem Mock.edge_params (m : Mock) (t : Nat) (b : Bool) : (m.edge t b).params = m.params := by
  obtain ⟨m', h, hheld⟩ := m.edge_eq_presentBit t b
  rw [h, presentBit_params]
  exact congrArg Prod.fst hheld

theorem Mock.presentBit_miso_ne_x {m : Mock} (hx : m.xPositions = []) (h : m.miso ≠ .x) : m.presentBit.miso ≠ .x := by
  unfold Mock.presentBit
  split
  · simp only [hx, List.not_mem_nil, if_false, triOf]
    split <;> simp
  · exact h

/-- Without positions of X, `M` drives a level on data-in at an inversion if it did before. -/
theorem Mock.edge_miso_ne_x (t : Nat) (b : Bool) {m : Mock} (hx : m.xPositions = []) (h : m.miso ≠ .x) : (m.edge t b).miso ≠ .x := by
  obtain ⟨m', he, hheld⟩ := m.edge_eq_presentBit t b
  simp only [Mock.held, Mock.params, Prod.mk.injEq] at hheld
  obtain ⟨⟨-, hx', -⟩, hmiso⟩ := hheld
  rw [he]
  exact presentBit_miso_ne_x (hx'.trans hx) (hmiso ▸ h)

theorem Mock.edge_csIdle (m : Mock) (t : Nat) (b : Bool) : (m.edge t b).csIdle = m.csIdle :=
  congrArg (fun x => x.2.2.1) (m.edge_params t b)

/-- At an inversion that is none of the marked ones of the frame `M` takes a bit or presents one. -/
theorem Mock.edge_of_takeBit {m' : Mock} (hm : m.count.takeBit b = m') (h63 : m'.edges ≠ 63)
    (h64 : ¬(m'.edges = 64 ∧ m'.reading = true)) (h127 : ¬(m'.edges = 127 ∧ m'.reading = false)) :
    m.edge t b = m'.presentBit := by
  rw [Mock.edge, hm, show m'.readHeader = m' from if_neg h63, show m'.answer t = m' from if_neg h64,
    show m'.store = m' from if_neg h127]

/-- An odd inversion of the request, but for the last of the command word and of the datum: `M` takes the bit. -/
theorem Mock.edge_takes (ho : m.edges % 2 = 0)
    (h : m.edges < 62 ∨ m.reading = false ∧ 64 ≤ m.edges ∧ m.edges < 126) :
    m.edge t b = { m with edges := m.edges + 1, frame := m.frame ++ [b] } := by
  have hnot : ¬(m.reading = true ∧ (m.edges + 1) % 2 = 1 ∧ 65 ≤ m.edges + 1 ∧ m.edges + 1 ≤ 127) := by
    rintro ⟨hr, -, hl, -⟩
    rcases h with h | ⟨h, -⟩
    · omega
    · simp [h] at hr
  refine (Mock.edge_of_takeBit (if_pos ⟨?_, h.imp ?_ fun h => ⟨h.1, ?_⟩⟩) ?_ (fun h => ?_) (fun h => ?_)).trans (if_neg hnot) <;>
    simp only [Mock.count] at * <;> omega

/-- An inversion at which `M` does nothing: an even one, but for the answer to a READ, and one after the transaction. -/
theorem Mock.edge_counts (h : m.edges % 2 = 1 ∧ (m.edges ≠ 63 ∨ m.reading = false) ∨ 127 ≤ m.edges) : m.edge t b = m.count := by
  have hnot : ¬(m.edges + 1 = 64 ∧ m.reading = true) := by
    rintro ⟨he, hr⟩
    rcases h with ⟨-, h | h⟩ | h
    · omega
    · simp [h] at hr
    · omega
  refine (Mock.edge_of_takeBit (if_neg ?_) ?_ hnot (fun h => ?_)).trans (if_neg fun h => ?_) <;>
    simp only [Mock.count] at * <;> omega

/-- Inversion 63: the command word is complete. -/
theorem Mock.edge_header (h : m.edges = 62) : m.edge t b =
    { m with edges := 63, frame := m.frame ++ [b], reading := (m.frame ++ [b]).headD false = m.cmdRead,
             addr := ofBitsMsb 6 (field (m.frame ++ [b]) 26 6) } := by
  simp [Mock.edge, Mock.count, Mock.takeBit, Mock.readHeader, Mock.answer, Mock.store, Mock.presentBit, h]

/-- Inversion 64. -/
theorem Mock.edge_answers (h : m.edges = 63) : m.edge t b = m.count.answer t := by
  simp [Mock.edge, Mock.count, Mock.takeBit, Mock.readHeader, Mock.answer, Mock.store, Mock.presentBit, h]
  split <;> simp

/-- Inversion 127 of a WRITE: the datum is complete. -/
theorem Mock.edge_stores (h : m.edges = 126) (hr : m.reading = false) : m.edge t b =
    { m with edges := 127, frame := m.frame ++ [b],
             regs := memWrite m.regs m.addr (ofBitsMsb 32 (field (m.frame ++ [b]) 32 32)) } := by
  simp [Mock.edge, Mock.count, Mock.takeBit, Mock.readHeader, Mock.answer, Mock.store, Mock.presentBit, h, hr]

/-- The odd inversion of response bit `j` of a READ. -/
theorem Mock.edge_presents {j : Nat} (h : m.edges = 64 + 2 * j) (hj : j < 32) (hr : m.reading = true) (hx : m.xPositions = []) :
    m.edge t b = { m with edges := 65 + 2 * j, miso := triOf (m.resp.getMsbD j) } := by
  have hcount : m.count = { m with edges := 65 + 2 * j } := by rw [Mock.count, h, Nat.add_right_comm]
  have hlast : (65 + 2 * j - 65) / 2 = j := by omega
  have htake : m.count.takeBit b = { m with edges := 65 + 2 * j } := by
    rw [hcount]
    refine if_neg ?_
    rintro ⟨-, hl | ⟨hn, -⟩⟩
    · simp only at hl; omega
    · simp [hr] at hn
  have hpresent : ({ m with edges := 65 + 2 * j } : Mock).presentBit =
      { m with edges := 65 + 2 * j, miso := triOf (m.resp.getMsbD j) } := by
    refine (if_pos ⟨hr, by simp only; omega⟩).trans ?_
    simp only [hx, hlast, List.not_mem_nil, if_false]
  refine (Mock.edge_of_takeBit htake ?_ (fun h => ?_) fun h => ?_).trans hpresent
  · simp only; omega
  · simp only at h; omega
  · simp [hr] at h

end

/-! ### What every tick of `M` keeps -/

/-- What a tick of `M` comes to: chip-select idle, a still clock, or an inversion. -/
theorem Mock.see_cases (m : Mock) (t : Nat) (p : Triple) : ∃ m' : Mock, m.see t p = m'.upTo (t + 1) p.2.1 ∧
    (m' = m.cleared ∨ m' = m ∨ m' = m.edge t p.2.2) := by
  by_cases h : p.1 = m.csIdle
  · exact ⟨_, see_idle h, .inl rfl⟩
  by_cases hl : p.2.1 = m.prevSck
  · exact ⟨_, see_still h hl, .inr (.inl rfl)⟩
  · exact ⟨_, see_edge h hl, .inr (.inr rfl)⟩

/-- Without positions of X, `M` drives levels on data-in once it does. -/
theorem Mock.watch_miso_ne_x {m : Mock} (t : Nat) (ws : List Triple) (hx : m.xPositions = []) (h : m.miso ≠ .x) :
    (m.watch t ws).miso ≠ .x := by
  induction ws generalizing m t with
  | nil => exact h
  | cons p ps ih =>
    obtain ⟨m', he, hm'⟩ := m.see_cases t p
    rw [Mock.watch, he]
    have hkeeps : m'.xPositions = [] ∧ m'.miso ≠ .x := by
      rcases hm' with rfl | rfl | rfl
      · exact ⟨hx, by simp [Mock.cleared]⟩
      · exact ⟨hx, h⟩
      · exact ⟨(congrArg (fun x => x.2.1) (m.edge_params t p.2.2)).trans hx, edge_miso_ne_x t p.2.2 hx h⟩
    exact ih _ hkeeps.1 hkeeps.2

end Sys2Proof.Machine
end

section
/-! The fixture `M` on the wire of a WRITE and of a READ (R81, R91): after the command word, the datum, the polls, the bits of the response
and the close. -/

namespace Sys2Proof.Machine
open Sys2Proof

theorem csActive_ne_csIdle (c : Config) : c.csActive ≠ c.csIdle := by cases h : c.csIdle <;> simp [Config.csActive, h]

theorem bitWave_length (c : Config) (l0 b : Bool) : (bitWave c l0 b).length = 2 * c.tHalf := by
  simp [bitWave, Nat.two_mul]

theorem flatMap_bitWave_length (c : Config) (l0 : Bool) (bs : List Bool) :
    (bs.flatMap (bitWave c l0)).length = 2 * c.tHalf * bs.length := by
  induction bs with
  | nil => rfl
  | cons b bs ih => simp [ih, bitWave_length, Nat.mul_add, Nat.add_comm]

/-- The answer does not read the flag's level nor the clock. -/
theorem Mock.answer_upTo {m : Mock} {t t1 t2 : Nat} {l1 l2 : Bool} :
    ((m.upTo t1 l1).answer t).upTo t2 l2 = (m.answer t).upTo t2 l2 := by
  unfold Mock.answer
  by_cases h : m.edges = 64 ∧ m.reading = true
  · rw [if_pos h, if_pos (show (m.upTo t1 l1).edges = 64 ∧ (m.upTo t1 l1).reading = true from h)]
    rfl
  · rw [if_neg h, if_neg (show ¬((m.upTo t1 l1).edges = 64 ∧ (m.upTo t1 l1).reading = true) from h)]
    rfl

section
variable {m : Mock} {c : Config} {t : Nat} {l0 : Bool} (hcs : m.csIdle = c.csIdle) (hH : 1 ≤ c.tHalf)
include hcs hH

/-! ### Bit periods -/

/-- A bit period: two clock inversions, half a period apart. -/
theorem Mock.watch_bit (b : Bool) : (m.upTo t l0).watch t (bitWave c l0 b) =
    ((((m.upTo t l0).edge t b).upTo (t + c.tHalf) (!l0)).edge (t + c.tHalf) b).upTo (t + 2 * c.tHalf) l0 := by
  have hactive : c.csActive ≠ m.csIdle := hcs ▸ csActive_ne_csIdle c
  have h1 : (m.upTo t l0).watch t (List.replicate c.tHalf (c.csActive, !l0, b)) =
      ((m.upTo t l0).edge t b).upTo (t + c.tHalf) (!l0) :=
    Mock.watch_half hactive (show (!l0) ≠ l0 by simp) (Mock.edge_csIdle _ _ _) hH
  rw [bitWave, Mock.watch_append, h1, List.length_replicate, Nat.two_mul, ← Nat.add_assoc]
  refine Mock.watch_half ?_ (show l0 ≠ !l0 by simp) (Mock.edge_csIdle _ _ _) hH
  exact fun h => hactive (h.trans (Mock.edge_csIdle (m.upTo t l0) _ _))

/-- A bit of the request, but for the last of the command word and of the datum. -/
theorem Mock.watch_requestBit (b : Bool) (he : m.edges % 2 = 0)
    (h : m.edges < 62 ∨ m.reading = false ∧ 64 ≤ m.edges ∧ m.edges < 126) :
    (m.upTo t l0).watch t (bitWave c l0 b) =
      ({ m with edges := m.edges + 2, frame := m.frame ++ [b] } : Mock).upTo (t + 2 * c.tHalf) l0 := by
  rw [Mock.watch_bit hcs hH, Mock.edge_takes (m := m.upTo t l0) he h, Mock.edge_counts]
  · rfl
  · refine .inl ⟨?_, .inl ?_⟩ <;> simp only [Mock.upTo] <;> omega

theorem Mock.watch_requestBits (bs : List Bool) {e : Nat} (he : m.edges = e) (hev : e % 2 = 0)
    (h : e + 2 * bs.length ≤ 62 ∨ m.reading = false ∧ 64 ≤ e ∧ e + 2 * bs.length ≤ 126) :
    (m.upTo t l0).watch t (bs.flatMap (bitWave c l0)) =
      ({ m with edges := e + 2 * bs.length, frame := m.frame ++ bs } : Mock).upTo (t + 2 * c.tHalf * bs.length) l0 := by
  induction bs generalizing m t e with
  | nil => simp [Mock.watch, ← he]
  | cons b bs ih =>
    subst he
    simp only [List.length_cons] at h
    rw [List.flatMap_cons, Mock.watch_append,
      Mock.watch_requestBit hcs hH b hev (h.imp (by omega) fun h => ⟨h.1, h.2.1, by omega⟩), bitWave_length]
    refine (ih (m := { m with edges := m.edges + 2, frame := m.frame ++ [b] }) (e := m.edges + 2) hcs rfl (by omega) (h.imp (by omega)
      fun h => ⟨h.1, by omega, by omega⟩)).trans ?_
    simp only [List.length_cons, List.append_assoc, List.cons_append, List.nil_append, Nat.mul_add, Nat.mul_one, Nat.add_assoc,
      Nat.add_comm (2 * bs.length), Nat.add_comm (2 * c.tHalf * bs.length)]

/-- Bit `j` of the response. -/
theorem Mock.watch_responseBit (b : Bool) {j : Nat} (he : m.edges = 64 + 2 * j) (hj : j < 32) (hr : m.reading = true)
    (hx : m.xPositions = []) : (m.upTo t l0).watch t (bitWave c l0 b) =
      ({ m with edges := 64 + 2 * (j + 1), miso := triOf (m.resp.getMsbD j) } : Mock).upTo (t + 2 * c.tHalf) l0 := by
  rw [Mock.watch_bit hcs hH, Mock.edge_presents (m := m.upTo t l0) he hj hr hx, Mock.edge_counts]
  · rw [show 64 + 2 * (j + 1) = 65 + 2 * j + 1 by omega]
    rfl
  · refine .inl ⟨?_, .inl ?_⟩ <;> simp only [Mock.upTo] <;> omega

/-- The first `j` bits of the response. -/
theorem Mock.watch_responseBits (b : Bool) {j : Nat} (he : m.edges = 64) (hj : j ≤ 32) (hr : m.reading = true)
    (hx : m.xPositions = []) : ∃ v, (m.upTo t l0).watch t ((List.replicate j b).flatMap (bitWave c l0)) =
      ({ m with edges := 64 + 2 * j, miso := v } : Mock).upTo (t + 2 * c.tHalf * j) l0 := by
  induction j with
  | zero => exact ⟨m.miso, by rw [← he]; rfl⟩
  | succ j ih =>
    obtain ⟨v, hv⟩ := ih (by omega)
    refine ⟨triOf (m.resp.getMsbD j), ?_⟩
    rw [List.replicate_succ', List.flatMap_append, Mock.watch_append, hv, flatMap_bitWave_length, List.length_replicate,
      List.flatMap_singleton]
    refine (Mock.watch_responseBit (m := { m with edges := 64 + 2 * j, miso := v }) hcs hH b rfl hj hr hx).trans ?_
    rw [Nat.add_assoc t, ← Nat.mul_succ]

/-! ### The command word -/

/-- `M` after the command word `f`, of which inversion 64 comes at tick `t`. -/
def Mock.commanded (m : Mock) (f : List Bool) (t : Nat) : Mock :=
  ({ m.cleared with edges := 64, frame := f, reading := f.headD false = m.cmdRead, addr := ofBitsMsb 6 (field f 26 6) } : Mock).answer t

/-- The last bit of the command word. -/
theorem Mock.watch_headerBit (b : Bool) (he : m.edges = 62) : (m.upTo t l0).watch t (bitWave c l0 b) =
    (({ m with edges := 64, frame := m.frame ++ [b], reading := (m.frame ++ [b]).headD false = m.cmdRead,
               addr := ofBitsMsb 6 (field (m.frame ++ [b]) 26 6) } : Mock).answer (t + c.tHalf)).upTo (t + 2 * c.tHalf) l0 := by
  rw [Mock.watch_bit hcs hH, Mock.edge_header (m := m.upTo t l0) he, Mock.edge_answers rfl]
  exact Mock.answer_upTo (m := { m with
    edges := 64, frame := m.frame ++ [b], reading := (m.frame ++ [b]).headD false = m.cmdRead,
    addr := ofBitsMsb 6 (field (m.frame ++ [b]) 26 6) })

theorem Mock.watch_command {m0 : Bool} {f : List Bool} (hS : 0 < c.tCsSettle) (hf : f.length = 32) :
    m.watch t (commandWave c l0 m0 f) =
      (m.commanded f (t + c.tCsSettle + 63 * c.tHalf)).upTo (t + c.firstPoll) l0 := by
  obtain rfl | ⟨fs, b, rfl⟩ := List.eq_nil_or_concat f
  · cases hf
  rw [List.concat_eq_append] at hf ⊢
  have hlen : fs.length = 31 := by simpa using hf
  have hbits : (m.cleared.upTo (t + c.tCsSettle) l0).watch (t + c.tCsSettle) (fs.flatMap (bitWave c l0)) =
      ({ m.cleared with edges := 62, frame := fs } : Mock).upTo (t + c.tCsSettle + 2 * c.tHalf * 31) l0 := by
    have h := Mock.watch_requestBits (m := m.cleared) (t := t + c.tCsSettle) (l0 := l0) hcs hH fs rfl rfl
      (.inl (by rw [hlen]; exact le_rfl))
    rw [hlen] at h
    exact h
  have hend : t + c.tCsSettle + 2 * c.tHalf * 31 + 2 * c.tHalf = t + c.firstPoll := by unfold Config.firstPoll; omega
  have htime : t + c.tCsSettle + 2 * c.tHalf * 31 + c.tHalf = t + c.tCsSettle + 63 * c.tHalf := by omega
  rw [commandWave, Mock.watch_append, Mock.watch_idle hcs.symm hS, List.length_replicate, List.flatMap_append, Mock.watch_append,
    hbits, flatMap_bitWave_length, hlen, List.flatMap_singleton,
    Mock.watch_headerBit (m := { m.cleared with edges := 62, frame := fs }) hcs hH b rfl, hend, htime]
  rfl

/-! ### The datum of a WRITE -/

/-- The last bit of the datum. -/
theorem Mock.watch_lastBit (b : Bool) (he : m.edges = 126) (hr : m.reading = false) : (m.upTo t l0).watch t (bitWave c l0 b) =
    ({ m with edges := 128, frame := m.frame ++ [b],
              regs := memWrite m.regs m.addr (ofBitsMsb 32 (field (m.frame ++ [b]) 32 32)) } : Mock).upTo (t + 2 * c.tHalf) l0 := by
  rw [Mock.watch_bit hcs hH, Mock.edge_stores (m := m.upTo t l0) he hr, Mock.edge_counts (.inr le_rfl)]
  rfl

theorem Mock.watch_datum {f : List Bool} (he : m.edges = 64) (hr : m.reading = false) (hf : f.length = 32) :
    (m.upTo t l0).watch t (f.flatMap (bitWave c l0)) =
      ({ m with edges := 128, frame := m.frame ++ f,
                regs := memWrite m.regs m.addr (ofBitsMsb 32 (field (m.frame ++ f) 32 32)) } : Mock).upTo (t + 2 * c.tHalf * 32) l0 := by
  obtain rfl | ⟨fs, b, rfl⟩ := List.eq_nil_or_concat f
  · cases hf
  rw [List.concat_eq_append] at hf ⊢
  have hlen : fs.length = 31 := by simpa using hf
  have hbits : (m.upTo t l0).watch t (fs.flatMap (bitWave c l0)) =
      ({ m with edges := 126, frame := m.frame ++ fs } : Mock).upTo (t + 2 * c.tHalf * 31) l0 := by
    have h := Mock.watch_requestBits (t := t) (l0 := l0) hcs hH fs he rfl (.inr ⟨hr, le_rfl, by rw [hlen]⟩)
    rw [hlen] at h
    exact h
  rw [List.flatMap_append, Mock.watch_append, hbits, flatMap_bitWave_length, hlen, List.flatMap_singleton,
    Mock.watch_lastBit (m := { m with edges := 126, frame := m.frame ++ fs }) hcs hH b rfl hr, List.append_assoc, Nat.add_assoc t,
    ← Nat.mul_succ]

/-! ### The close -/

omit hH in
/-- After inversion 128 `M` only counts. -/
theorem Mock.watch_late (ws : List Triple) (hws : ∀ p ∈ ws, p.1 = c.csActive) (he : 128 ≤ m.edges) (l : Bool) :
    ∃ e l', (m.upTo t l).watch t ws = ({ m with edges := e } : Mock).upTo (t + ws.length) l' := by
  induction ws generalizing m t l with
  | nil => exact ⟨m.edges, l, rfl⟩
  | cons p ps ih =>
    obtain ⟨hp, hps⟩ := List.forall_mem_cons.mp hws
    have hactive : p.1 ≠ (m.upTo t l).csIdle := fun h => csActive_ne_csIdle c (hp.symm.trans (h.trans hcs))
    have htime : t + (p :: ps).length = t + 1 + ps.length := by rw [List.length_cons]; omega
    rw [Mock.watch, htime]
    by_cases hl : p.2.1 = l
    · rw [Mock.see_still hactive hl]
      exact ih hcs hps he p.2.1
    · rw [Mock.see_edge hactive hl, Mock.edge_counts (m := m.upTo t l) (.inr (Nat.le_of_succ_le he))]
      exact ih (m := m.count) hcs hps (Nat.le_succ_of_le he) p.2.1

omit hH in
/-- The close, and chip-select idle at the tick of `done`. -/
theorem Mock.watch_close (b : Bool) (he : 128 ≤ m.edges) :
    ∃ t', (m.upTo t l0).watch t (closeWave c l0 b ++ [(c.csIdle, restLevel c l0, b)]) = m.cleared.upTo t' (restLevel c l0) := by
  have hactive : ∀ p ∈ extraWave c l0 b, p.1 = c.csActive := by
    intro p hp
    obtain ⟨i, -, hi⟩ := List.mem_flatMap.mp hp
    rw [List.eq_of_mem_replicate hi]
  obtain ⟨e, l', h⟩ := Mock.watch_late (t := t) hcs (extraWave c l0 b) hactive he l0
  rw [closeWave, List.append_assoc, ← List.replicate_succ', Mock.watch_append, h]
  exact ⟨_, Mock.watch_idle (m := ({ m with edges := e } : Mock).upTo _ l') hcs.symm (Nat.succ_pos _)⟩

end

end Sys2Proof.Machine
end

section
/-! The engine with the fixture `M` (R105, 95_test_vectors.md section 4): what `M` does in a call is what it does on the wire of the
engine's transaction, and what the engine samples is what `M` presents. -/

namespace Sys2Proof.Machine
open Sys2Proof

/-! ### The transactions as `M` sees them -/

/-- `M` after a transaction that left the clock at `l` and the registers `regs`. -/
structure Mock.Leaves (m : Mock) (l : Bool) (regs : RegSpace) (m' : Mock) : Prop where
  params : m'.params = m.params
  prevSck : m'.prevSck = l
  regs : m'.regs = regs

/-- `M` after the command word `f` of a READ of `a`, of which inversion 64 comes at tick `t`. -/
def Mock.answering (m : Mock) (f : List Bool) (a : BitVec 6) (t : Nat) : Mock :=
  { m.cleared with
    edges := 64, frame := f, reading := true, addr := a, resp := memRead m.regs a, flagAt := m.latency.map (t + ·) }

section
variable {m : Mock} {c : Config} {t : Nat} {l0 m0 b : Bool} {w : BitVec 2} {a : BitVec 6}

theorem Mock.commanded_write (hcmd : c.cmdWrite ≠ m.cmdRead) : m.commanded (encodeCmd c .write w a) t =
    { m.cleared with edges := 64, frame := encodeCmd c .write w a, addr := a } := by
  have hhead : decide ((encodeCmd c .write w a).headD false = m.cmdRead) = false := decide_eq_false hcmd
  have haddr : field (encodeCmd c .write w a) 26 6 = bitsMsb a := rfl
  rw [Mock.commanded, hhead, haddr, ofBitsMsb_bitsMsb]
  exact if_neg (by simp)

theorem Mock.commanded_read (hcmd : c.cmdRead = m.cmdRead) :
    m.commanded (encodeRead c w a) t = m.answering (encodeRead c w a) a t := by
  have hhead : decide ((encodeRead c w a).headD false = m.cmdRead) = true := decide_eq_true hcmd
  have haddr : field (encodeRead c w a) 26 6 = bitsMsb a := rfl
  rw [Mock.commanded, hhead, haddr, ofBitsMsb_bitsMsb]
  exact if_pos ⟨rfl, rfl⟩

theorem commandWave_length {f : List Bool} (hf : f.length = 32) : (commandWave c l0 m0 f).length = c.firstPoll := by
  rw [commandWave, List.length_append, List.length_replicate, flatMap_bitWave_length, hf, Config.firstPoll]
  ring

variable (hcs : m.csIdle = c.csIdle) (hH : 1 ≤ c.tHalf) (hS : 0 < c.tCsSettle)
include hcs hH hS

/-- A WRITE to `M`, up to the tick of `done`. -/
theorem Mock.watch_write (hcmd : c.cmdWrite ≠ m.cmdRead) (d : Word) :
    m.Leaves (restLevel c l0) (memWrite m.regs a d)
      (m.watch t (writeWave c l0 m0 (encodeWrite c w a d) b ++ [(c.csIdle, restLevel c l0, b)])) := by
  have hwave : writeWave c l0 m0 (encodeWrite c w a d) b =
      commandWave c l0 m0 (encodeCmd c .write w a) ++ ((bitsMsb d).flatMap (bitWave c l0) ++ closeWave c l0 b) := by
    simp only [writeWave, commandWave, encodeWrite, List.flatMap_append, List.append_assoc]
  have hdatum : field (encodeCmd c .write w a ++ bitsMsb d) 32 32 = bitsMsb d := by
    rw [field, List.drop_left' (encodeCmd_length c .write w a), List.take_of_length_le (by simp)]
  rw [hwave, List.append_assoc, Mock.watch_append, Mock.watch_command hcs hH hS (encodeCmd_length c .write w a),
    commandWave_length (encodeCmd_length c .write w a), List.append_assoc, Mock.watch_append, Mock.commanded_write hcmd]
  generalize hm : ({ m.cleared with edges := 64, frame := encodeCmd c .write w a, addr := a } : Mock) = m1
  have hcs1 : m1.csIdle = c.csIdle := by rw [← hm]; exact hcs
  have hframe : m1.frame = encodeCmd c .write w a := by rw [← hm]
  rw [Mock.watch_datum hcs1 hH (by rw [← hm]) (by rw [← hm]; rfl) (bitsMsb_length d), flatMap_bitWave_length, bitsMsb_length,
    hframe, hdatum, ofBitsMsb_bitsMsb]
  obtain ⟨t', h⟩ := Mock.watch_close (m := { m1 with
    edges := 128, frame := encodeCmd c .write w a ++ bitsMsb d, regs := memWrite m1.regs m1.addr d })
    (t := t + c.firstPoll + 2 * c.tHalf * 32) (l0 := l0) hcs1 b le_rfl
  rw [h, ← hm]
  exact ⟨rfl, rfl, rfl⟩

/-- A READ of `M`, up to its response. -/
theorem Mock.watch_toResponse (hcmd : c.cmdRead = m.cmdRead) (q : Nat) :
    m.watch t (commandWave c l0 m0 (encodeRead c w a) ++ List.replicate q (c.csActive, l0, b)) =
      (m.answering (encodeRead c w a) a (t + c.tCsSettle + 63 * c.tHalf)).upTo (t + (c.firstPoll + q)) l0 := by
  rw [Mock.watch_append, Mock.watch_command hcs hH hS (encodeRead_length c w a),
    commandWave_length (encodeRead_length c w a), ← Nat.add_assoc, Mock.commanded_read hcmd]
  exact Mock.watch_still q (p := (c.csActive, l0, b)) fun h => csActive_ne_csIdle c (h.trans hcs)

/-- A READ of `M`, up to the tick of `done`. -/
theorem Mock.watch_read (hcmd : c.cmdRead = m.cmdRead) (hx : m.xPositions = []) (k : Nat) :
    m.Leaves (restLevel c l0) m.regs
      (m.watch t (readWave c k l0 m0 (encodeRead c w a) b ++ [(c.csIdle, restLevel c l0, b)])) := by
  have hwave : readWave c k l0 m0 (encodeRead c w a) b =
      (commandWave c l0 m0 (encodeRead c w a) ++ List.replicate (k - 1 + c.tReadySettle) (c.csActive, l0, b)) ++
        ((List.replicate 32 b).flatMap (bitWave c l0) ++ closeWave c l0 b) := by
    simp only [readWave, commandWave, List.append_assoc]
  have hlen : (commandWave c l0 m0 (encodeRead c w a) ++ List.replicate (k - 1 + c.tReadySettle) (c.csActive, l0, b)).length =
      c.firstPoll + (k - 1 + c.tReadySettle) := by
    rw [List.length_append, commandWave_length (encodeRead_length c w a), List.length_replicate]
  rw [hwave, List.append_assoc, Mock.watch_append, Mock.watch_toResponse hcs hH hS hcmd, hlen, List.append_assoc,
    Mock.watch_append]
  obtain ⟨v, hv⟩ := Mock.watch_responseBits (m := m.answering (encodeRead c w a) a (t + c.tCsSettle + 63 * c.tHalf))
    (t := t + (c.firstPoll + (k - 1 + c.tReadySettle))) (l0 := l0) hcs hH b rfl le_rfl rfl hx
  rw [hv, flatMap_bitWave_length, List.length_replicate]
  obtain ⟨t', h⟩ := Mock.watch_close
    (m := { m.answering (encodeRead c w a) a (t + c.tCsSettle + 63 * c.tHalf) with edges := 64 + 2 * 32, miso := v })
    (t := t + (c.firstPoll + (k - 1 + c.tReadySettle)) + 2 * c.tHalf * 32) (l0 := l0) hcs b le_rfl
  rw [h]
  exact ⟨rfl, rfl, rfl⟩

end

/-- The wire from the first response edge to sample `j` (R88). -/
def sampleWave (c : Config) (l0 b : Bool) (j : Nat) : List Triple :=
  (List.replicate j b).flatMap (bitWave c l0) ++ (bitWave c l0 b).take (recvOffset c)

section
variable {m : Mock} {c : Config} {t : Nat} {l0 b : Bool}

theorem sampleWave_length (j : Nat) : (sampleWave c l0 b j).length = 2 * c.tHalf * j + recvOffset c := by
  rw [sampleWave, List.length_append, flatMap_bitWave_length, List.length_replicate, List.length_take, bitWave_length,
    Nat.min_eq_left (recvOffset_le c)]

/-- At sample `j` `M` presents bit `j` of its response, for either sampling point. -/
theorem Mock.watch_sample (hcs : m.csIdle = c.csIdle) (hH : 1 ≤ c.tHalf) (he : m.edges = 64) (hr : m.reading = true)
    (hx : m.xPositions = []) {j : Nat} (hj : j < 32) :
    ((m.upTo t l0).watch t (sampleWave c l0 b j)).miso = triOf (m.resp.getMsbD j) := by
  obtain ⟨v, hv⟩ := Mock.watch_responseBits (t := t) (l0 := l0) hcs hH b he hj.le hr hx
  rw [sampleWave, Mock.watch_append, hv, flatMap_bitWave_length, List.length_replicate]
  unfold recvOffset
  cases c.rxSample with
  | afterPair =>
    rw [List.take_of_length_le (bitWave_length c l0 b).le,
      Mock.watch_responseBit (m := { m with edges := 64 + 2 * j, miso := v }) hcs hH b rfl hj hr hx]
    rfl
  | betweenEdges =>
    have hactive : c.csActive ≠ m.csIdle := hcs ▸ csActive_ne_csIdle c
    have hhalf : (bitWave c l0 b).take c.tHalf = List.replicate c.tHalf (c.csActive, !l0, b) :=
      List.take_left' (List.length_replicate ..)
    simp only [hhalf]
    rw [Mock.watch_half hactive (show (!l0) ≠ l0 by simp) (Mock.edge_csIdle _ _ _) hH,
      Mock.edge_presents (m := ({ m with edges := 64 + 2 * j, miso := v } : Mock).upTo _ l0) rfl hj hr hx]
    rfl

end

end Sys2Proof.Machine
end

section
/-! The calls of the host on the engine with the fixture `M` (R105): the polls and the samples of a READ are what `M` drives on the wire of
that READ, and `M` conforms. -/

namespace Sys2Proof.Machine
open Sys2Proof

/-! ### The wire of a run -/

theorem visited_succ {s t : State} (h : step s = .next t) (n : Nat) : visited (n + 1) s = t :: visited n t := by
  simp only [visited, h]

theorem trace_succ {s t : State} (h : step s = .next t) (n : Nat) : trace (n + 1) s = t.port :: trace n t := by
  rw [trace, visited_succ h, List.map_cons, trace]

theorem visited_take {k n : Nat} (h : k ≤ n) (s : State) : visited k s = (visited n s).take k := by
  induction k generalizing n s with
  | zero => rfl
  | succ k ih =>
    obtain ⟨n, rfl⟩ := Nat.exists_eq_succ_of_ne_zero (Nat.ne_zero_of_lt h)
    cases hs : step s with
    | next t => rw [visited_succ hs, visited_succ hs, List.take_succ_cons, ih (Nat.le_of_succ_le_succ h)]
    | fault _ => simp [visited, hs]
    | refused _ => simp [visited, hs]

theorem trace_take {k n : Nat} (h : k ≤ n) (s : State) : trace k s = (trace n s).take k := by
  rw [trace, visited_take h, trace, List.map_take]

theorem trace_last {s t : State} {n : Nat} (h : ticks (n + 1) s = .next t) : trace (n + 1) s = trace n s ++ [t.port] := by
  induction n generalizing s with
  | zero => exact trace_succ ((ticks_last rfl).symm.trans h) 0
  | succ n ih =>
    cases hs : step s with
    | next u =>
      rw [ticks_succ hs] at h
      rw [trace_succ hs, ih h, trace_succ hs, List.cons_append]
    | fault _ => simp [ticks, hs] at h
    | refused _ => simp [ticks, hs] at h

/-- `M` after `k` ticks is what it is on the wire of the engine's run. -/
theorem coupledTicks_watch {k n : Nat} {c d : State × Mock} {r : Option Request} (hk : k ≤ n)
    (h : coupledTicks mock k c r = some d) :
    d.2 = c.2.watch c.1.now ((trace k { c.1 with env := coupledScript mock n c r }).map OutPort.triple) := by
  induction k generalizing n c r with
  | zero => cases h; rfl
  | succ k ih =>
    obtain ⟨n, rfl⟩ := Nat.exists_eq_succ_of_ne_zero (Nat.ne_zero_of_lt hk)
    cases ho : step (coupledState mock c r) with
    | next v =>
      have ht : coupledTick mock c r = some (v, mock.tick c.2 c.1.now v.port) := by simp [coupledTick, ho]
      have hs : step { c.1 with env := coupledScript mock (n + 1) c r } =
          .next { v with env := coupledScript mock n (v, mock.tick c.2 c.1.now v.port) none } := by
        have h := step_env (coupledState mock c r) (coupledScript mock (n + 1) c r) rfl
        rw [ho] at h
        refine h.trans ?_
        simp [mapNext, coupledScript, ht]
      obtain ⟨-, -, hnow⟩ := step_context ho
      replace hnow : v.now = c.1.now + 1 := hnow
      simp only [coupledTicks, ht, Option.bind_some] at h
      rw [ih (Nat.le_of_succ_le_succ hk) h, trace_succ hs, List.map_cons, Mock.watch, ← Mock.tick_eq_see, ← hnow]
      rfl
    | fault _ => simp [coupledTicks, coupledTick, ho] at h
    | refused _ => simp [coupledTicks, coupledTick, ho] at h

/-- What the engine reads from `M` is what `M` drives on the wire so far. -/
theorem mock_inputAhead {c : State × Mock} {i : Instr} (h : c.1.Inv) {n k : Nat} (hk : k < n) (l : InLine) :
    (onScript mock n i c).inputAhead k l =
      mock.drives (c.2.watch c.1.now ((trace k (onScript mock n i c)).map OutPort.triple)) l := by
  obtain ⟨d, hd, hin⟩ := onScript_inputAhead (P := mock) (i := i) h hk l
  rw [hin, coupledTicks_watch hk.le hd]
  rfl

/-! ### A READ of `M` -/

section
variable {c : State × Mock} {a : BitVec 6} {w : BitVec 2} {N : Nat}

/-- The wire of a READ up to its first poll, and while its polls fail. -/
theorem trace_polls {s : State} (hB : ∀ n, s.Begins (.read a w) n) {q : Nat} (hfail : ∀ i, i < q → s.pollAhead i = .zero)
    (hq : q ≤ s.cfg.pollMax) : (trace (s.cfg.firstPoll + q) s).map OutPort.triple =
      commandWave s.cfg s.port.sck s.port.mosi (encodeRead s.cfg w a) ++ List.replicate q (pollTriple s a) := by
  have hpos : 0 < s.cfg.firstPoll + q := Nat.add_pos_left (firstPoll_pos (hB 0).1.admissible) q
  obtain ⟨o, o', h⟩ := opened_read_leads_poll (a := a) (w := w) (begins_reset (hB 1)) (hB 0).2.1
    (fun i hi => by simp [hfail i hi]) (fun _ i hi => by simp [hfail i hi]) hq
  exact trace_of_obs_opened hpos (hB _) h.wire

/-- `M` in a READ of it all of whose polls so far have failed. -/
theorem mock_polled (hrest : AtRest c) {q : Nat}
    (hfail : ∀ i, i < q → (onScript mock (N + 1) (.read a w) c).pollAhead i = .zero) (hq : q ≤ c.1.cfg.pollMax) :
    c.2.watch c.1.now ((trace (c.1.cfg.firstPoll + q) (onScript mock (N + 1) (.read a w) c)).map OutPort.triple) =
      (c.2.answering (encodeRead c.1.cfg w a) a (c.1.now + c.1.cfg.tCsSettle + 63 * c.1.cfg.tHalf)).upTo
        (c.1.now + (c.1.cfg.firstPoll + q)) c.1.port.sck := by
  obtain ⟨hI, hr, hS, -, hcs, hcmd, -⟩ := hrest
  exact (congrArg (c.2.watch c.1.now) (trace_polls (onScript_begins (P := mock) hI hr N) hfail hq)).trans
    (Mock.watch_toResponse hcs hI.admissible.1 hS hcmd.symm q)

/-- A poll of `M` before which all polls have failed reads 1 from the ready latency on. -/
theorem mock_poll (hrest : AtRest c) {rl q : Nat} (hlat : c.2.latency = some rl)
    (hfail : ∀ i, i < q → (onScript mock (N + 1) (.read a w) c).pollAhead i = .zero) (hq : q ≤ c.1.cfg.pollMax)
    (hN : c.1.cfg.firstPoll + q ≤ N) :
    (onScript mock (N + 1) (.read a w) c).pollAhead q = if rl ≤ c.1.cfg.tHalf + q then .one else .zero := by
  have hpolled := mock_polled hrest hfail hq
  obtain ⟨hI, -⟩ := hrest
  refine (mock_inputAhead hI (Nat.lt_succ_of_le hN) .ready).trans ?_
  refine (congrArg (fun m => mock.drives m .ready) hpolled).trans ?_
  simp only [Mock.answering, hlat]
  refine if_congr ?_ rfl rfl
  simp only [Config.firstPoll]
  omega

/-- The poll of `M` that succeeds: the first at or behind the ready latency. -/
theorem mock_pollSucceeds (hrest : AtRest c) (hN : c.1.cfg.longest ≤ N) :
    ∃ q, (onScript mock (N + 1) (.read a w) c).PollSucceedsAt (q + 1) ∧
      ∀ i, i < q → (onScript mock (N + 1) (.read a w) c).pollAhead i = .zero := by
  have hrest' := hrest
  obtain ⟨hI, -, -, hP, -, -, -, -, rl, hlat, -, hrl⟩ := hrest'
  have hlong : c.1.cfg.firstPoll + c.1.cfg.pollMax ≤ N := (firstPoll_le_longest hI.admissible).trans hN
  have hzero : ∀ q, q ≤ rl - c.1.cfg.tHalf → ∀ i, i < q → (onScript mock (N + 1) (.read a w) c).pollAhead i = .zero := by
    intro q
    induction q with
    | zero => exact fun _ i hi => absurd hi (Nat.not_lt_zero i)
    | succ q ih =>
      intro hq i hi
      rcases Nat.lt_succ_iff_lt_or_eq.mp hi with hi | rfl
      · exact ih (by omega) i hi
      · rw [mock_poll hrest hlat (ih (by omega)) (by omega) (by omega), if_neg (by omega)]
  refine ⟨rl - c.1.cfg.tHalf, ⟨Nat.succ_pos _, ?_, ?_, fun i hi => ?_⟩, hzero _ le_rfl⟩
  · change rl - c.1.cfg.tHalf + 1 ≤ c.1.cfg.pollMax
    omega
  · rw [Nat.add_sub_cancel, mock_poll hrest hlat (hzero _ le_rfl) (by omega) (by omega), if_pos (by omega)]
  · simp [hzero _ le_rfl i hi]

/-- The wire of a READ up to its data sample `j`. -/
theorem take_readWave (c : Config) (k : Nat) (l0 m0 b : Bool) {f : List Bool} (hf : f.length = 32) {j : Nat} (hj : j < 32) :
    (readWave c k l0 m0 f b).take (c.sampleOffset k j) =
      commandWave c l0 m0 f ++ List.replicate (k - 1 + c.tReadySettle) (c.csActive, l0, b) ++ sampleWave c l0 b j := by
  obtain ⟨n, hn⟩ := Nat.exists_eq_add_of_lt hj
  have hdata : (List.replicate 32 b).flatMap (bitWave c l0) = sampleWave c l0 b j ++
      ((bitWave c l0 b).drop (recvOffset c) ++ (List.replicate n b).flatMap (bitWave c l0)) := by
    rw [hn, Nat.add_assoc, List.replicate_add, List.replicate_succ, List.flatMap_append, List.flatMap_cons, sampleWave,
      List.append_assoc, ← List.append_assoc ((bitWave c l0 b).take _), List.take_append_drop]
  rw [readWave, hdata, ← commandWave]
  simp only [List.append_assoc]
  rw [← List.append_assoc _ (sampleWave c l0 b j), ← List.append_assoc]
  refine List.take_left' ?_
  simp only [List.length_append, commandWave_length hf, List.length_replicate, sampleWave_length, sampleOffset_eq, Config.firstEdge]
  omega

/-- `M` leaves data-in defined behind the command word. -/
theorem mock_data_ne_x (hrest : AtRest c) {T : Nat} (hT : c.1.cfg.firstPoll ≤ T) (hN : T ≤ N) :
    (onScript mock (N + 1) (.read a w) c).inputAhead T .miso ≠ .x := by
  have hpolled := mock_polled (a := a) (w := w) (N := N) (q := 0) hrest (fun i hi => absurd hi (Nat.not_lt_zero i)) (Nat.zero_le _)
  obtain ⟨hI, -, -, -, -, -, -, hx, -⟩ := hrest
  rw [Nat.add_zero] at hpolled
  rw [mock_inputAhead hI (Nat.lt_succ_of_le hN), ← List.take_append_drop c.1.cfg.firstPoll
    ((trace T (onScript mock (N + 1) (.read a w) c)).map OutPort.triple), ← List.map_take, ← trace_take hT, Mock.watch_append, hpolled]
  exact Mock.watch_miso_ne_x _ _ hx (by simp [Mock.upTo, Mock.answering, Mock.cleared])

/-- A READ of `M` samples the register. -/
theorem mock_dataBits (hrest : AtRest c) (hN : c.1.cfg.longest ≤ N) {k : Nat}
    (hk : (onScript mock (N + 1) (.read a w) c).PollSucceedsAt k) (hclean : (onScript mock (N + 1) (.read a w) c).SamplesClean k) :
    (onScript mock (N + 1) (.read a w) c).dataBits k = bitsMsb (memRead c.2.regs a) := by
  obtain ⟨hI, hr, hS, -, hcs, hcmd, -, hx, -⟩ := hrest
  have hA := hI.admissible
  have hwire := readWaveform _ a w k (onScript_begins hI hr N _) hk hclean
  have hle : c.1.cfg.readTicks k ≤ N := (readTicks_le_longest hk.2.1).trans hN
  refine List.map_congr_left fun j hj => ?_
  replace hj : j < 32 := List.mem_range.mp hj
  have hoff : c.1.cfg.sampleOffset k j ≤ c.1.cfg.readTicks k := sampleOffset_le_readTicks c.1.cfg k hj
  have htake : (trace (c.1.cfg.sampleOffset k j) (onScript mock (N + 1) (.read a w) c)).map OutPort.triple =
      commandWave c.1.cfg c.1.port.sck c.1.port.mosi (encodeRead c.1.cfg w a) ++
        List.replicate (k - 1 + c.1.cfg.tReadySettle) (c.1.cfg.csActive, c.1.port.sck, a.getLsbD 0) ++
        sampleWave c.1.cfg c.1.port.sck (a.getLsbD 0) j := by
    rw [trace_take hoff, List.map_take, ← take_readWave _ _ _ _ _ (encodeRead_length _ _ _) hj]
    exact congrArg (List.take _) hwire
  have hlen : (commandWave c.1.cfg c.1.port.sck c.1.port.mosi (encodeRead c.1.cfg w a) ++
      List.replicate (k - 1 + c.1.cfg.tReadySettle) (c.1.cfg.csActive, c.1.port.sck, a.getLsbD 0)).length =
      c.1.cfg.firstPoll + (k - 1 + c.1.cfg.tReadySettle) := by
    rw [List.length_append, commandWave_length (encodeRead_length _ _ _), List.length_replicate]
  have hsample : (onScript mock (N + 1) (.read a w) c).dataAhead k j = triOf ((memRead c.2.regs a).getMsbD j) := by
    refine (mock_inputAhead hI (Nat.lt_succ_of_le (hoff.trans hle)) .miso).trans ?_
    refine (congrArg (fun ws => mock.drives (c.2.watch c.1.now ws) .miso) htake).trans ?_
    rw [Mock.watch_append, Mock.watch_toResponse hcs hA.1 hS hcmd.symm, hlen]
    exact Mock.watch_sample (m := c.2.answering _ a _) hcs hA.1 rfl rfl hx hj
  rw [hsample]
  cases (memRead c.2.regs a).getMsbD j <;> rfl

end

/-! ### The calls -/

section
variable {c : State × Mock} {n : Nat}

/-- A call to `M` returns with the transaction on its script, and the engine and `M` are at rest again. -/
theorem mock_call {i : Instr} {T : Nat} {t : State} {regs : RegSpace} {ws : List Triple} {p : Triple} (hrest : AtRest c)
    (h : (onScript mock (c.1.cfg.longest + 1) i c).Awaits T t) (h0 : 0 < T) (hT : T ≤ c.1.cfg.longest) (hn : c.1.cfg.longest ≤ n)
    (hdone : t.done = true) (hready : t.ready = true) (hp : t.port.triple = p)
    (hwire : (trace T (onScript mock (c.1.cfg.longest + 1) i c)).map OutPort.triple = ws)
    (hleaves : c.2.Leaves p.2.1 regs (c.2.watch c.1.now (ws ++ [p]))) :
    ∃ c', hostCall mock n i c = .returned (returnValue i c'.1) c' ∧ (AtRest c' ∧ c'.1.cfg = c.1.cfg) ∧ c'.2.regs = regs ∧
      c'.1.rdata = t.rdata := by
  obtain ⟨hI, -, hS, hP, hcs, hcmd, -, hx, rl, hlat, h1, hrl⟩ := hrest
  obtain ⟨u, m, hd, ht, -, hcall⟩ := h.hostCall_ends h0 (Nat.lt_succ_of_le hT) (hT.trans hn)
  obtain ⟨t', ht', hI'⟩ := ticks_keep_inv (s := onScript mock (c.1.cfg.longest + 1) i c) (hI.with_script _ c.1.now) (T + 1)
  cases ht'.symm.trans h.last
  have hcfg : u.cfg = c.1.cfg := (coupledTicks_context mock _ _ _ _ hd).1
  have hm : m = c.2.watch c.1.now (ws ++ [p]) := by
    rw [← hwire, ← hp]
    refine (coupledTicks_watch (Nat.succ_le_succ hT) hd).trans (congrArg (c.2.watch c.1.now) ?_)
    exact (congrArg (List.map OutPort.triple) (trace_last h.last)).trans (by rw [List.map_append]; rfl)
  rw [← hm] at hleaves
  obtain ⟨hparams, hprev, hregs⟩ := hleaves
  simp only [Mock.params, Prod.mk.injEq] at hparams
  obtain ⟨plat, px, pcs, pcmd⟩ := hparams
  have huI : u.Inv := by
    rw [ht] at hI'
    exact hI'.with_script u.env u.now
  have hport : p.2.1 = u.port.sck := by rw [← hp, ht]; rfl
  rw [ht] at hdone hready
  refine ⟨(u, m), hcall _ (callEnds_of_done hdone), ⟨⟨huI, hready, ?_⟩, hcfg⟩, hregs, by rw [ht]⟩
  simp only [hcfg]
  exact ⟨hS, hP, pcs.trans hcs, pcmd.trans hcmd, hprev.trans hport, px.trans hx, rl, plat.trans hlat, h1, hrl⟩

/-- A WRITE to `M` returns, and has stored its datum. -/
theorem mock_write (hrest : AtRest c) (hn : c.1.cfg.longest ≤ n) (a : BitVec 6) (d : Word) (w : BitVec 2) :
    ∃ c', hostCall mock n (.write a d w) c = .returned none c' ∧ (AtRest c' ∧ c'.1.cfg = c.1.cfg) ∧
      c'.2.regs = memWrite c.2.regs a d := by
  have hrest' := hrest
  obtain ⟨hI, hr, hS, -, hcs, hcmd, -⟩ := hrest'
  have hB := onScript_begins (P := mock) (i := .write a d w) hI hr c.1.cfg.longest
  obtain ⟨t, h, hdone, hready, hport⟩ := write_awaits hB fun k => (onScript_inputs hI _ k).2
  have hne : c.1.cfg.cmdWrite ≠ c.2.cmdRead := by
    obtain ⟨-, -, -, -, -, -, -, -, -, -, -, -, -, hne⟩ := hI.admissible
    rwa [hcmd]
  have hle : c.1.cfg.writeTicks ≤ c.1.cfg.longest := by unfold Config.longest; omega
  obtain ⟨c', hcall, hrest', hregs, -⟩ := mock_call hrest h (writeTicks_pos hI.admissible) hle hn hdone hready hport
    (writeWaveform _ a d w (hB _)) (Mock.watch_write hcs hI.admissible.1 hS hne d)
  exact ⟨c', hcall, hrest', hregs⟩

/-- A READ of `M` returns the register, and changes none. -/
theorem mock_read (hrest : AtRest c) (hn : c.1.cfg.longest ≤ n) (a : BitVec 6) (w : BitVec 2) :
    ∃ c', hostCall mock n (.read a w) c = .returned (some (memRead c.2.regs a)) c' ∧ (AtRest c' ∧ c'.1.cfg = c.1.cfg) ∧
      c'.2.regs = c.2.regs ∧ c'.1.rdata = memRead c.2.regs a := by
  have hrest' := hrest
  obtain ⟨hI, hr, hS, -, hcs, hcmd, -, hx, -⟩ := hrest'
  have hB := onScript_begins (P := mock) (i := .read a w) hI hr c.1.cfg.longest
  obtain ⟨q, hpoll, hzero⟩ := mock_pollSucceeds (a := a) (w := w) hrest le_rfl
  have hticks : c.1.cfg.readTicks (q + 1) ≤ c.1.cfg.longest := readTicks_le_longest hpoll.2.1
  have hclean : (onScript mock (c.1.cfg.longest + 1) (.read a w) c).SamplesClean (q + 1) := by
    refine fun _ => ⟨fun i hi => ?_, fun j hj => ?_⟩
    · rcases Nat.lt_succ_iff_lt_or_eq.mp hi with hi | rfl
      · simp [hzero i hi]
      · have hone := hpoll.2.2.1
        rw [Nat.add_sub_cancel] at hone
        simp [hone]
    · exact mock_data_ne_x hrest (firstPoll_le_sampleOffset _ _ _) ((sampleOffset_le_readTicks _ _ hj).trans hticks)
  obtain ⟨t, h, hdone, hready, hrdata, hport⟩ := read_awaits_response hB (fun k => (onScript_inputs hI _ k).2) hpoll hclean
  rw [mock_dataBits hrest le_rfl hpoll hclean, decodeResponse, ofBitsMsb_bitsMsb] at hrdata
  obtain ⟨c', hcall, hrest', hregs, hdata⟩ := mock_call hrest h (readTicks_pos hI.admissible _) hticks hn hdone hready hport
    (readWaveform _ a w (q + 1) (hB _) hpoll hclean) (Mock.watch_read hcs hI.admissible.1 hS hcmd.symm hx (q + 1))
  have hvalue := hdata.trans hrdata
  refine ⟨c', ?_, hrest', hregs, hvalue⟩
  rw [hcall, ← hvalue]
  rfl

end

/-- Settles O42: the effects of the two calls (`mock_write`, `mock_read`), and what follows from them. -/
theorem mockPeripheralEchoes : Obligations.MockPeripheralEchoes := by
  intro cfg w n hn
  have hconf : Conforming mock (fun c => AtRest c ∧ c.1.cfg = cfg) Mock.regs n w := by
    constructor
    · rintro c ⟨hrest, rfl⟩ a v
      exact mock_write hrest hn a v w
    · rintro c ⟨hrest, rfl⟩ a
      obtain ⟨c', hcall, hrest', hregs, -⟩ := mock_read hrest hn a w
      exact ⟨c', hcall, hrest', hregs⟩
  refine ⟨hconf, hconf.echoes, ?_⟩
  rintro c hrest rfl a v
  constructor
  · obtain ⟨c1, hwrite, ⟨hrest1, hcfg1⟩, hregs1⟩ := mock_write hrest hn a v w
    obtain ⟨c2, hread, -, hregs2, hdata⟩ := mock_read hrest1 (hcfg1.symm ▸ hn) a w
    rw [hregs1, memRead_memWrite] at hread hdata
    exact ⟨c1, c2, hwrite, hread, hdata, hregs2.trans hregs1⟩
  · obtain ⟨c1, hread1, ⟨hrest1, hcfg1⟩, hregs1, -⟩ := mock_read hrest hn a w
    obtain ⟨c2, hread2, -, hregs2, -⟩ := mock_read hrest1 (hcfg1.symm ▸ hn) a w
    rw [hregs1] at hread2
    exact ⟨c1, c2, hread1, hread2, hregs2.trans hregs1⟩

end Sys2Proof.Machine
end

section
/-! Failures (R107 to R115): the tick that raises, what a READ that times out shows of itself, and the ticks after the fault. -/

namespace Sys2Proof.Machine
open Sys2Proof

/-! ### A READ that times out -/

/-- Settles O41: the polls that fail lead to the bound, which raises in place of a further poll (`opened_read_raises`). -/
theorem timeoutExactlyAtBound : Obligations.TimeoutExactlyAtBound := by
  intro s a w hB hne hx
  have hr := begins_reset hB
  obtain ⟨o, o', h⟩ := opened_read_raises (a := a) (w := w) .protocolTimeout hr hB.2.1 hne hx le_rfl (.inl ⟨rfl, rfl⟩)
  obtain ⟨hpollcnt, -, hrdata, -, hlatch, hport, hdone⟩ := polled_facts (a := a) (w := w) hr hB.2.1 s.cfg.pollMax
    ((List.range s.cfg.pollMax).map fun i => xCount (s.pollAhead i)).sum o o'
  obtain ⟨hflight, hend⟩ := h.ticks hB rfl (.inl rfl)
  refine ⟨fun n h0 hn => ?_, _, hend, rfl, rfl, rfl, rfl, hpollcnt, hdone, hrdata, hlatch, hport⟩
  obtain ⟨u, hu, hbusy, hnd, hnf, -⟩ := hflight n h0 hn
  exact ⟨u, hu, hbusy, hnf, hnd⟩

/-! ### The tick that raises (R113) -/

/-- In `Fault` a tick executes nothing and accepts nothing: only the event `done` ends (R114). -/
theorem engineTick_of_fault {s : State} (acc : State → State) (hA : s.cfg.Admissible) (hf : s.phase = .fault)
    (hw : s.waitcnt = 0) : engineTick acc s = .next { s with done := false } := by
  obtain ⟨hstop, hready⟩ := not_running_of_fault (s := s.startTick) hf
  have hrun : s.startTick.run = s.startTick := run_of_not_running hstop
  rw [engineTick_of_not_ready hA (by rwa [hrun]) (by rwa [hrun]), hrun]
  simp [State.countdown, State.startTick, hw]

/-- A tick whose micro-operation at the cursor raises ends in `Fault`, whatever is presented (R100, R113). -/
theorem exec_of_raise {s : State} {p : Phase} {op : MicroOp} {k : FaultKind} (i : Instr) (hA : s.cfg.Admissible)
    (hrun : s.running = true) (hg : s.seq[s.pos]? = some (p, op))
    (hraise : op.exec { s with phase := p } = State.raise { s with phase := p } k) :
    exec i s = .next { State.raise { s with phase := p } k with done := false } := by
  obtain ⟨hb, hw⟩ := (running_iff s).mp hrun
  have hop : op ≠ .complete := by
    rintro rfl
    cases congrArg State.phase hraise
  rw [exec_eq_acceptInstr, engineTick_of_op _ hA hb hw hg hop, hraise]
  exact engineTick_of_fault _ hA rfl rfl

/-- A tick whose poll is due at the bound (R110). -/
theorem exec_of_poll_at_bound {s : State} (i : Instr) (hA : s.cfg.Admissible) (hrun : s.running = true)
    (hg : s.seq[s.pos]? = some (.awaitReady, .poll)) (hmax : s.pollcnt = s.cfg.pollMax) :
    exec i s = .next { s with
      fault := true, faultCode := 1, faultPhase := .awaitReady, phase := .fault, waitcnt := 0, done := false } :=
  exec_of_raise (k := .protocolTimeout) i hA hrun hg ((pollRound_eq _).trans (if_pos hmax))

/-! ### The start of the polling (R84) -/

/-- The engine that is about to make the first poll of a READ (R84). -/
def State.pollsBegun (s : State) : State := { s with phase := .awaitReady, pollcnt := 0, pos := s.pos + 1 }

theorem pollsBegun_running {s : State} (hrun : s.running = true) : s.pollsBegun.running = true :=
  (running_iff _).mpr ⟨rfl, ((running_iff s).mp hrun).2⟩

theorem microStep_of_op {s : State} {p : Phase} {op : MicroOp} (hg : s.seq[s.pos]? = some (p, op)) :
    s.microStep = op.exec { s with phase := p } := by
  simp [State.microStep, hg]

section
variable {s : State} (hg : s.seq[s.pos]? = some (.awaitReady, .pollInit))
include hg

theorem microStep_of_pollInit : s.microStep = s.pollsBegun := microStep_of_op hg

/-- The first poll is due where the polling has begun (R84). -/
theorem pollsBegun_at_poll : s.pollsBegun.seq[s.pollsBegun.pos]? = some (.awaitReady, .poll) := by
  obtain ⟨a, w, hi, -, hpos⟩ := poll_pos (i := latchedInstr s) hg (.inl rfl)
  have hpos : s.pos = 163 := by simpa using hpos
  change (microSeq s.cfg (latchedInstr s))[s.pos + 1]? = _
  rw [hi, hpos, readSeq_getElem? 1, readSeq_poll]
  rfl

/-- The tick at which the polling begins is that of its first poll (R84, R100 (a)). -/
theorem exec_of_pollInit (i : Instr) (hA : s.cfg.Admissible) (hrun : s.running = true) : exec i s = exec i s.pollsBegun := by
  obtain ⟨hb, hw⟩ := (running_iff s).mp hrun
  rw [exec_eq_acceptInstr, exec_eq_acceptInstr]
  exact engineTick_of_op _ hA hb hw hg nofun

end

/-- Settles O31: the poll at the bound raises, and with `POLL_MAX = 0` the first poll is at the bound. -/
theorem timeoutEntry : Obligations.TimeoutEntry := by
  refine ⟨fun s i => exec_of_poll_at_bound i, fun s i hA hrun hg hmax => ?_⟩
  rw [exec_of_pollInit hg i hA hrun]
  exact exec_of_poll_at_bound i hA (pollsBegun_running hrun) (pollsBegun_at_poll hg) hmax.symm

/-! ### Undefined samples (R83, R111) -/

/-- The micro-operation `op` samples the line `l`: a poll below the bound, or a sample of data-in (R84, R87). -/
def State.Samples (s : State) (op : MicroOp) (l : InLine) : Prop :=
  op = .poll ∧ l = .ready ∧ s.pollcnt < s.cfg.pollMax ∨ op = .sampleMiso ∧ l = .miso

theorem State.Samples.exec_eq_raise {s : State} {op : MicroOp} {l : InLine} (hs : s.Samples op l) (hx : s.input l = .x)
    (hstrict : s.cfg.xmode = .strict) : op.exec s = s.raise .undefinedSample := by
  rcases hs with ⟨rfl, rfl, hlt⟩ | ⟨rfl, rfl⟩
  · rw [MicroOp.exec, pollRound_eq, if_neg hlt.ne, if_pos ⟨hx, hstrict⟩]
  · rw [MicroOp.exec, sampleData_eq, if_pos ⟨hx, hstrict⟩]

/-- Under Normalize an X is counted and raises nothing. -/
theorem State.Samples.exec_counts {s : State} {op : MicroOp} {l : InLine} (hs : s.Samples op l) (hx : s.input l = .x)
    (hnorm : s.cfg.xmode = .normalize) : (op.exec s).fault = s.fault ∧ (op.exec s).xnormCount = s.xnormCount + 1 := by
  rcases hs with ⟨rfl, rfl, hlt⟩ | ⟨rfl, rfl⟩
  · rw [exec_poll_of_defined hlt (by simp [hnorm]), hx]
    exact ⟨rfl, rfl⟩
  · rw [MicroOp.exec, sampleData_eq, if_neg (by simp [hnorm]), hx]
    exact ⟨rfl, rfl⟩

/-- A tick whose sample is undefined under Strict (R111, R113). -/
theorem exec_of_undefined {s : State} {p : Phase} {op : MicroOp} {l : InLine} (i : Instr) (hA : s.cfg.Admissible)
    (hrun : s.running = true) (hg : s.seq[s.pos]? = some (p, op)) (hs : s.Samples op l) (hx : s.input l = .x)
    (hstrict : s.cfg.xmode = .strict) :
    exec i s = .next { s with
      fault := true, faultCode := 2, faultPhase := p, phase := .fault, waitcnt := 0, done := false } :=
  exec_of_raise i hA hrun hg (State.Samples.exec_eq_raise (s := { s with phase := p }) hs hx hstrict)

/-- No fault is recorded while a transaction runs (R113). -/
theorem State.Inv.fault_of_running {s : State} (h : s.Inv) (hrun : s.running = true) : s.fault = false := by
  have hb := (busy_iff s).mp ((running_iff s).mp hrun).1
  simpa using mt h.faultPhaseIff.mp hb.2

/-- Settles O32: the sample at the cursor raises or is counted, and the start of the polling leads to the first poll. -/
theorem undefinedSampleEntry : Obligations.UndefinedSampleEntry := by
  refine ⟨fun s i p op l h hrun hg hs hx => ⟨exec_of_undefined i h.admissible hrun hg hs hx, fun hnorm => ?_⟩,
    fun s i h hrun hg hmax hx => ?_⟩
  · obtain ⟨hfault, hcount⟩ := State.Samples.exec_counts (s := { s with phase := p }) hs hx hnorm
    rw [microStep_of_op hg]
    exact ⟨hfault.trans (h.fault_of_running hrun), hcount⟩
  · have hpoll := pollsBegun_at_poll hg
    have hs : s.pollsBegun.Samples .poll .ready := .inl ⟨rfl, rfl, hmax⟩
    refine ⟨fun hstrict => ?_, fun hnorm => ?_⟩
    · rw [exec_of_pollInit hg i h.admissible hrun]
      exact exec_of_undefined i h.admissible (pollsBegun_running hrun) hpoll hs hx hstrict
    · have hdefined : ¬(s.pollsBegun.input .ready = .x ∧ s.pollsBegun.cfg.xmode = .strict) := by
        rintro ⟨-, hstrict⟩
        cases hnorm.symm.trans hstrict
      obtain ⟨hfault, hcount⟩ := hs.exec_counts hx hnorm
      rw [microStep_of_pollInit hg, microStep_of_op hpoll]
      exact ⟨hfault.trans (h.fault_of_running hrun), congrArg State.pollcnt (exec_poll_of_defined hmax hdefined), hcount⟩

/-! ### The ticks after a fault (R114) -/

/-- Without a reset event the environment only takes the engine elsewhere (R17). -/
theorem environment_eq_elsewhere {s : State} (hr : s.tickInput.reset = false) :
    s.environment = s.elsewhere s.driven s.env s.now := environment_of_no_reset hr

/-- A tick without a reset event in `Fault`: the engine is as it was, elsewhere in time. -/
theorem step_of_fault {s : State} (h : s.Inv) (hf : s.phase = .fault) (hr : s.tickInput.reset = false) :
    step s = .next { s.elsewhere s.driven s.env.tail (s.now + 1) with done := false } := by
  have hw : s.waitcnt = 0 := h.restWait (by simp [State.busy, hf])
  have htick := engineTick_of_fault (s := s.elsewhere s.driven s.env s.now) (acceptPresented s.presented) h.admissible hf hw
  rw [step_eq_engineTick, environment_eq_elsewhere hr, htick]
  rfl

/-- Any number of ticks in `Fault` without a reset event. -/
theorem ticks_of_fault {s : State} (n : Nat) (h : s.Inv) (hf : s.phase = .fault) (hr : s.NoReset n) :
    ∃ o e k d, ticks n s = .next { s.elsewhere o e k with done := d } := by
  induction n with
  | zero => exact ⟨s.port.other, s.env, s.now, s.done, rfl⟩
  | succ n ih =>
    obtain ⟨o, e, k, d, hu⟩ := ih fun j hj => hr j (hj.trans (Nat.lt_succ_self n))
    obtain ⟨u, hu', hI⟩ := ticks_keep_inv h n
    cases hu.symm.trans hu'
    have hreset := (congrArg TickInput.reset (ticks_tickInput hu)).trans (hr n (Nat.lt_succ_self n))
    exact ⟨_, _, _, _, (ticks_last hu).trans (step_of_fault hI hf hreset)⟩

/-- Settles O33: the ticks after the fault leave the engine as it is, and the reset event does what it does in every state. -/
theorem faultIsTerminal : Obligations.FaultIsTerminal := by
  refine ⟨fun s n h hf hr => ?_, fun s h _ hreset hreq => ?_⟩
  · obtain ⟨o, e, k, d, ht⟩ := ticks_of_fault n h hf hr
    exact ⟨_, ht, (not_running_of_fault (s := { s.elsewhere o e k with done := d }) hf).2, rfl, rfl⟩
  · obtain ⟨t, ht, -, -, -, -, -, hfault, -, -, hready, -⟩ := resetEventResets s h.admissible hreset hreq
    exact ⟨t, ht, hready, hfault⟩

end Sys2Proof.Machine
end

section
/-! The step as a whole keeps the invariant (R22 to R25, R98, R113), and the frame words of 95_test_vectors.md section 2.1. -/

namespace Sys2Proof.Machine
open Sys2Proof

/-- Settles O28: the environment's part leaves what the run loop needs, the run loops of the tick and the acceptance between them
keep it and stop, and the end of the tick makes the invariant of it again (`step_keeps_inv`). -/
theorem stepKeepsInvariant : Obligations.StepKeepsInvariant := fun _ h => step_keeps_inv h

end Sys2Proof.Machine

namespace Sys2Proof

/-- A table word whose bits begin with the frame of an operation, under the CMD values of REF, is that operation (R68). -/
theorem decodeTableWord_of_tableBits {nbits w : Nat} {i : Instr} {rest : List Bool}
    (h : tableBits nbits w = encode Config.ref i ++ rest) : decodeTableWord nbits w = some i := by
  have hcmd : Config.ref.cmdWrite ≠ Config.ref.cmdRead := by decide
  have hdecode := decode_eq_ok_iff.mpr ⟨decodeFrame_encode_append hcmd i rest, rfl⟩
  rw [decodeTableWord, h, hdecode]

theorem decode_of_nonConforming {cfg : Config} {bs : List Bool} {i : Instr} (h : decodeFrame cfg bs = .frame i false) :
    decode cfg bs = .error .nonConforming := by
  rw [decode, h]

theorem decode_of_incomplete {cfg : Config} {bs : List Bool} (h : decodeFrame cfg bs = .incomplete) :
    decode cfg bs = .error .incomplete := by
  rw [decode, h]

/-- Settles O10: the bits of the four calls are their frames, a READ's with an unused second word behind it; of the other two, one
has the bit before ADDR set, in PAD, and one is a WRITE's command word without its DATA. -/
theorem tableWordsDecode : Obligations.TableWordsDecode := by
  have hpad : decodeFrame Config.ref (bitsMsb 0x40000040#32) = .frame (.read 0 2) false :=
    decodeFrame_eq_frame_iff.mpr ⟨by decide, by decide, by decide, by decide, fun _ _ _ hread => Instr.noConfusion hread, by decide⟩
  have hshort : decodeFrame Config.ref (bitsMsb 0xC0000000#32) = .incomplete :=
    decodeFrame_eq_incomplete_iff.mpr (.inr (by decide))
  refine ⟨?_, ?_, ?_, ?_, hpad, hshort, decode_of_nonConforming hpad, decode_of_incomplete hshort⟩
  · exact decodeTableWord_of_tableBits (rest := []) (by decide)
  · exact decodeTableWord_of_tableBits (rest := []) (by decide)
  · exact decodeTableWord_of_tableBits (rest := bitsMsb 0#32) (by decide)
  · exact decodeTableWord_of_tableBits (rest := bitsMsb 0#32) (by decide)

end Sys2Proof

end
